-- ==== Sys2Proof/Word.lean ====
section
/-! DEFINITION. The plain word types of the vector arithmetic core: the control words of
30_encoding.md R90, the packed containers of 00_scope.md R9 and R13, and the flag and mask widths. -/

namespace Sys2Proof

/-- A control word: ACW, FCW or DCW (R90). -/
abbrev CtlWord := BitVec 32

/-- The packed container of the two floating units, `FP_W = 64` (R9). -/
abbrev Pack64 := BitVec 64

/-- The packed container of the divider, `DIV_W = 128` (R9). -/
abbrev Pack128 := BitVec 128

/-- One lane's flag set, NV DZ OF UF NX from bit 4 down to bit 0 (R15). -/
abbrev LaneFlags := BitVec 5

/-- The packed flag register, `FLAGS_W = 20`: lane `i` at bits `[5i+4:5i]` (R34). -/
abbrev FlagReg := BitVec 20

/-- The divide-by-zero mask, `DZMASK_W = 16` (R40). -/
abbrev DzMask := BitVec 16

/-- A write mask or a reduction mask: bit `i` for lane `i` (R33). -/
abbrev LaneMask := BitVec 4

/-- The micro-op index, `UOP_IDX_W = 3` (R33). -/
abbrev UopIdx := BitVec 3

end Sys2Proof
end

