-- ==== Sys2Proof/Machine/Flags.lean ====
section
/-! DEFINITION. The five exception flags and their layout in a lane's flag set (R15, R42). -/

namespace Sys2Proof.Machine

/-- Invalid operation, bit 4 (R15). -/
def NV : LaneFlags := 0b10000#5

/-- Divide by zero, bit 3: never set (R292). -/
def DZ : LaneFlags := 0b01000#5

/-- Overflow, bit 2 (R15). -/
def OF : LaneFlags := 0b00100#5

/-- Underflow, bit 1 (R15). -/
def UF : LaneFlags := 0b00010#5

/-- Inexact, bit 0 (R15). -/
def NX : LaneFlags := 0b00001#5

/-- No flag. -/
def noFlags : LaneFlags := 0b00000#5

/-- A flag if its condition holds, else none. -/
def flagIf (c : Bool) (f : LaneFlags) : LaneFlags := if c then f else noFlags

/-- Whether every bit of `f` is set in `x`. -/
def raises (x f : LaneFlags) : Bool := x &&& f == f

end Sys2Proof.Machine
end

