-- ==== Sys2Proof/Syntax.lean ====
section
/-! DEFINITION. The operations of the block, one constructor per row of spec/opcode_table.json.
Field codes are turned into names here and in Decode.lean, so that no meaning sees a raw code. -/

namespace Sys2Proof

/-- The floating-point formats (R120). -/
inductive Format where
  | f16
  | f32
  | f64
deriving DecidableEq, Repr, Inhabited

/-- The five rounding modes (R126). -/
inductive RoundingMode where
  | rne
  | rtz
  | rdn
  | rup
  | rmm
deriving DecidableEq, Repr, Inhabited

/-- The divider's element widths (R96). -/
inductive ElemWidth where
  | e8
  | e16
  | e32
  | e64
deriving DecidableEq, Repr, Inhabited

/-- The three units, each with control ports and a control word of its own (R8, R90). -/
inductive UnitId where
  | fadd
  | fma
  | div
deriving DecidableEq, Repr, Inhabited

/-- The control fields of a non-reduction FADD-unit operation (R91, R97). `redmask`, `isFold` and
`uop` are ignored by these operations and may hold any value. `widen` must be 0, so it is no field. -/
structure AddCtl where
  fmt     : Format
  rm      : RoundingMode
  mask    : LaneMask
  redmask : LaneMask
  isFold  : Bool
  uop     : UopIdx
deriving DecidableEq, Repr, Inhabited

/-- The control fields of a reduction micro-op (R91, R97). `mask` is not read (R201). `is_fold` and
`widen` select the operation, so they are no fields. -/
structure RedCtl where
  fmt     : Format
  rm      : RoundingMode
  mask    : LaneMask
  redmask : LaneMask
  uop     : UopIdx
deriving DecidableEq, Repr, Inhabited

/-- The control fields of an FMA-unit operation (R92). -/
structure FmaCtl where
  fmt : Format
  rm  : RoundingMode
deriving DecidableEq, Repr, Inhabited

/-- The 15 operations (R97, R98, R99). The packed operands are port values, not fields (R90, R100). -/
inductive Instr where
  | fadd (c : AddCtl)
  | fsub (c : AddCtl)
  | fmin (c : AddCtl)
  | fmax (c : AddCtl)
  | fclass (c : AddCtl)
  /-- `fredsum.fold`. -/
  | fredsumFold (c : RedCtl)
  | fredsum (c : RedCtl)
  | fwredsum (c : RedCtl)
  | fmul (c : FmaCtl)
  | fmadd (c : FmaCtl)
  | fmsub (c : FmaCtl)
  | fnmadd (c : FmaCtl)
  | fnmsub (c : FmaCtl)
  | vdivu (ew : ElemWidth)
  | vdiv (ew : ElemWidth)
deriving DecidableEq, Repr

/-- The unit whose ports carry the operation (R97, R98, R99). -/
def Instr.unit : Instr → UnitId
  | .fadd _ => .fadd
  | .fsub _ => .fadd
  | .fmin _ => .fadd
  | .fmax _ => .fadd
  | .fclass _ => .fadd
  | .fredsumFold _ => .fadd
  | .fredsum _ => .fadd
  | .fwredsum _ => .fadd
  | .fmul _ => .fma
  | .fmadd _ => .fma
  | .fmsub _ => .fma
  | .fnmadd _ => .fma
  | .fnmsub _ => .fma
  | .vdivu _ => .div
  | .vdiv _ => .div

end Sys2Proof
end

