-- ==== Sys2Proof/Config.lean ====
section
/-! DEFINITION. The implementation parameters of 00_scope.md R9 and the free values of R16.
The parameters are plain data that State carries unchanged, so that a statement about every state
holds for every value of every parameter (R10). A constant without a body has a value that nothing
in Lean can know. -/

namespace Sys2Proof

/-- `ADD_LATENCY`, OPEN in {2, 3} (R9, R314). -/
inductive AddLatency where
  | two
  | three
deriving DecidableEq, Repr, Inhabited

/-- When tininess is decided (R129). -/
inductive Tininess where
  | beforeRounding
  | afterRounding
deriving DecidableEq, Repr, Inhabited

/-- The adder's NaN result policy (R134). -/
inductive NanResult where
  | canonical
  | propagate
deriving DecidableEq, Repr, Inhabited

/-- `DIV_CYCLES` (R262), as four increments from which `DivTiming.cycles` (Machine/Formats.lean) builds
the function. Every function R262 allows is built from some increments, and every increments build
an allowed one. -/
structure DivTiming where
  base  : Nat
  inc16 : Nat
  inc32 : Nat
  inc64 : Nat
deriving DecidableEq, Repr, Inhabited

/-- The parameters a build of the block fixes (R9). -/
structure Params where
  addLatency : AddLatency
  divTiming  : DivTiming
  tininess   : Tininess
  nanResult  : NanResult
deriving DecidableEq, Repr, Inhabited

/-- The build's `ADD_LATENCY`: OPEN, never fixed here (R10). -/
opaque Config.addLatency : AddLatency

/-- The build's `DIV_CYCLES`: OPEN, never fixed here (R10). -/
opaque Config.divTiming : DivTiming

/-- The parameters at reset: the two OPEN ones are unknown constants, the other two take the
defaults the spec gives them (R9: `BEFORE_ROUNDING`, `CANONICAL`). -/
def Config.params : Params :=
  { addLatency := Config.addLatency
    divTiming  := Config.divTiming
    tininess   := .beforeRounding
    nanResult  := .canonical }

/-! Draws (R16: "any bit pattern of the stated width, chosen freshly each time, with no law"). Each
constant is applied to State's draw counter, which every step advances. -/

/-- `div.req.ew` after a flush (R263). -/
opaque Config.flushedEw : Nat → ElemWidth

/-- `div.req.signed` after a flush (R263). -/
opaque Config.flushedSigned : Nat → Bool

/-- `div.req.dividend` after a flush (R263). -/
opaque Config.flushedDividend : Nat → Pack128

/-- `div.req.divisor` after a flush (R263). -/
opaque Config.flushedDivisor : Nat → Pack128

/-- `div.quotient` after a flush (R263). -/
opaque Config.flushedQuotient : Nat → Pack128

/-- `div.remainder` after a flush (R263). -/
opaque Config.flushedRemainder : Nat → Pack128

/-- `div.dzmask` after a flush (R263). -/
opaque Config.flushedDzmask : Nat → DzMask

/-- The `quotient` output in a cycle with `out_valid = 0` (R258). -/
opaque Config.unreadQuotient : Nat → Pack128

/-- The `remainder` output in a cycle with `out_valid = 0` (R258). -/
opaque Config.unreadRemainder : Nat → Pack128

/-- The `dzmask` output in a cycle with `out_valid = 0` (R258). -/
opaque Config.unreadDzmask : Nat → DzMask

end Sys2Proof
end

