-- ==== Sys2Proof/Machine/Formats.lean ====
section
/-! DEFINITION. The numbers that belong to a format or an element width (R9, R120). -/

namespace Sys2Proof

/-- Width `W` (R120). -/
def Format.width : Format → Nat
  | .f16 => 16
  | .f32 => 32
  | .f64 => 64

/-- Exponent width `E` (R120). -/
def Format.expBits : Format → Nat
  | .f16 => 5
  | .f32 => 8
  | .f64 => 11

/-- Fraction width `M` (R120). -/
def Format.fracBits : Format → Nat
  | .f16 => 10
  | .f32 => 23
  | .f64 => 52

/-- `2^k` lanes in a 64-bit container, as the exponent `k` (R9). -/
def Format.lanesLog2 : Format → Nat
  | .f16 => 2
  | .f32 => 1
  | .f64 => 0

/-- `L(F)`, lanes in a 64-bit container (R9, R120). -/
def Format.lanes (F : Format) : Nat := 2 ^ F.lanesLog2

/-- `emask = 2^E - 1` (R122). -/
def Format.expMask (F : Format) : Nat := 2 ^ F.expBits - 1

/-- `bias = 2^(E-1) - 1` (R120). -/
def Format.bias (F : Format) : Nat := 2 ^ (F.expBits - 1) - 1

/-- `emax = bias` (R120). -/
def Format.emax (F : Format) : Int := F.bias

/-- `emin = 1 - bias` (R120). -/
def Format.emin (F : Format) : Int := 1 - F.bias

/-- The canonical quiet NaN (R120, R125). -/
def Format.canonicalNaN : (F : Format) → BitVec F.width
  | .f16 => 0x7E00#16
  | .f32 => 0x7FC00000#32
  | .f64 => 0x7FF8000000000000#64

/-- `Wide(S)`, the format twice as wide (42_freduce.md notation, R136). -/
def Format.wide : Format → Option Format
  | .f16 => some .f32
  | .f32 => some .f64
  | .f64 => none

/-- An element width in bits (R96). -/
def ElemWidth.bits : ElemWidth → Nat
  | .e8 => 8
  | .e16 => 16
  | .e32 => 32
  | .e64 => 64

/-- `128/ew`, lanes in the divider's container (R9, R250). -/
def ElemWidth.lanes : ElemWidth → Nat
  | .e8 => 16
  | .e16 => 8
  | .e32 => 4
  | .e64 => 2

/-- `ADD_LATENCY` in cycles (R9). Written so that it is visibly at least 2. -/
def AddLatency.cycles (l : AddLatency) : Nat :=
  (match l with
   | .two => 0
   | .three => 1) + 2

/-- `DIV_CYCLES(ew)` (R262): at least 1, non-decreasing in `ew`, and greater at 64 bits than at 8. -/
def DivTiming.cycles (d : DivTiming) : ElemWidth → Nat
  | .e8 => d.base + 1
  | .e16 => d.base + 1 + d.inc16
  | .e32 => d.base + 1 + d.inc16 + d.inc32
  | .e64 => max (d.base + 1 + d.inc16 + d.inc32 + d.inc64) (d.base + 2)

/-- `FMA_LATENCY = 4` cycles (R9). -/
def fmaLatency : Nat := 4

end Sys2Proof
end

