-- ==== Sys2Proof/Machine/Numerics.lean ====
section
/-! DEFINITION. The floating-point numerics of 40_fp_numerics.md and `FMACore` of 43_fma.md R221. A
pattern of format F is a `BitVec F.width`. Exact values are integers times powers of two: every value
the rules compute is one, and no step loses a bit (log 17). -/

namespace Sys2Proof.Machine

/-! ## Exact values (R12) -/

/-- The exact value `num * 2^exp`. -/
structure Exact where
  num : Int
  exp : Int
deriving DecidableEq, Repr

/-- The rational an exact value stands for (R12): for statements, not for computing. -/
def Exact.toRat (x : Exact) : Rat := (x.num : Rat) * (2 : Rat) ^ x.exp

/-- The exact sum. -/
def Exact.add (x y : Exact) : Exact :=
  let p := min x.exp y.exp
  { num := x.num * (2 : Int) ^ (x.exp - p).toNat + y.num * (2 : Int) ^ (y.exp - p).toNat
    exp := p }

/-- The exact product. -/
def Exact.mul (x y : Exact) : Exact := { num := x.num * y.num, exp := x.exp + y.exp }

/-- `(-1)^s * |x|`. -/
def Exact.withSign (s : Bool) (x : Exact) : Exact :=
  { num := if s then -(x.num.natAbs : Int) else (x.num.natAbs : Int), exp := x.exp }

/-- Whether the value is 0. -/
def Exact.isZero (x : Exact) : Bool := x.num == 0

/-- `x < y`. -/
def Exact.lt (x y : Exact) : Bool := decide ((x.add { num := -y.num, exp := y.exp }).num < 0)

/-! ## Fields and classes (R121, R122) -/

section Patterns

variable (F : Format)

/-- `Sign(x) = x[W-1]` (R121). -/
def sign (x : BitVec F.width) : Bool := x.getLsbD (F.width - 1)

/-- `e`, the biased exponent field (R121). -/
def expField (x : BitVec F.width) : Nat := (x.extractLsb' F.fracBits F.expBits).toNat

/-- `f`, the fraction field (R121). -/
def fracField (x : BitVec F.width) : Nat := (x.extractLsb' 0 F.fracBits).toNat

/-- `f[M-1]`, the quiet bit (R122). -/
def quietBit (x : BitVec F.width) : Bool := x.getLsbD (F.fracBits - 1)

/-- R122. -/
def isInf (x : BitVec F.width) : Bool := expField F x == F.expMask && fracField F x == 0

/-- R122. -/
def isNaN (x : BitVec F.width) : Bool := expField F x == F.expMask && fracField F x != 0

/-- R122. -/
def isQNaN (x : BitVec F.width) : Bool := isNaN F x && quietBit F x

/-- R122. -/
def isSNaN (x : BitVec F.width) : Bool := isNaN F x && !quietBit F x

/-- R122. -/
def isZero (x : BitVec F.width) : Bool := expField F x == 0 && fracField F x == 0

/-- R122. -/
def isSubnormal (x : BitVec F.width) : Bool := expField F x == 0 && fracField F x != 0

/-- R122. -/
def isNormal (x : BitVec F.width) : Bool :=
  decide (0 < expField F x) && decide (expField F x < F.expMask)

/-- R122. -/
def isFinite (x : BitVec F.width) : Bool := !isInf F x && !isNaN F x

/-- The value of a finite pattern (R123). -/
def value (x : BitVec F.width) : Exact :=
  let s : Int := if sign F x then -1 else 1
  if expField F x = 0 then
    { num := s * fracField F x, exp := F.emin - F.fracBits }
  else
    { num := s * (2 ^ F.fracBits + fracField F x)
      exp := (expField F x : Int) - F.bias - F.fracBits }

/-- The pattern with the given sign, exponent field and fraction field (R121). -/
def assemble (s : Bool) (e f : Nat) : BitVec F.width :=
  BitVec.ofNat F.width (s.toNat * 2 ^ (F.width - 1) + e * 2 ^ F.fracBits + f)

/-- `Zero(F, s)` (R124). -/
def zero (s : Bool) : BitVec F.width := assemble F s 0 0

/-- `Inf(F, s)` (R124). -/
def inf (s : Bool) : BitVec F.width := assemble F s F.expMask 0

/-- `MaxFinite(F, s)` (R124). -/
def maxFinite (s : Bool) : BitVec F.width :=
  assemble F s (F.expMask - 1) (2 ^ F.fracBits - 1)

/-- `Neg(x)`: flips bit `W-1` and nothing else (R124). -/
def neg (x : BitVec F.width) : BitVec F.width := x ^^^ BitVec.twoPow F.width (F.width - 1)

end Patterns

/-! ## Rounding (R126 to R132) -/

/-- Whether `RoundAt` rounds the magnitude up, for quotient `n` and remainder `rem` of a division by
`den`: the spec's `r` is `rem / den` (R127). -/
def roundsUp (rm : RoundingMode) (s : Bool) (n rem den : Nat) : Bool :=
  match rm with
  | .rne => decide (den < 2 * rem) || (decide (2 * rem = den) && decide (n % 2 = 1))
  | .rmm => decide (den ≤ 2 * rem)
  | .rtz => false
  | .rdn => decide (0 < rem) && s
  | .rup => decide (0 < rem) && !s

/-- `RoundAt(rm, s, a * 2^p, q)` (R127): the magnitude rounded to an integer multiple of `2^q`, as
that integer, and whether it is inexact. -/
def roundAt (rm : RoundingMode) (s : Bool) (a : Nat) (p q : Int) : Nat × Bool :=
  let top := a * 2 ^ (p - q).toNat
  let den := 2 ^ (q - p).toNat
  let n := top / den
  let rem := top % den
  (n + (roundsUp rm s n rem den).toNat, decide (0 < rem))

/-- `2^k ≤ m * 2^q`. -/
def atLeastPow (m : Nat) (q k : Int) : Bool :=
  decide (2 ^ (k - q).toNat ≤ m * 2 ^ (q - k).toNat)

/-- `Encode(F, s, m, q)` for `m ≤ 2^(M+1)` (R127). -/
def encodeMagnitude (F : Format) (s : Bool) (m : Nat) (q : Int) : BitVec F.width :=
  let carry := m == 2 ^ (F.fracBits + 1)
  let m' := if carry then 2 ^ F.fracBits else m
  let q' := if carry then q + 1 else q
  if 2 ^ F.fracBits ≤ m' then
    assemble F s (q' + F.fracBits + F.bias).toNat (m' - 2 ^ F.fracBits)
  else
    assemble F s 0 m'

/-- The overflow result (R128). -/
def overflowResult (F : Format) (rm : RoundingMode) (s : Bool) : BitVec F.width :=
  match rm with
  | .rne => inf F s
  | .rmm => inf F s
  | .rtz => maxFinite F s
  | .rdn => if s then inf F s else maxFinite F s
  | .rup => if s then maxFinite F s else inf F s

/-- `Tiny(F, rm, s, a * 2^p, e)` (R129). -/
def tiny (t : Tininess) (F : Format) (rm : RoundingMode) (s : Bool) (a : Nat) (p e : Int) : Bool :=
  match t with
  | .beforeRounding => !atLeastPow a p F.emin
  | .afterRounding =>
    !atLeastPow (roundAt rm s a p (e - F.fracBits)).1 (e - F.fracBits) F.emin

/-- `Round(F, rm, x)` for `x ≠ 0`: the single rounding step of every arithmetic rule (R127). -/
def round (t : Tininess) (F : Format) (rm : RoundingMode) (x : Exact) :
    BitVec F.width × LaneFlags :=
  let s := decide (x.num < 0)
  let a := x.num.natAbs
  let e : Int := x.exp + a.log2
  let q : Int := max e F.emin - F.fracBits
  let m := (roundAt rm s a x.exp q).1
  let inexact := (roundAt rm s a x.exp q).2
  if atLeastPow m q (F.emax + 1) then
    (overflowResult F rm s, OF ||| NX)
  else
    (encodeMagnitude F s m q,
     flagIf inexact NX ||| flagIf (tiny t F rm s a x.exp e && inexact) UF)

/-! ## The adder core (R133 to R135) -/

/-- The sign of an exact zero sum of terms with signs `su` and `sv`, where `bothZero` says that both
terms are zeros (R133). -/
def zeroSumSign (rm : RoundingMode) (bothZero su sv : Bool) : Bool :=
  if bothZero && su == sv then su else rm == .rdn

/-- `NaNResult(F, u, v)` when an operand is a NaN (R134). -/
def nanResult (n : NanResult) (F : Format) (u v : BitVec F.width) : BitVec F.width :=
  match n with
  | .canonical => F.canonicalNaN
  | .propagate =>
    (if isNaN F u then u else v) ||| BitVec.twoPow F.width (F.fracBits - 1)

/-- `FAddCore(F, rm, u, v)` (R135). -/
def fAddCore (P : Params) (F : Format) (rm : RoundingMode) (u v : BitVec F.width) :
    BitVec F.width × LaneFlags :=
  if isNaN F u || isNaN F v then
    (nanResult P.nanResult F u v, flagIf (isSNaN F u || isSNaN F v) NV)
  else if isInf F u && isInf F v && sign F u != sign F v then
    (F.canonicalNaN, NV)
  else if isInf F u then (u, noFlags)
  else if isInf F v then (v, noFlags)
  else
    let x := (value F u).add (value F v)
    if x.isZero then
      (zero F (zeroSumSign rm (isZero F u && isZero F v) (sign F u) (sign F v)), noFlags)
    else round P.tininess F rm x

/-! ## Widening (R136) -/

/-- `Widen(S, T, x)` (R136). The value is representable in T whenever T is `Wide(S)`, so the rounding
step returns its pattern unchanged whatever the mode (R132). -/
def widen (S T : Format) (x : BitVec S.width) : BitVec T.width × LaneFlags :=
  if isSNaN S x then (T.canonicalNaN, NV)
  else if isQNaN S x then (T.canonicalNaN, noFlags)
  else if isInf S x then (inf T (sign S x), noFlags)
  else if isZero S x then (zero T (sign S x), noFlags)
  else ((round .beforeRounding T .rne (value S x)).1, noFlags)

/-! ## Classification and order (R137, R138) -/

/-- `Class10(F, x)` (R137). -/
def class10 (F : Format) (x : BitVec F.width) : BitVec 10 :=
  BitVec.ofBool (isQNaN F x) ++
  BitVec.ofBool (isSNaN F x) ++
  BitVec.ofBool (isInf F x && !sign F x) ++
  BitVec.ofBool (isNormal F x && !sign F x) ++
  BitVec.ofBool (isSubnormal F x && !sign F x) ++
  BitVec.ofBool (isZero F x && !sign F x) ++
  BitVec.ofBool (isZero F x && sign F x) ++
  BitVec.ofBool (isSubnormal F x && sign F x) ++
  BitVec.ofBool (isNormal F x && sign F x) ++
  BitVec.ofBool (isInf F x && sign F x)

/-- -1 for minus infinity, 1 for plus infinity, 0 for a finite pattern. -/
def infRank (F : Format) (x : BitVec F.width) : Int :=
  if isInf F x then (if sign F x then -1 else 1) else 0

/-- `u < v` on non-NaN patterns (R138): by value, with the infinities at the two ends and -0 below
+0. -/
def fpLt (F : Format) (u v : BitVec F.width) : Bool :=
  if infRank F u = 0 ∧ infRank F v = 0 then
    (value F u).lt (value F v) ||
      (isZero F u && isZero F v && sign F u && !sign F v)
  else decide (infRank F u < infRank F v)

/-- `u ≤ v` in the total order of R138. -/
def fpLe (F : Format) (u v : BitVec F.width) : Bool := !fpLt F v u

/-! ## Identity (R141) -/

/-- `Identity(T, rm)` (R141). -/
def identity (T : Format) (rm : RoundingMode) : BitVec T.width := zero T (rm != .rdn)

/-! ## The fused core (R221) -/

/-- `FMACore(F, rm, a, b, c, negP, negC, useC)` (R221). -/
def fmaCore (P : Params) (F : Format) (rm : RoundingMode) (a b c : BitVec F.width)
    (negP negC useC : Bool) : BitVec F.width × LaneFlags :=
  let nv := flagIf (isSNaN F a || isSNaN F b || (useC && isSNaN F c)) NV
  if (isInf F a && isZero F b) || (isZero F a && isInf F b) then (F.canonicalNaN, NV)
  else if isNaN F a || isNaN F b || (useC && isNaN F c) then (F.canonicalNaN, nv)
  else
    let sp := (sign F a ^^ sign F b) ^^ negP
    let pinf := isInf F a || isInf F b
    let pzero := isZero F a || isZero F b
    let prod := ((value F a).mul (value F b)).withSign sp
    if !useC then
      if pinf then (inf F sp, noFlags)
      else if pzero then (zero F sp, noFlags)
      else round P.tininess F rm prod
    else
      let sc := sign F c ^^ negC
      if pinf && isInf F c && sp != sc then (F.canonicalNaN, NV)
      else if pinf then (inf F sp, noFlags)
      else if isInf F c then (inf F sc, noFlags)
      else
        let x := prod.add ((value F c).withSign sc)
        if x.isZero then
          (zero F (zeroSumSign rm (pzero && isZero F c) sp sc), noFlags)
        else round P.tininess F rm x

/-! ## Minimum and maximum (R164, R165) -/

/-- The NaN rules `fmin` and `fmax` share, around the choice `pick` between two non-NaN operands. -/
def minMaxCore (F : Format) (pick : Bool) (a b : BitVec F.width) : BitVec F.width × LaneFlags :=
  (if isNaN F a && isNaN F b then F.canonicalNaN
   else if isNaN F a then b
   else if isNaN F b then a
   else if pick then a
   else b,
   flagIf (isSNaN F a || isSNaN F b) NV)

/-- `fmin` on one lane (R164). -/
def fMinCore (F : Format) (a b : BitVec F.width) : BitVec F.width × LaneFlags :=
  minMaxCore F (fpLe F a b) a b

/-- `fmax` on one lane (R165). -/
def fMaxCore (F : Format) (a b : BitVec F.width) : BitVec F.width × LaneFlags :=
  minMaxCore F (fpLe F b a) a b

/-- `fclass` on one lane (R166): the class field in the low bits, zero above, no flag. -/
def fClassCore (F : Format) (a : BitVec F.width) : BitVec F.width × LaneFlags :=
  ((class10 F a).setWidth F.width, noFlags)

/-! ## The reduction tree (R197) -/

/-- The OR of the flags of the first `n` lanes. -/
def orFlags (n : Nat) (g : Nat → LaneFlags) : LaneFlags :=
  (List.range n).foldl (fun acc j => acc ||| g j) noFlags

/-- `Tree(T, rm, v[0 .. 2^k - 1])` (R197): folds by halves, pairing lane `j` with lane `j + n/2`. -/
def tree (P : Params) (T : Format) (rm : RoundingMode) :
    Nat → (Nat → BitVec T.width) → BitVec T.width × LaneFlags
  | 0, v => (v 0, noFlags)
  | k + 1, v =>
    let g := fun j => fAddCore P T rm (v j) (v (j + 2 ^ k))
    let rest := tree P T rm k (fun j => (g j).1)
    (rest.1, orFlags (2 ^ k) (fun j => (g j).2) ||| rest.2)

end Sys2Proof.Machine
end

