-- ==== Sys2Proof/WellFormed.lean ====
section
/-! DEFINITION. Which terms of `Instr` spell an operation. The types of the fields already exclude
reserved formats and rounding modes; one condition is left. -/

namespace Sys2Proof

/-- R104: a widened reduction of F64 has no meaning, since no format is twice as wide as F64. Every
other term spells an operation of R97, R98 or R99. -/
def Instr.wf : Instr → Bool
  | .fwredsum c => c.fmt ≠ .f64
  | .fadd _ => true
  | .fsub _ => true
  | .fmin _ => true
  | .fmax _ => true
  | .fclass _ => true
  | .fredsumFold _ => true
  | .fredsum _ => true
  | .fmul _ => true
  | .fmadd _ => true
  | .fmsub _ => true
  | .fnmadd _ => true
  | .fnmsub _ => true
  | .vdivu _ => true
  | .vdiv _ => true

end Sys2Proof
end

