-- ==== Sys2Proof/Decode.lean ====
section
/-! DEFINITION. Control words to operations and back (30_encoding.md R90 to R106). The decoder is
total: every control word of every unit is an operation or is rejected by name. -/

namespace Sys2Proof

/-- Why a control word spells no operation (R105). -/
inductive Reject where
  /-- A reserved bit is set (R90). -/
  | reservedBits
  /-- `fmt = 0b00` (R101). -/
  | reservedFormat
  /-- `op` is not in the unit's opcode map (R102). -/
  | reservedOpcode
  /-- `rm` is `0b101`, `0b110` or `0b111` (R103). -/
  | reservedRounding
  /-- `widen = 1` with `op` 0 to 4 (R104). -/
  | widenedOrdinary
  /-- A widened fold step (R104). -/
  | widenedFold
  /-- A widened reduction of F64 (R104). -/
  | widenedF64
deriving DecidableEq, Repr

/-- What the decoder answers. -/
inductive Decoded where
  | instr (i : Instr)
  | reject (r : Reject)
deriving DecidableEq, Repr

/-- The operation, if the word spells one. -/
def Decoded.toOption : Decoded → Option Instr
  | .instr i => some i
  | .reject _ => none

/-! ## Field codes -/

/-- R94. -/
def formatCode : Format → BitVec 2
  | .f16 => 0b01#2
  | .f32 => 0b10#2
  | .f64 => 0b11#2

/-- R94: `0b00` is reserved. -/
def formatOfCode (c : BitVec 2) : Option Format :=
  if c = 0b01#2 then some .f16
  else if c = 0b10#2 then some .f32
  else if c = 0b11#2 then some .f64
  else none

/-- R95. -/
def roundingCode : RoundingMode → BitVec 3
  | .rne => 0b000#3
  | .rtz => 0b001#3
  | .rdn => 0b010#3
  | .rup => 0b011#3
  | .rmm => 0b100#3

/-- R95: `0b101`, `0b110` and `0b111` are reserved. -/
def roundingOfCode (c : BitVec 3) : Option RoundingMode :=
  if c = 0b000#3 then some .rne
  else if c = 0b001#3 then some .rtz
  else if c = 0b010#3 then some .rdn
  else if c = 0b011#3 then some .rup
  else if c = 0b100#3 then some .rmm
  else none

/-- R96. -/
def elemCode : ElemWidth → BitVec 2
  | .e8 => 0b00#2
  | .e16 => 0b01#2
  | .e32 => 0b10#2
  | .e64 => 0b11#2

/-- R96: all four codes are valid. -/
def elemOfCode (c : BitVec 2) : ElemWidth :=
  if c = 0b00#2 then .e8
  else if c = 0b01#2 then .e16
  else if c = 0b10#2 then .e32
  else .e64

/-! ## Fields of the control words -/

/-- `op`, bits 4:0 of ACW and FCW (R91, R92). -/
def wordOp (w : CtlWord) : BitVec 5 := w.extractLsb' 0 5

/-- `fmt`, bits 6:5 of ACW and FCW (R91, R92). -/
def wordFmt (w : CtlWord) : BitVec 2 := w.extractLsb' 5 2

/-- `rm`, bits 9:7 of ACW and FCW (R91, R92). -/
def wordRm (w : CtlWord) : BitVec 3 := w.extractLsb' 7 3

/-- `mask`, bits 13:10 of ACW (R91). -/
def acwMask (w : CtlWord) : LaneMask := w.extractLsb' 10 4

/-- `redmask`, bits 17:14 of ACW (R91). -/
def acwRedmask (w : CtlWord) : LaneMask := w.extractLsb' 14 4

/-- `widen`, bit 18 of ACW (R91). -/
def acwWiden (w : CtlWord) : Bool := w.getLsbD 18

/-- `is_fold`, bit 19 of ACW (R91). -/
def acwIsFold (w : CtlWord) : Bool := w.getLsbD 19

/-- `uop`, bits 22:20 of ACW (R91). -/
def acwUop (w : CtlWord) : UopIdx := w.extractLsb' 20 3

/-- Bits 31:23 of ACW, reserved (R91). -/
def acwReserved (w : CtlWord) : BitVec 9 := w.extractLsb' 23 9

/-- Bits 31:10 of FCW, reserved (R92). -/
def fcwReserved (w : CtlWord) : BitVec 22 := w.extractLsb' 10 22

/-- `ew`, bits 1:0 of DCW (R93). -/
def dcwEw (w : CtlWord) : BitVec 2 := w.extractLsb' 0 2

/-- `signed`, bit 2 of DCW (R93). -/
def dcwSigned (w : CtlWord) : Bool := w.getLsbD 2

/-- Bits 31:3 of DCW, reserved (R93). -/
def dcwReserved (w : CtlWord) : BitVec 29 := w.extractLsb' 3 29

/-! ## The decoder -/

/-- The fields of a non-reduction FADD-unit operation (R91). -/
def addCtlOf (w : CtlWord) (fmt : Format) (rm : RoundingMode) : AddCtl :=
  { fmt := fmt, rm := rm, mask := acwMask w, redmask := acwRedmask w
    isFold := acwIsFold w, uop := acwUop w }

/-- The fields of a reduction micro-op (R91). -/
def redCtlOf (w : CtlWord) (fmt : Format) (rm : RoundingMode) : RedCtl :=
  { fmt := fmt, rm := rm, mask := acwMask w, redmask := acwRedmask w, uop := acwUop w }

/-- An `op` of 0 to 4 with its `widen` bit (R97, R104). -/
def ordinaryOf (w : CtlWord) (mk : AddCtl → Instr) (fmt : Format) (rm : RoundingMode) : Decoded :=
  if acwWiden w then .reject .widenedOrdinary else .instr (mk (addCtlOf w fmt rm))

/-- `op = 0x05`: `is_fold` and `widen` select the micro-op (R97, R104). -/
def reductionOf (w : CtlWord) (fmt : Format) (rm : RoundingMode) : Decoded :=
  match acwIsFold w, acwWiden w with
  | true, false => .instr (.fredsumFold (redCtlOf w fmt rm))
  | false, false => .instr (.fredsum (redCtlOf w fmt rm))
  | true, true => .reject .widenedFold
  | false, true =>
    if fmt = .f64 then .reject .widenedF64 else .instr (.fwredsum (redCtlOf w fmt rm))

/-- The FADD-unit opcode map (R97, R102). -/
def acwOperation (w : CtlWord) (fmt : Format) (rm : RoundingMode) : Decoded :=
  if wordOp w = 0x00#5 then ordinaryOf w .fadd fmt rm
  else if wordOp w = 0x01#5 then ordinaryOf w .fsub fmt rm
  else if wordOp w = 0x02#5 then ordinaryOf w .fmin fmt rm
  else if wordOp w = 0x03#5 then ordinaryOf w .fmax fmt rm
  else if wordOp w = 0x04#5 then ordinaryOf w .fclass fmt rm
  else if wordOp w = 0x05#5 then reductionOf w fmt rm
  else .reject .reservedOpcode

/-- The FMA-unit opcode map (R98, R102). -/
def fcwOperation (w : CtlWord) (fmt : Format) (rm : RoundingMode) : Decoded :=
  if wordOp w = 0x00#5 then .instr (.fmul { fmt := fmt, rm := rm })
  else if wordOp w = 0x01#5 then .instr (.fmadd { fmt := fmt, rm := rm })
  else if wordOp w = 0x02#5 then .instr (.fmsub { fmt := fmt, rm := rm })
  else if wordOp w = 0x03#5 then .instr (.fnmadd { fmt := fmt, rm := rm })
  else if wordOp w = 0x04#5 then .instr (.fnmsub { fmt := fmt, rm := rm })
  else .reject .reservedOpcode

/-- The `fmt` and `rm` checks every floating operation makes (R101, R103). -/
def withFormatAndRounding (w : CtlWord) (k : Format → RoundingMode → Decoded) : Decoded :=
  match formatOfCode (wordFmt w) with
  | none => .reject .reservedFormat
  | some fmt =>
    match roundingOfCode (wordRm w) with
    | none => .reject .reservedRounding
    | some rm => k fmt rm

/-- ACW, the FADD-unit control word (R91). -/
def decodeAcw (w : CtlWord) : Decoded :=
  if acwReserved w ≠ 0#9 then .reject .reservedBits
  else withFormatAndRounding w (acwOperation w)

/-- FCW, the FMA-unit control word (R92). -/
def decodeFcw (w : CtlWord) : Decoded :=
  if fcwReserved w ≠ 0#22 then .reject .reservedBits
  else withFormatAndRounding w (fcwOperation w)

/-- DCW, the DIV-unit control word (R93, R99). -/
def decodeDcw (w : CtlWord) : Decoded :=
  if dcwReserved w ≠ 0#29 then .reject .reservedBits
  else if dcwSigned w then .instr (.vdiv (elemOfCode (dcwEw w)))
  else .instr (.vdivu (elemOfCode (dcwEw w)))

/-- The decoder: each unit reads its own control word by its own fixed field table (R106). -/
def decode (u : UnitId) (w : CtlWord) : Decoded :=
  match u with
  | .fadd => decodeAcw w
  | .fma => decodeFcw w
  | .div => decodeDcw w

/-! ## The encoder -/

/-- ACW from its fields, most significant first (R91). -/
def acw (op : BitVec 5) (fmt : Format) (rm : RoundingMode) (mask redmask : LaneMask)
    (widen isFold : Bool) (uop : UopIdx) : CtlWord :=
  0#9 ++ uop ++ BitVec.ofBool isFold ++ BitVec.ofBool widen ++ redmask ++ mask ++
    roundingCode rm ++ formatCode fmt ++ op

/-- FCW from its fields (R92). -/
def fcw (op : BitVec 5) (c : FmaCtl) : CtlWord :=
  0#22 ++ roundingCode c.rm ++ formatCode c.fmt ++ op

/-- DCW from its fields (R93). -/
def dcw (signed : Bool) (ew : ElemWidth) : CtlWord :=
  0#29 ++ BitVec.ofBool signed ++ elemCode ew

/-- ACW of a non-reduction operation: `widen = 0` (R97). -/
def acwOrdinary (op : BitVec 5) (c : AddCtl) : CtlWord :=
  acw op c.fmt c.rm c.mask c.redmask false c.isFold c.uop

/-- ACW of a reduction micro-op: `op = 0x05` (R97). -/
def acwReduction (isFold widen : Bool) (c : RedCtl) : CtlWord :=
  acw 0x05#5 c.fmt c.rm c.mask c.redmask widen isFold c.uop

/-- The control word of an operation on its unit (R91 to R99). -/
def encode : Instr → CtlWord
  | .fadd c => acwOrdinary 0x00#5 c
  | .fsub c => acwOrdinary 0x01#5 c
  | .fmin c => acwOrdinary 0x02#5 c
  | .fmax c => acwOrdinary 0x03#5 c
  | .fclass c => acwOrdinary 0x04#5 c
  | .fredsumFold c => acwReduction true false c
  | .fredsum c => acwReduction false false c
  | .fwredsum c => acwReduction false true c
  | .fmul c => fcw 0x00#5 c
  | .fmadd c => fcw 0x01#5 c
  | .fmsub c => fcw 0x02#5 c
  | .fnmadd c => fcw 0x03#5 c
  | .fnmsub c => fcw 0x04#5 c
  | .vdivu ew => dcw false ew
  | .vdiv ew => dcw true ew

/-! ## A bare word, with no port to say which unit it is for -/

/-- The unit a bare control word is read for. On the hardware the port says it (R90); where only the
word is known the model takes the first of FMA-unit, FADD-unit and DIV-unit that reads it as an
operation (DESIGN CHOICE, log 4, safe: nothing in `step` uses this). A word no unit reads is left to
the FADD-unit. -/
def unitOfWord (w : CtlWord) : UnitId :=
  match decodeFcw w, decodeAcw w, decodeDcw w with
  | .instr _, _, _ => .fma
  | _, .instr _, _ => .fadd
  | _, _, .instr _ => .div
  | _, _, _ => .fadd

/-- The control word whose low `nbits` bits are those of `w`, the bits above them 0. -/
def tableWord (nbits w : Nat) : CtlWord := BitVec.ofNat 32 (w % 2 ^ nbits)

/-- The operation the decoder reads from an opcode-table word. -/
def decodeTableWord (nbits w : Nat) : Option Instr :=
  (decode (unitOfWord (tableWord nbits w)) (tableWord nbits w)).toOption

end Sys2Proof
end

