-- ==== Sys2Proof/Machine/State.lean ====
section
/-! DEFINITION. The state of the block (10_state.md) with the caller's ports, and the reasons a step
stops. A state is the block at the start of a clock cycle. -/

namespace Sys2Proof.Machine

/-- No step of this block faults: it raises no exception and takes no trap (R290, R298), so this type
has no constructor. -/
inductive Fault where
deriving DecidableEq, Repr

/-- Why a step is refused. A refusal marks the run as refused (R16). Each is safe: the hardware does
something the spec gives no meaning to, and the model answers nothing about it. -/
inductive Refusal where
  /-- An instruction without a meaning. No arm of `exec` answers it. -/
  | notModelled (mnemonic : String)
  /-- Raised by `step`: an accepted issue whose control word spells no operation (R90, R101 to
  R104). Safe. -/
  | badControl (unit : UnitId) (why : Reject)
  /-- Raised by `fwredsum` on an ill-formed term: no format is twice as wide as F64 (R104). The
  decoder never gives such a term. Safe. -/
  | noWiderFormat
  /-- Raised by a reduction micro-op with `uop_idx ≠ 0` and no open sequence (R192). Safe. -/
  | noOpenSequence
  /-- Raised by a reduction micro-op with `uop_idx ≠ 0` whose accumulator format differs from the
  open sequence's (R192). Safe. -/
  | sequenceFormat
  /-- Raised by a reduction micro-op with `uop_idx ≠ 0` less than `ADD_LATENCY` cycles after the
  previous micro-op of its sequence (R320). Safe. -/
  | reductionHazard
deriving DecidableEq, Repr

/-! ## Input ports -/

/-- FADD-unit input ports (R33). `acw` packs `op`, `fmt`, `rm`, `mask`, `redmask`, `widen`, `is_fold`
and `uop_idx` (R91). -/
structure FaddIn where
  start : Bool
  acw   : CtlWord
  a     : Pack64
  b     : Pack64
  p     : Pack64
deriving DecidableEq, Repr

/-- FMA-unit input ports (R37). `fcw` packs `op`, `fmt` and `rm` (R92). -/
structure FmaIn where
  start : Bool
  fcw   : CtlWord
  a     : Pack64
  b     : Pack64
  c     : Pack64
deriving DecidableEq, Repr

/-- DIV-unit input ports (R39). `dcw` packs `ew` and `signed` (R93). -/
structure DivIn where
  inValid  : Bool
  dcw      : CtlWord
  dividend : Pack128
  divisor  : Pack128
  flush    : Bool
  outReady : Bool
deriving DecidableEq, Repr

/-- What the caller drives in one clock cycle (R31). -/
structure CycleIn where
  fadd : FaddIn
  fma  : FmaIn
  div  : DivIn
deriving DecidableEq, Repr

/-- The ports of a cycle for which the stimulus has no line: `start = 0`, `in_valid = 0`,
`flush = 0`, `out_ready = 0` (R108). The ports ignored in such a cycle are 0. -/
def CycleIn.idle : CycleIn :=
  { fadd := { start := false, acw := 0#32, a := 0#64, b := 0#64, p := 0#64 }
    fma := { start := false, fcw := 0#32, a := 0#64, b := 0#64, c := 0#64 }
    div := { inValid := false, dcw := 0#32, dividend := 0#128, divisor := 0#128
             flush := false, outReady := false } }

/-! ## Units -/

/-- A record in flight in `fadd.pipe` (R35): issue cycle, format of the lanes it writes, packed lane
results, packed lane flags, write enables. -/
structure FaddRec where
  issue : Nat
  fmt   : Format
  r     : Pack64
  fl    : FlagReg
  we    : LaneMask
deriving DecidableEq, Repr

/-- A record in flight in `fma.pipe`: as `FaddRec`, without write enables (R38). -/
structure FmaRec where
  issue : Nat
  fmt   : Format
  r     : Pack64
  fl    : FlagReg
deriving DecidableEq, Repr

/-- `fadd.red`, the reduction sequence (R35). -/
structure RedState where
  valid : Bool
  T     : Format
  acc   : Pack64
  last  : Option Nat
deriving DecidableEq, Repr

/-- FADD-unit state (R35) and its output `out_valid` in the cycle last run (R34). -/
structure FaddUnit where
  /-- Oldest first. -/
  pipe     : List FaddRec
  result   : Pack64
  fflags   : FlagReg
  outValid : Bool
  red      : RedState
deriving DecidableEq, Repr

/-- FMA-unit state and its output `out_valid` in the cycle last run (R38). -/
structure FmaUnit where
  /-- Oldest first. -/
  pipe     : List FmaRec
  result   : Pack64
  fflags   : FlagReg
  outValid : Bool
deriving DecidableEq, Repr

/-- `div.st` (R41). -/
inductive DivSt where
  | idle
  | busy
  | done
deriving DecidableEq, Repr

/-- `div.req`, the accepted request (R41). -/
structure DivReq where
  ew       : ElemWidth
  signed   : Bool
  dividend : Pack128
  divisor  : Pack128
deriving DecidableEq, Repr

/-- DIV-unit output ports (R40). -/
structure DivOut where
  inReady   : Bool
  outValid  : Bool
  quotient  : Pack128
  remainder : Pack128
  dzmask    : DzMask
deriving DecidableEq, Repr

/-- DIV-unit state (R41) and its outputs in the cycle last run (R40). -/
structure DivUnit where
  st        : DivSt
  cnt       : Nat
  req       : DivReq
  quotient  : Pack128
  remainder : Pack128
  dzmask    : DzMask
  out       : DivOut
deriving DecidableEq, Repr

/-- The block at the start of clock cycle `cycle`. No unit reads another unit's part (R8). -/
structure State where
  /-- The build's parameters (R9). No step changes them. -/
  params : Params
  /-- The number of the cycle about to run: the model's bookkeeping for issue cycles (R301). -/
  cycle  : Nat
  /-- The model's own draw counter (R16), advanced by every step. -/
  draws  : Nat
  /-- What the caller will drive, this cycle first (R31). Past its end the ports are idle (R108). -/
  stim   : List CycleIn
  fadd   : FaddUnit
  fma    : FmaUnit
  div    : DivUnit
deriving DecidableEq, Repr

/-! ## Updates, each of one part -/

/-- `s` with another FADD-unit. -/
def State.withFadd (s : State) (u : FaddUnit) : State := { s with fadd := u }

/-- `s` with another FMA-unit. -/
def State.withFma (s : State) (u : FmaUnit) : State := { s with fma := u }

/-- `s` with another DIV-unit. -/
def State.withDiv (s : State) (u : DivUnit) : State := { s with div := u }

/-- `s` with another stimulus. -/
def State.withStim (s : State) (l : List CycleIn) : State := { s with stim := l }

/-! ## Reset -/

/-- The state after reset (R44, R310): pipelines empty, no sequence open, divider IDLE with count 0,
`out_valid` 0, `in_ready` 1. R44 leaves every other register unspecified, and the model names 0 for
it (log 7, DESIGN CHOICE, unsafe). -/
def State.reset : State :=
  { params := Config.params
    cycle := 0
    draws := 0
    stim := []
    fadd :=
      { pipe := [], result := 0#64, fflags := 0#20, outValid := false
        red := { valid := false, T := .f16, acc := 0#64, last := none } }
    fma := { pipe := [], result := 0#64, fflags := 0#20, outValid := false }
    div :=
      { st := .idle, cnt := 0
        req := { ew := .e8, signed := false, dividend := 0#128, divisor := 0#128 }
        quotient := 0#128, remainder := 0#128, dzmask := 0#16
        out := { inReady := true, outValid := false
                 quotient := 0#128, remainder := 0#128, dzmask := 0#16 } } }

end Sys2Proof.Machine
end

