-- ==== Sys2Proof/Machine/Ops.lean ====
section
/-! DEFINITION. The named operations every meaning is built from: lanes (R13), the ports of the current
cycle, issue and completion of the floating units (R160, R161, R220, R230), the reduction sequence
(R191, R192, R199, R320), and the DIV-unit's handshake (R256, R257). The block takes no exception
(R290, R298), so there is no operation that takes one and none that returns from one (R299). -/

namespace Sys2Proof.Machine

/-! ## Lanes (R13) -/

/-- `lane(C, w, i) = C[w*i + w - 1 : w*i]` (R13). -/
def lane {n : Nat} (C : BitVec n) (w i : Nat) : BitVec w := C.extractLsb' (w * i) w

/-- The bits of lane `i` of width `w` in a container of width `n`. -/
def laneBits (n w i : Nat) : BitVec n := (BitVec.allOnes w).setWidth n <<< (w * i)

/-- `setlane(C, w, i, v)`: replaces exactly lane `i` and no other bit (R13). -/
def setLane {n w : Nat} (C : BitVec n) (i : Nat) (v : BitVec w) : BitVec n :=
  (C &&& ~~~(laneBits n w i)) ||| (v.setWidth n <<< (w * i))

/-- The container of width `n` whose lanes `0 .. k-1` of width `w` are `g 0 .. g (k-1)`, the bits above
them 0. -/
def packLanes (n w k : Nat) (g : Nat → BitVec w) : BitVec n :=
  (List.range k).foldl (fun C i => setLane C i (g i)) 0#n

/-- `C` with lane `i` replaced by lane `i` of `src` for every `i < k` that `we` enables. -/
def writeLanes {n : Nat} (w k : Nat) (we : Nat → Bool) (src C : BitVec n) : BitVec n :=
  (List.range k).foldl (fun C i => if we i then setLane C i (lane src w i) else C) C

/-! ## Ports -/

/-- The input ports of the current cycle (R31, R108). -/
def State.now (s : State) : CycleIn := s.stim.headD CycleIn.idle

/-! ## Issue on the floating units -/

/-- The packed results of the lanes of a format (R13). -/
def packResults (F : Format) (g : Nat → BitVec F.width × LaneFlags) : Pack64 :=
  packLanes 64 F.width F.lanes (fun i => (g i).1)

/-- The packed flags of the lanes of a format: lane `i` at bits `[5i+4:5i]` (R140). -/
def packFlags (F : Format) (g : Nat → BitVec F.width × LaneFlags) : FlagReg :=
  packLanes 20 5 F.lanes (fun i => (g i).2)

/-- Appends a record to `fadd.pipe` and sets `fadd.red` (R160, R194, R195). -/
def State.issueFadd (s : State) (F : Format) (r : Pack64) (fl : FlagReg) (we : LaneMask)
    (red : RedState) : State :=
  s.withFadd { s.fadd with
    pipe := s.fadd.pipe ++ [{ issue := s.cycle, fmt := F, r := r, fl := fl, we := we }]
    red := red }

/-- `fadd.red` after the issue of an operation that is no reduction: closed, the rest kept (R199). -/
def RedState.closed (red : RedState) : RedState := { red with valid := false }

/-- The issue of a non-reduction FADD-unit operation whose lane function is `g`: write enables are the
mask (R160), and an open reduction sequence closes (R168, R199). -/
def State.issueOrdinary (s : State) (c : AddCtl)
    (g : Nat → BitVec c.fmt.width × LaneFlags) : State :=
  s.issueFadd c.fmt (packResults c.fmt g) (packFlags c.fmt g) c.mask s.fadd.red.closed

/-- Appends a record to `fma.pipe` (R220). -/
def State.issueFma (s : State) (F : Format) (g : Nat → BitVec F.width × LaneFlags) : State :=
  s.withFma { s.fma with
    pipe := s.fma.pipe ++
      [{ issue := s.cycle, fmt := F, r := packResults F g, fl := packFlags F g }] }

/-! ## Completion on the floating units -/

/-- The FADD-unit's part of cycle `t` (R161): the record issued `L` cycles before leaves the pipeline
and writes its enabled lanes; the flag fields of the other lanes and the bits above become 0. -/
def FaddUnit.complete (u : FaddUnit) (L t : Nat) : FaddUnit :=
  match u.pipe with
  | [] => { u with outValid := false }
  | rec :: rest =>
    if rec.issue + L = t then
      { u with
        pipe := rest
        result := writeLanes rec.fmt.width rec.fmt.lanes rec.we.getLsbD rec.r u.result
        fflags := writeLanes 5 rec.fmt.lanes rec.we.getLsbD rec.fl 0#20
        outValid := true }
    else { u with outValid := false }

/-- The FMA-unit's part of cycle `t` (R230): as R161 with every lane written. -/
def FmaUnit.complete (u : FmaUnit) (L t : Nat) : FmaUnit :=
  match u.pipe with
  | [] => { u with outValid := false }
  | rec :: rest =>
    if rec.issue + L = t then
      { u with
        pipe := rest
        result := writeLanes rec.fmt.width rec.fmt.lanes (fun _ => true) rec.r u.result
        fflags := writeLanes 5 rec.fmt.lanes (fun _ => true) rec.fl 0#20
        outValid := true }
    else { u with outValid := false }

/-! ## The reduction sequence -/

/-- What a micro-op finds (R191, R192, R320): the sequence it runs in, or why it is refused. -/
inductive Sequence where
  | run (red : RedState)
  | refuse (r : Refusal)
deriving DecidableEq, Repr

/-- `fadd.red` as a micro-op with `uop_idx = 0` opens it (R191). -/
def RedState.opened (T : Format) (rm : RoundingMode) : RedState :=
  { valid := true, T := T, acc := (identity T rm).setWidth 64, last := none }

/-- The hazard of R320: the previous micro-op of the sequence was issued less than `ADD_LATENCY`
cycles ago. -/
def State.reductionTooClose (s : State) : Bool :=
  match s.fadd.red.last with
  | none => false
  | some t' => decide (s.cycle - t' < s.params.addLatency.cycles)

/-- Opens a sequence or continues the open one, in accumulator format `T` (R191, R192, R320). -/
def State.sequence (s : State) (T : Format) (rm : RoundingMode) (u : UopIdx) : Sequence :=
  if u = 0#3 then .run (RedState.opened T rm)
  else if s.fadd.red.valid = false then .refuse .noOpenSequence
  else if s.fadd.red.T ≠ T then .refuse .sequenceFormat
  else if s.reductionTooClose then .refuse .reductionHazard
  else .run s.fadd.red

/-- `fadd.red` after a fold step issued in cycle `t` (R191, R194). -/
def RedState.folded (red : RedState) (t : Nat) : RedState := { red with last := some t }

/-- `fadd.red` after a terminal step issued in cycle `t` with result `res` (R191, R195, R199). -/
def RedState.consumed (red : RedState) (res : Pack64) (t : Nat) : RedState :=
  { red with valid := false, acc := res, last := some t }

/-! ## The DIV-unit's handshake -/

/-- `in_ready` in the current cycle (R257). -/
def State.inReady (s : State) : Bool :=
  (s.div.st == .idle || (s.div.st == .done && s.now.div.outReady)) && !s.now.div.flush

/-- A request is accepted in the current cycle (R256). -/
def State.accepts (s : State) : Bool := s.now.div.inValid && s.inReady

/-- The `out_valid` output of the DIV-unit in the current cycle (R258). -/
def State.divOutValid (s : State) : Bool := s.div.st == .done

/-- Captures the request on the ports (R256); BUSY from the next cycle (R260, R261). -/
def State.captureRequest (s : State) (ew : ElemWidth) (signed : Bool) : State :=
  s.withDiv { s.div with
    st := .busy
    cnt := s.params.divTiming.cycles ew
    req := { ew := ew, signed := signed
             dividend := s.now.div.dividend, divisor := s.now.div.divisor } }

/-- The DIV-unit's outputs in the current cycle (R257, R258): the results are free values while
`out_valid = 0`. -/
def State.divOutputs (s : State) : DivOut :=
  { inReady := s.inReady
    outValid := s.divOutValid
    quotient := if s.divOutValid then s.div.quotient else Config.unreadQuotient s.draws
    remainder := if s.divOutValid then s.div.remainder else Config.unreadRemainder s.draws
    dzmask := if s.divOutValid then s.div.dzmask else Config.unreadDzmask s.draws }

/-- The DIV-unit after a flush (R263): IDLE with count 0; the request and the results are free
values. -/
def State.flushedDiv (s : State) : DivUnit :=
  { s.div with
    st := .idle
    cnt := 0
    req := { ew := Config.flushedEw s.draws, signed := Config.flushedSigned s.draws
             dividend := Config.flushedDividend s.draws
             divisor := Config.flushedDivisor s.draws }
    quotient := Config.flushedQuotient s.draws
    remainder := Config.flushedRemainder s.draws
    dzmask := Config.flushedDzmask s.draws }

end Sys2Proof.Machine
end

