-- ==== Sys2Proof/Machine/Operands.lean ====
section
/-! DEFINITION. The operand forms (30_encoding.md R100): each packed operand is a port value of the
current cycle read as lanes of the operation's format. -/

namespace Sys2Proof.Machine

section Ports

variable (s : State) (F : Format) (i : Nat)

/-- `A[i]` of the FADD-unit (41_fadd.md). -/
def State.faddA : BitVec F.width := lane s.now.fadd.a F.width i

/-- `B[i]` of the FADD-unit (41_fadd.md). -/
def State.faddB : BitVec F.width := lane s.now.fadd.b F.width i

/-- `P[i]`, the fold partner (42_freduce.md). -/
def State.faddP : BitVec F.width := lane s.now.fadd.p F.width i

/-- `A[i]` of the FMA-unit (43_fma.md). -/
def State.fmaA : BitVec F.width := lane s.now.fma.a F.width i

/-- `B[i]` of the FMA-unit (43_fma.md). -/
def State.fmaB : BitVec F.width := lane s.now.fma.b F.width i

/-- `C[i]` of the FMA-unit (43_fma.md). -/
def State.fmaC : BitVec F.width := lane s.now.fma.c F.width i

end Ports

/-- `N[i]`, a dividend lane of a request (44_divider.md). -/
def DivReq.N (q : DivReq) (i : Nat) : BitVec q.ew.bits := lane q.dividend q.ew.bits i

/-- `D[i]`, a divisor lane of a request (44_divider.md). -/
def DivReq.D (q : DivReq) (i : Nat) : BitVec q.ew.bits := lane q.divisor q.ew.bits i

/-- Whether the reduction mask selects no lane; its bits at and above the lane count are ignored (R193,
R200). -/
def selectsNone (c : RedCtl) : Bool :=
  (List.range c.fmt.lanes).all fun i => !c.redmask.getLsbD i

/-- Lane `i` of operand A as a terminal step of the same format sees it (R193, R195): the identity
where the reduction mask is 0. -/
def State.redLane (s : State) (c : RedCtl) (i : Nat) : BitVec c.fmt.width :=
  if c.redmask.getLsbD i then s.faddA c.fmt i else identity c.fmt c.rm

/-- Lane `i` of operand A as a widened terminal step sees it, with the flags of widening it (R196). -/
def State.wideLane (s : State) (c : RedCtl) (T : Format) (i : Nat) :
    BitVec T.width × LaneFlags :=
  if c.redmask.getLsbD i then widen c.fmt T (s.faddA c.fmt i)
  else (identity T c.rm, noFlags)

end Sys2Proof.Machine
end

