-- ==== Sys2Proof/Machine/DivUnit.lean ====
section
/-! DEFINITION. The DIV-unit (44_divider.md): lane arithmetic, DivResult, the meanings of `vdivu` and
`vdiv`, and the unit's state machine. An operation presents its request in the current cycle; its
result is computed when BUSY ends (R259). -/

namespace Sys2Proof.Machine

/-- One lane's quotient, remainder and divide-by-zero bit. -/
structure DivLane (w : Nat) where
  q : BitVec w
  r : BitVec w
  z : Bool
deriving DecidableEq, Repr

/-- Divide by zero: quotient all ones, remainder the dividend, bit set (R253). -/
def divByZero {w : Nat} (n : BitVec w) : DivLane w :=
  { q := BitVec.allOnes w, r := n, z := true }

/-- Unsigned division of one lane (R251). -/
def divLaneU {w : Nat} (n d : BitVec w) : DivLane w :=
  if d.toNat = 0 then divByZero n
  else
    { q := BitVec.ofNat w (n.toNat / d.toNat)
      r := BitVec.ofNat w (n.toNat - d.toNat * (n.toNat / d.toNat))
      z := false }

/-- Signed division of one lane, truncating toward zero (R252, R253, R254). -/
def divLaneS {w : Nat} (n d : BitVec w) : DivLane w :=
  if d.toInt = 0 then divByZero n
  else if n.toInt = -(2 : Int) ^ (w - 1) ∧ d.toInt = -1 then { q := n, r := 0#w, z := false }
  else
    { q := BitVec.ofInt w (n.toInt.tdiv d.toInt)
      r := BitVec.ofInt w (n.toInt - d.toInt * n.toInt.tdiv d.toInt)
      z := false }

/-- Lane `i` of a request's result (R250 to R254). -/
def DivReq.lane (q : DivReq) (i : Nat) : DivLane q.ew.bits :=
  if q.signed then divLaneS (q.N i) (q.D i) else divLaneU (q.N i) (q.D i)

/-- DivResult's quotient (R255). -/
def DivReq.quotient (q : DivReq) : Pack128 :=
  packLanes 128 q.ew.bits q.ew.lanes fun i => (q.lane i).q

/-- DivResult's remainder (R255). -/
def DivReq.remainder (q : DivReq) : Pack128 :=
  packLanes 128 q.ew.bits q.ew.lanes fun i => (q.lane i).r

/-- DivResult's divide-by-zero mask: 0 at and above the lane count (R255). -/
def DivReq.dzmask (q : DivReq) : DzMask :=
  packLanes 16 1 q.ew.lanes fun i => BitVec.ofBool (q.lane i).z

/-- Presents a request: captured if it is accepted in this cycle (R256), else neither accepted nor
remembered (R266). -/
def State.presentRequest (s : State) (ew : ElemWidth) (signed : Bool) : State :=
  if s.inReady then s.captureRequest ew signed else s

/-- `vdivu` (R251). -/
def execVdivu (ew : ElemWidth) (s : State) : Host.Outcome State Fault Refusal :=
  .next (s.presentRequest ew false)

/-- `vdiv` (R252). -/
def execVdiv (ew : ElemWidth) (s : State) : Host.Outcome State Fault Refusal :=
  .next (s.presentRequest ew true)

/-- A cycle of BUSY (R259). -/
def DivUnit.busyCycle (u : DivUnit) : DivUnit :=
  if 1 < u.cnt then { u with cnt := u.cnt - 1 }
  else
    { u with
      st := .done
      cnt := 0
      quotient := u.req.quotient
      remainder := u.req.remainder
      dzmask := u.req.dzmask }

/-- A cycle without flush and without acceptance (R259, R260, R261). Once a result is taken, no rule
says what the request and the result registers hold in IDLE (93_implementation_defined.md I9, I10);
they keep what they held (DESIGN CHOICE, log 29), and nothing reads them. -/
def DivUnit.advance (u : DivUnit) (outReady : Bool) : DivUnit :=
  match u.st with
  | .idle => u
  | .busy => u.busyCycle
  | .done => if outReady then { u with st := .idle } else u

/-- The DIV-unit at the start of the next cycle (R265). `s0` is the state at the start of this cycle
and `captured` the unit after this cycle's request, if any, was captured. -/
def State.nextDiv (s0 : State) (captured : DivUnit) : DivUnit :=
  { (if s0.now.div.flush then s0.flushedDiv
     else if s0.accepts then captured
     else s0.div.advance s0.now.div.outReady) with
    out := s0.divOutputs }

end Sys2Proof.Machine
end

