-- ==== Sys2Proof/Machine/Clock.lean ====
section
/-! DEFINITION. What a clock cycle does besides issuing: the fetch of the units' control words from the
ports, the completions of the floating units, the DIV-unit's state machine, and the move to the next
cycle (R8, R14, R314, R315). -/

namespace Sys2Proof.Machine

/-- Whether a unit takes an operation from its ports in the current cycle: `start = 1` on a floating
unit (R36), a request accepted on the DIV-unit (R256, R39). -/
def State.fetches (s : State) : UnitId → Bool
  | .fadd => s.now.fadd.start
  | .fma => s.now.fma.start
  | .div => s.accepts

/-- The control word on a unit's ports (R90). -/
def State.ctlWord (s : State) : UnitId → CtlWord
  | .fadd => s.now.fadd.acw
  | .fma => s.now.fma.fcw
  | .div => s.now.div.dcw

/-- The end of cycle `s0.cycle`: `s0` is the state at its start and `s` the state after its issues.
The floating units complete what is due, the DIV-unit takes its transition, and the next cycle
begins. -/
def State.endCycle (s0 s : State) : State :=
  { s with
    cycle := s0.cycle + 1
    draws := s0.draws + 1
    stim := s0.stim.tail
    fadd := s.fadd.complete s0.params.addLatency.cycles s0.cycle
    fma := s.fma.complete fmaLatency s0.cycle
    div := s0.nextDiv s.div }

/-- `s` with the word `w` on the control ports of unit `u` in the current cycle and no other unit
active: all that the fetch of one operation needs. For the DIV-unit that includes being ready for a
request (R256, R257): IDLE, with no flush. The other ports keep their values. -/
def State.driveWord (s : State) (u : UnitId) (w : CtlWord) : State :=
  let p := s.now
  { s with
    stim :=
      { fadd := { p.fadd with start := u == .fadd, acw := if u = .fadd then w else p.fadd.acw }
        fma := { p.fma with start := u == .fma, fcw := if u = .fma then w else p.fma.fcw }
        div := { p.div with
                 inValid := u == .div, dcw := if u = .div then w else p.div.dcw
                 flush := false } } :: s.stim.tail
    div := if u = .div then { s.div with st := .idle, cnt := 0 } else s.div }

end Sys2Proof.Machine
end

