-- ==== Sys2Proof/Machine/FaddUnit.lean ====
section
/-! DEFINITION. The meanings of the FADD-unit's non-reduction operations (41_fadd.md): the issue in the
current cycle. The completion is `FaddUnit.complete`. -/

namespace Sys2Proof.Machine

/-- `fadd` (R162). -/
def execFadd (c : AddCtl) (s : State) : Host.Outcome State Fault Refusal :=
  .next (s.issueOrdinary c fun i =>
    fAddCore s.params c.fmt c.rm (s.faddA c.fmt i) (s.faddB c.fmt i))

/-- `fsub` (R163). -/
def execFsub (c : AddCtl) (s : State) : Host.Outcome State Fault Refusal :=
  .next (s.issueOrdinary c fun i =>
    fAddCore s.params c.fmt c.rm (s.faddA c.fmt i) (neg c.fmt (s.faddB c.fmt i)))

/-- `fmin` (R164). -/
def execFmin (c : AddCtl) (s : State) : Host.Outcome State Fault Refusal :=
  .next (s.issueOrdinary c fun i => fMinCore c.fmt (s.faddA c.fmt i) (s.faddB c.fmt i))

/-- `fmax` (R165). -/
def execFmax (c : AddCtl) (s : State) : Host.Outcome State Fault Refusal :=
  .next (s.issueOrdinary c fun i => fMaxCore c.fmt (s.faddA c.fmt i) (s.faddB c.fmt i))

/-- `fclass` (R166): operand B is not read. -/
def execFclass (c : AddCtl) (s : State) : Host.Outcome State Fault Refusal :=
  .next (s.issueOrdinary c fun i => fClassCore c.fmt (s.faddA c.fmt i))

end Sys2Proof.Machine
end

