-- ==== Sys2Proof/Machine/FmaUnit.lean ====
section
/-! DEFINITION. The meanings of the FMA-unit's operations (43_fma.md): the issue in the current cycle.
The completion is `FmaUnit.complete`. -/

namespace Sys2Proof.Machine

/-- `FMACore` on lane `i` of the ports (R221). -/
def State.fmaLane (s : State) (c : FmaCtl) (negP negC useC : Bool) (i : Nat) :
    BitVec c.fmt.width × LaneFlags :=
  fmaCore s.params c.fmt c.rm (s.fmaA c.fmt i) (s.fmaB c.fmt i) (s.fmaC c.fmt i) negP negC useC

/-- `fmul`, `A*B` (R222). -/
def execFmul (c : FmaCtl) (s : State) : Host.Outcome State Fault Refusal :=
  .next (s.issueFma c.fmt (s.fmaLane c false false false))

/-- `fmadd`, `A*B + C` (R223). -/
def execFmadd (c : FmaCtl) (s : State) : Host.Outcome State Fault Refusal :=
  .next (s.issueFma c.fmt (s.fmaLane c false false true))

/-- `fmsub`, `A*B - C` (R224). -/
def execFmsub (c : FmaCtl) (s : State) : Host.Outcome State Fault Refusal :=
  .next (s.issueFma c.fmt (s.fmaLane c false true true))

/-- `fnmadd`, `-(A*B) - C` (R225). -/
def execFnmadd (c : FmaCtl) (s : State) : Host.Outcome State Fault Refusal :=
  .next (s.issueFma c.fmt (s.fmaLane c true true true))

/-- `fnmsub`, `-(A*B) + C` (R226). -/
def execFnmsub (c : FmaCtl) (s : State) : Host.Outcome State Fault Refusal :=
  .next (s.issueFma c.fmt (s.fmaLane c true false true))

end Sys2Proof.Machine
end

