-- ==== Sys2Proof/Machine/Reduce.lean ====
section
/-! DEFINITION. The meanings of the reduction micro-ops (42_freduce.md). -/

namespace Sys2Proof.Machine

/-- Lane `j` of a fold step (R194). The partner lane is not masked. -/
def State.foldLane (s : State) (c : RedCtl) (j : Nat) : BitVec c.fmt.width × LaneFlags :=
  if c.redmask.getLsbD j then
    fAddCore s.params c.fmt c.rm (s.faddA c.fmt j) (s.faddP c.fmt j)
  else (identity c.fmt c.rm, noFlags)

/-- The scalar and the flags a terminal step commits. Where the mask selects no lane (`empty`) it is the
identity of the step's own mode (R200), which the sum below also is unless the sequence was opened
under a mode with another identity (DEDUCED, log 19). Else it is the accumulator plus the tree sum of
`2^k` entries, the flags those of the tree and the accumulation with `g` from the widenings (R195). -/
def terminalSum (P : Params) (T : Format) (rm : RoundingMode) (empty : Bool) (acc : Pack64) (k : Nat)
    (v : Nat → BitVec T.width) (g : LaneFlags) : BitVec T.width × LaneFlags :=
  if empty then (identity T rm, noFlags)
  else
    let t := tree P T rm k v
    let res := fAddCore P T rm (acc.setWidth T.width) t.1
    (res.1, g ||| t.2 ||| res.2)

/-- Issues a terminal step in the sequence `red` (R195, R198): the scalar in the low bits of the whole
result register, its flags in lane 0's field, every write enable 1; the sequence is consumed. -/
def State.issueTerminal (s : State) (red : RedState) (T : Format)
    (sum : BitVec T.width × LaneFlags) : State :=
  s.issueFadd T (sum.1.setWidth 64) (sum.2.setWidth 20) 0xF#4
    (red.consumed (sum.1.setWidth 64) s.cycle)

/-- `fredsum.fold` (R194). -/
def execFredsumFold (c : RedCtl) (s : State) : Host.Outcome State Fault Refusal :=
  match s.sequence c.fmt c.rm c.uop with
  | .refuse r => .refused r
  | .run red =>
    .next (s.issueFadd c.fmt (packResults c.fmt (s.foldLane c)) (packFlags c.fmt (s.foldLane c))
      0xF#4 (red.folded s.cycle))

/-- `fredsum` (R195). -/
def execFredsum (c : RedCtl) (s : State) : Host.Outcome State Fault Refusal :=
  match s.sequence c.fmt c.rm c.uop with
  | .refuse r => .refused r
  | .run red =>
    .next (s.issueTerminal red c.fmt
      (terminalSum s.params c.fmt c.rm (selectsNone c) red.acc c.fmt.lanesLog2 (s.redLane c)
        noFlags))

/-- `fwredsum` (R196): as `fredsum`, with the lanes widened to `T = Wide(S)`. -/
def execFwredsum (c : RedCtl) (s : State) : Host.Outcome State Fault Refusal :=
  match c.fmt.wide with
  | none => .refused .noWiderFormat
  | some T =>
    match s.sequence T c.rm c.uop with
    | .refuse r => .refused r
    | .run red =>
      .next (s.issueTerminal red T
        (terminalSum s.params T c.rm (selectsNone c) red.acc c.fmt.lanesLog2
          (fun i => (s.wideLane c T i).1)
          (orFlags c.fmt.lanes fun i => (s.wideLane c T i).2)))

end Sys2Proof.Machine
end

