-- ==== Sys2Proof/Machine/Dispatch.lean ====
section
/-! DEFINITION. One arm per operation: its issue, in the current cycle, on its unit's ports. -/

namespace Sys2Proof.Machine

def exec (i : Instr) (s : State) : Host.Outcome State Fault Refusal :=
  match i with
  | .fadd c => Sys2Proof.Machine.execFadd c s
  | .fsub c => Sys2Proof.Machine.execFsub c s
  | .fmin c => Sys2Proof.Machine.execFmin c s
  | .fmax c => Sys2Proof.Machine.execFmax c s
  | .fclass c => Sys2Proof.Machine.execFclass c s
  | .fredsumFold c => Sys2Proof.Machine.execFredsumFold c s
  | .fredsum c => Sys2Proof.Machine.execFredsum c s
  | .fwredsum c => Sys2Proof.Machine.execFwredsum c s
  | .fmul c => Sys2Proof.Machine.execFmul c s
  | .fmadd c => Sys2Proof.Machine.execFmadd c s
  | .fmsub c => Sys2Proof.Machine.execFmsub c s
  | .fnmadd c => Sys2Proof.Machine.execFnmadd c s
  | .fnmsub c => Sys2Proof.Machine.execFnmsub c s
  | .vdivu ew => Sys2Proof.Machine.execVdivu ew s
  | .vdiv ew => Sys2Proof.Machine.execVdiv ew s

end Sys2Proof.Machine
end

