-- ==== Sys2Proof/Machine/Issue.lean ====
section
/-! DEFINITION. One clock cycle of all three units (R8): fetch and issue, then the end of the cycle. -/

namespace Sys2Proof.Machine

/-- A unit's issue in the current cycle, if it takes an operation: a control word that spells none is
refused (R160, R220). -/
def issue (u : UnitId) (s : State) : Host.Outcome State Fault Refusal :=
  if s.fetches u then
    match decode u (s.ctlWord u) with
    | .reject r => .refused (.badControl u r)
    | .instr i => exec i s
  else .next s

/-- The outcome of `k` on the state that `o` gives. -/
def onNext (o : Host.Outcome State Fault Refusal)
    (k : State → Host.Outcome State Fault Refusal) : Host.Outcome State Fault Refusal :=
  match o with
  | .next s => k s
  | .fault r => .fault r
  | .refused r => .refused r

/-- The issues of a cycle. The units' meanings touch disjoint parts of the state and read none of each
other's (R8, R79), so their order is of no account. -/
def issueAll (s : State) : Host.Outcome State Fault Refusal :=
  onNext (issue .fadd s) fun s1 => onNext (issue .fma s1) fun s2 => issue .div s2

/-- One clock cycle. A refused issue refuses the run (R16). -/
def oneCycle (s : State) : Host.Outcome State Fault Refusal :=
  onNext (issueAll s) fun s' => .next (s.endCycle s')

end Sys2Proof.Machine
end

