-- ==== Sys2Proof/Machine/Step.lean ====
section
/-! DEFINITION. One step is one clock cycle of all three units (R8). -/

namespace Sys2Proof.Machine

/-- One step: the clock cycle that begins in `s`. -/
def step (s : State) : Host.Outcome State Fault Refusal := oneCycle s

/-- `s` with an opcode-table word on the ports of the unit it is read for (`unitOfWord`), so that the
next step issues exactly that operation. -/
def State.withFetchWord (s : State) (nbits w : Nat) : State :=
  s.driveWord (unitOfWord (tableWord nbits w)) (tableWord nbits w)

end Sys2Proof.Machine
end

