-- ==== Sys2Proof/Machine/Caller.lean ====
section
/-! DEFINITION. The caller's side (R7): the operation syntax of R107 as functions to `Instr`, and the
stimulus notation of R108 as lines that drive the ports cycle by cycle. The machine itself (`step`)
uses nothing of this file: it reads the ports that State's stimulus gives. -/

namespace Sys2Proof.Machine

/-! ## Operation syntax (R107): absent `rm` is RNE, absent `vm` is `0xF`, ignored fields are 0 -/

/-- The control fields of `<mn>.<fmt>[.<rm>] A, B [, vm=<hex>]` (R107). -/
def asmAdd (fmt : Format) (rm : RoundingMode := .rne) (vm : LaneMask := 0xF#4) : AddCtl :=
  { fmt := fmt, rm := rm, mask := vm, redmask := 0#4, isFold := false, uop := 0#3 }

/-- The control fields of `fclass.<fmt> A [, vm=<hex>]`: `rm` is encoded RNE (R107). -/
def asmClass (fmt : Format) (vm : LaneMask := 0xF#4) : AddCtl := asmAdd fmt .rne vm

/-- The control fields of `<reduction>.<fmt>[.<rm>] ..., rdm=<hex>, u=<n>` (R107). -/
def asmRed (fmt : Format) (rdm : LaneMask) (u : UopIdx) (rm : RoundingMode := .rne) : RedCtl :=
  { fmt := fmt, rm := rm, mask := 0#4, redmask := rdm, uop := u }

/-- The control fields of `<mn>.<fmt>[.<rm>] A, B, C` (R107). -/
def asmFma (fmt : Format) (rm : RoundingMode := .rne) : FmaCtl := { fmt := fmt, rm := rm }

/-! ## Stimulus lines (R108) -/

/-- The action of a stimulus line (R108): an operation with its packed operands on its unit (`a`, `b`,
`p` of the FADD-unit; `a`, `b`, `c` of the FMA-unit; dividend and divisor of the DIV-unit), or one of
the DIV-unit's two other actions. -/
inductive Action where
  | fadd (w : CtlWord) (a b p : Pack64)
  | fma (w : CtlWord) (a b c : Pack64)
  | div (w : CtlWord) (dividend divisor : Pack128)
  | flush
  | outReady
deriving DecidableEq, Repr

/-- `@<cycle> <unit>: <action>` (R108). -/
structure Line where
  cycle  : Nat
  action : Action
deriving DecidableEq, Repr

/-- Drives an action's inputs (R108). -/
def CycleIn.drive (c : CycleIn) : Action → CycleIn
  | .fadd w a b p => { c with fadd := { start := true, acw := w, a := a, b := b, p := p } }
  | .fma w a b k => { c with fma := { start := true, fcw := w, a := a, b := b, c := k } }
  | .div w n d =>
    { c with div := { c.div with inValid := true, dcw := w, dividend := n, divisor := d } }
  | .flush => { c with div := { c.div with flush := true } }
  | .outReady => { c with div := { c.div with outReady := true } }

/-- The ports in cycle `t`, with the request `held` from an earlier line that is not accepted yet
(R108: "repeated each cycle until accepted"). R108 does not say what two requests for one cycle drive.
A later line of the cycle replaces an earlier one, and a new DIV-unit operation replaces the held
request, which is then dropped for good (DESIGN CHOICE, log 25). -/
def linesAt (lines : List Line) (held : Option Action) (t : Nat) : CycleIn :=
  (lines.filter fun l => l.cycle == t).foldl (fun c l => c.drive l.action)
    (match held with
     | none => CycleIn.idle
     | some a => CycleIn.idle.drive a)

/-- The request still to be repeated after a cycle that ran from `s` (R108, R266). -/
def heldAfter (s : State) : Option Action :=
  if s.now.div.inValid && !s.accepts then
    some (.div s.now.div.dcw s.now.div.dividend s.now.div.divisor)
  else none

/-- `k` cycles of the block under the lines of a stimulus (R108). -/
def runLines (lines : List Line) : Nat → Option Action → State →
    Host.Outcome State Fault Refusal
  | 0, _, s => .next s
  | k + 1, held, s =>
    let s0 := s.withStim [linesAt lines held s.cycle]
    onNext (step s0) fun s' => runLines lines k (heldAfter s0) s'

/-! ## The end of a run (R323) -/

/-- Both pipelines are empty and the divider is not BUSY. -/
def State.settled (s : State) : Bool :=
  s.fadd.pipe.isEmpty && s.fma.pipe.isEmpty && s.div.st != .busy

/-- R323's condition for the stimulus that State holds, whose last entry stands for the cycle
`t_last`. A list that is empty from the start has no `t_last`: it counts as over (DESIGN CHOICE, log
30). -/
def State.ended (s : State) : Bool := s.stim.isEmpty && s.settled

/-- `t_last`, the cycle of a stimulus's last line; none where it has no line. -/
def lastLine (lines : List Line) : Option Nat := (lines.map Line.cycle).max?

/-- `t_last < t`. R323 speaks only of a stimulus that has a last line: one without any line counts as
past it in every cycle, so that it ends at its first settled cycle (DESIGN CHOICE, log 30). -/
def pastLast (lines : List Line) (t : Nat) : Bool :=
  match lastLine lines with
  | none => true
  | some l => decide (l < t)

/-- R323's condition for the lines of a stimulus, at the start of a cycle. -/
def State.endedAfter (s : State) (lines : List Line) : Bool := pastLast lines s.cycle && s.settled

/-- Runs the lines of a stimulus up to the first cycle that ends the run, of the next `k`. -/
def runToEnd (lines : List Line) : Nat → Option Action → State →
    Host.Outcome State Fault Refusal
  | 0, _, s => .next s
  | k + 1, held, s =>
    if s.endedAfter lines then .next s
    else
      let s0 := s.withStim [linesAt lines held s.cycle]
      onNext (step s0) fun s' => runToEnd lines k (heldAfter s0) s'

/-- Enough cycles for a run to end: up to `t_last`, then R323's bound and one more for a request that a
flush in `t_last` held back (log 27). -/
def cyclesToEnd (lines : List Line) (s : State) : Nat :=
  (match lastLine lines with
   | none => 0
   | some l => l + 1 - s.cycle) +
    max (max s.params.addLatency.cycles fmaLatency) (s.params.divTiming.cycles .e64 + 1)

/-- The run of a stimulus from `s`, to the start of `t_end` (R323). -/
def runStimulus (lines : List Line) (s : State) : Host.Outcome State Fault Refusal :=
  runToEnd lines (cyclesToEnd lines s) none s

/-- What the end state consists of (R323). -/
structure EndState where
  faddResult : Pack64
  faddFlags  : FlagReg
  fmaResult  : Pack64
  fmaFlags   : FlagReg
  red        : RedState
  divSt      : DivSt
  /-- The quotient, remainder and divide-by-zero mask, if the divider is DONE. -/
  divResult  : Option (Pack128 × Pack128 × DzMask)
deriving DecidableEq, Repr

/-- The part of a state that R323 calls the end state. -/
def State.endState (s : State) : EndState :=
  { faddResult := s.fadd.result
    faddFlags := s.fadd.fflags
    fmaResult := s.fma.result
    fmaFlags := s.fma.fflags
    red := s.fadd.red
    divSt := s.div.st
    divResult :=
      if s.div.st = .done then some (s.div.quotient, s.div.remainder, s.div.dzmask) else none }

end Sys2Proof.Machine
end

