-- ==== Sys2Proof/Safety.lean ====
section
/-! DEFINITION. The terms claims use: the invariant of the states a run reaches, which flag sets are
legal, and runs. -/

namespace Sys2Proof.Machine

/-! ## Runs -/

/-- `k` cycles from `s`. -/
def runCycles (k : Nat) (s : State) : Host.Outcome State Fault Refusal := Sys2Proof.core.run k s

/-- The ports the caller drives `j` cycles from now (R31, R108). -/
def State.portsAfter (s : State) (j : Nat) : CycleIn := s.stim.getD j CycleIn.idle

/-! ## The invariant -/

/-- The records of a pipeline of latency `L` at the start of cycle `t`, by their issue cycles: in
issue order, one a cycle, none overdue (R77, R316). -/
def InFlight (L t : Nat) (issues : List Nat) : Prop :=
  issues.Pairwise (· < ·) ∧ ∀ k ∈ issues, k < t ∧ t ≤ k + L

/-- An open reduction sequence holds an identity of its format and an issue cycle in the past (R191,
R194). -/
def RedState.Sound (red : RedState) (t : Nat) : Prop :=
  red.valid = true →
    (red.acc = (zero red.T true).setWidth 64 ∨ red.acc = (zero red.T false).setWidth 64) ∧
    (∃ t', red.last = some t' ∧ t' < t)

/-- The divider's count is positive exactly in BUSY and within the request's BUSY length; in DONE the
result registers hold the DivResult of the request (R259, R264). -/
def DivUnit.Sound (u : DivUnit) (d : DivTiming) : Prop :=
  (u.st = .busy → 1 ≤ u.cnt ∧ u.cnt ≤ d.cycles u.req.ew) ∧
  (u.st ≠ .busy → u.cnt = 0) ∧
  (u.st = .done →
    u.quotient = u.req.quotient ∧ u.remainder = u.req.remainder ∧ u.dzmask = u.req.dzmask)

/-- What holds of every state a run reaches. -/
structure State.Inv (s : State) : Prop where
  faddInFlight : InFlight s.params.addLatency.cycles s.cycle (s.fadd.pipe.map FaddRec.issue)
  fmaInFlight  : InFlight fmaLatency s.cycle (s.fma.pipe.map FmaRec.issue)
  redSound     : s.fadd.red.Sound s.cycle
  divSound     : s.div.Sound s.params.divTiming

/-! ## Flag sets -/

/-- A flag set the FADD-unit may report: never DZ (R292), never UF (R135), OF only with NX (R294). -/
def FaddLegal (x : LaneFlags) : Prop :=
  raises x DZ = false ∧ raises x UF = false ∧ (raises x OF = true → raises x NX = true)

/-- A flag set the FMA-unit may report: never DZ (R292), OF or UF only with NX and never together, NV
alone (R294). -/
def FmaLegal (x : LaneFlags) : Prop :=
  raises x DZ = false ∧
  (raises x OF = true → raises x NX = true) ∧
  (raises x UF = true → raises x NX = true) ∧
  ¬(raises x OF = true ∧ raises x UF = true) ∧
  (raises x NV = true → x = NV)

/-- Every lane field of the FADD-unit's flag register and of its records in flight is legal. -/
def FaddUnit.FlagsLegal (u : FaddUnit) : Prop :=
  (∀ i, i < 4 → FaddLegal (lane u.fflags 5 i)) ∧
  (∀ rec ∈ u.pipe, ∀ i, i < 4 → FaddLegal (lane rec.fl 5 i))

/-- Every lane field of the FMA-unit's flag register and of its records in flight is legal. -/
def FmaUnit.FlagsLegal (u : FmaUnit) : Prop :=
  (∀ i, i < 4 → FmaLegal (lane u.fflags 5 i)) ∧
  (∀ rec ∈ u.pipe, ∀ i, i < 4 → FmaLegal (lane rec.fl 5 i))

end Sys2Proof.Machine
end

