-- ==== Sys2Proof/Certificates/Slice0/Obligations.lean ====
section
/-! DEFINITION. The statements for the provers. Rules R<n> are those of spec/; a clause that rests on a
choice of the model names its log entry. -/

namespace Sys2Proof.Claims

open Sys2Proof Sys2Proof.Machine

/-- `o` is the issue of a non-reduction FADD-unit operation with control fields `c` and lane function
`g` (R160, R168): one record more in `fadd.pipe`, the sequence closed, and nothing else changed. -/
def IssuesOrdinary (s : State) (c : AddCtl) (g : Nat → BitVec c.fmt.width × LaneFlags)
    (o : Host.Outcome State Fault Refusal) : Prop :=
  ∃ rec : FaddRec,
    o = .next (s.withFadd { s.fadd with
      pipe := s.fadd.pipe ++ [rec], red := { s.fadd.red with valid := false } }) ∧
    rec.issue = s.cycle ∧ rec.fmt = c.fmt ∧ rec.we = c.mask ∧
    (∀ i, i < c.fmt.lanes →
      lane rec.r c.fmt.width i = (g i).1 ∧ lane rec.fl 5 i = (g i).2) ∧
    (∀ i, c.fmt.lanes ≤ i → lane rec.fl 5 i = 0#5)

/-- `o` is the issue of an FMA-unit operation with lane function `g` (R220). -/
def IssuesFma (s : State) (c : FmaCtl) (g : Nat → BitVec c.fmt.width × LaneFlags)
    (o : Host.Outcome State Fault Refusal) : Prop :=
  ∃ rec : FmaRec,
    o = .next (s.withFma { s.fma with pipe := s.fma.pipe ++ [rec] }) ∧
    rec.issue = s.cycle ∧ rec.fmt = c.fmt ∧
    (∀ i, i < c.fmt.lanes →
      lane rec.r c.fmt.width i = (g i).1 ∧ lane rec.fl 5 i = (g i).2) ∧
    (∀ i, c.fmt.lanes ≤ i → lane rec.fl 5 i = 0#5)

/-- `FMACore` on lane `i` of the FMA-unit's ports (R221). -/
def fused (s : State) (c : FmaCtl) (negP negC useC : Bool) (i : Nat) :
    BitVec c.fmt.width × LaneFlags :=
  fmaCore s.params c.fmt c.rm (lane s.now.fma.a c.fmt.width i) (lane s.now.fma.b c.fmt.width i)
    (lane s.now.fma.c c.fmt.width i) negP negC useC

/-- The micro-op with accumulator format `T` and index `u` may run in `s` (R191, R192, R320). -/
def MayRun (s : State) (T : Format) (u : UopIdx) : Prop :=
  u = 0#3 ∨
  (s.fadd.red.valid = true ∧ s.fadd.red.T = T ∧
    ∀ t', s.fadd.red.last = some t' → s.params.addLatency.cycles ≤ s.cycle - t')

/-- The accumulator such a micro-op finds (R191, R192). -/
def accFound (s : State) (T : Format) (rm : RoundingMode) (u : UopIdx) : Pack64 :=
  if u = 0#3 then (identity T rm).setWidth 64 else s.fadd.red.acc

/-- `⊕` with its flags collected: `FAddCore` on two patterns that come with flags (R195). -/
def plus (P : Params) (T : Format) (rm : RoundingMode) (x y : BitVec T.width × LaneFlags) :
    BitVec T.width × LaneFlags :=
  ((fAddCore P T rm x.1 y.1).1, x.2 ||| y.2 ||| (fAddCore P T rm x.1 y.1).2)

/-- The tree sum of `2^k` entries with their flags, for `k` up to 2 (R197): `v0`, `v0 + v1`,
`(v0 + v2) + (v1 + v3)`. -/
def treeSum (P : Params) (T : Format) (rm : RoundingMode) (k : Nat)
    (v : Nat → BitVec T.width × LaneFlags) : BitVec T.width × LaneFlags :=
  if k = 0 then v 0
  else if k = 1 then plus P T rm (v 0) (v 1)
  else plus P T rm (plus P T rm (v 0) (v 2)) (plus P T rm (v 1) (v 3))

/-- `o` is the issue of a terminal step in format `T` that commits the scalar and flags `sum` (R195,
R196, R198, R199): the scalar in the low bits and 0 above, its flags in lane 0's field and 0 in the
others, every write enable 1; the sequence is consumed. -/
def IssuesTerminal (s : State) (T : Format) (sum : BitVec T.width × LaneFlags)
    (o : Host.Outcome State Fault Refusal) : Prop :=
  o = .next (s.withFadd { s.fadd with
    pipe := s.fadd.pipe ++
      [{ issue := s.cycle, fmt := T, r := sum.1.setWidth 64, fl := sum.2.setWidth 20, we := 0xF#4 }]
    red := { valid := false, T := T, acc := sum.1.setWidth 64, last := some s.cycle } })

/-- The reduction mask of `c` selects no lane (R193, R200). -/
def SelectsNoLane (c : RedCtl) : Prop := ∀ i, i < c.fmt.lanes → c.redmask.getLsbD i = false

/-- The micro-op `mk` whose accumulator format is `T` when its control fields are `c` (R190). -/
def MicroOp (mk : RedCtl → Instr) (c : RedCtl) (T : Format) : Prop :=
  (mk = Instr.fredsumFold ∧ T = c.fmt) ∨ (mk = Instr.fredsum ∧ T = c.fmt) ∨
  (mk = Instr.fwredsum ∧ c.fmt.wide = some T)

/-- Which FADD-unit operations are not continuing micro-ops: the ordinary ones, and the micro-ops with
`uop_idx = 0`. -/
def startsAfresh : Instr → Bool
  | .fredsumFold c => c.uop = 0#3
  | .fredsum c => c.uop = 0#3
  | .fwredsum c => c.uop = 0#3
  | i => i.unit = .fadd

/-- `s` with operand B of the FADD-unit replaced in the current cycle. -/
def withFaddB (s : State) (b : Pack64) : State :=
  s.withStim ({ s.now with fadd := { s.now.fadd with b := b } } :: s.stim.tail)

/-- The container with every lane of format F negated (R124). -/
def negLanes (F : Format) (b : Pack64) : Pack64 :=
  packLanes 64 F.width F.lanes fun i => neg F (lane b F.width i)

/-- `t` holds the request presented on the ports of `s`, just captured, with its result registers as
they were (R256). -/
def Captured (s t : State) : Prop :=
  t.div.st = .busy ∧
  t.div.cnt = s.params.divTiming.cycles (elemOfCode (dcwEw s.now.div.dcw)) ∧
  t.div.req = { ew := elemOfCode (dcwEw s.now.div.dcw), signed := dcwSigned s.now.div.dcw
                dividend := s.now.div.dividend, divisor := s.now.div.divisor } ∧
  t.div.quotient = s.div.quotient ∧ t.div.remainder = s.div.remainder ∧
  t.div.dzmask = s.div.dzmask

/-- The exact value of a finite pattern, as a rational (R123). -/
def valueRat (F : Format) (x : BitVec F.width) : Rat := (value F x).toRat

/-- The magnitude of `x`, rounded under `rm` to the precision of F with an unbounded exponent range,
reaches `2^k` (R127 to R129). The greatest magnitude of that precision below `2^k` is
`(2 - 2^-M) * 2^(k-1)`, and the midpoint between the two is `(2 - 2^-(M+1)) * 2^(k-1)`: a tie there goes
up under RNE, because the fraction below it is odd, and under RMM. -/
def reachesPow (F : Format) (rm : RoundingMode) (k : Int) (x : Rat) : Prop :=
  let midpoint : Rat := (2 - 2 ^ (-(F.fracBits + 1 : Int))) * 2 ^ (k - 1)
  let below : Rat := (2 - 2 ^ (-(F.fracBits : Int))) * 2 ^ (k - 1)
  match rm with
  | .rne => midpoint ≤ |x|
  | .rmm => midpoint ≤ |x|
  | .rtz => 2 ^ k ≤ |x|
  | .rdn => if x < 0 then below < |x| else 2 ^ k ≤ |x|
  | .rup => if x < 0 then 2 ^ k ≤ |x| else below < |x|

/-- The sign of the exact product in the fused core, negated under `negP` (R221). -/
def productSign (F : Format) (a b : BitVec F.width) (negP : Bool) : Bool :=
  (sign F a ^^ sign F b) ^^ negP

/-- A zero times an infinity, in either order (R221). -/
def ZeroTimesInf (F : Format) (a b : BitVec F.width) : Prop :=
  (isZero F a = true ∧ isInf F b = true) ∨ (isInf F a = true ∧ isZero F b = true)

/-- The product of the fused core is an infinity: an infinite operand, and neither a NaN nor a zero
(R221). -/
def InfiniteProduct (F : Format) (a b : BitVec F.width) : Prop :=
  (isInf F a = true ∨ isInf F b = true) ∧ isNaN F a = false ∧ isNaN F b = false ∧
    ¬ZeroTimesInf F a b

end Sys2Proof.Claims

open Sys2Proof Sys2Proof.Machine Sys2Proof.Claims

/-! ## Encoding -/

/-- Every control word that 95_test_vectors.md section 2.7 gives an operation decodes to that
operation. -/
def Obligations.ControlWordExamples : Prop :=
  decode .fadd 0x00003C20#32 = .instr (.fadd (asmAdd .f16)) ∧
  decode .fadd 0x00003D41#32 = .instr (.fsub (asmAdd .f32 .rdn)) ∧
  decode .fadd 0x00003C62#32 = .instr (.fmin (asmAdd .f64)) ∧
  decode .fadd 0x00000C23#32 = .instr (.fmax (asmAdd .f16 .rne 0x3#4)) ∧
  decode .fadd 0x00003C64#32 = .instr (.fclass (asmClass .f64)) ∧
  decode .fadd 0x00000660#32 = .instr (.fadd (asmAdd .f64 .rmm 0x1#4)) ∧
  decode .fadd 0x0018C1C5#32 = .instr (.fredsumFold (asmRed .f32 0x3#4 1#3 .rup)) ∧
  decode .fadd 0x000040E5#32 = .instr (.fredsum (asmRed .f64 0x1#4 0#3 .rtz)) ∧
  decode .fadd 0x0024C045#32 = .instr (.fwredsum (asmRed .f32 0x3#4 2#3)) ∧
  decode .fadd 0x0007C125#32 = .instr (.fwredsum (asmRed .f16 0xF#4 0#3 .rdn)) ∧
  decode .fma 0x00000020#32 = .instr (.fmul (asmFma .f16)) ∧
  decode .fma 0x000000C1#32 = .instr (.fmadd (asmFma .f32 .rtz)) ∧
  decode .fma 0x00000162#32 = .instr (.fmsub (asmFma .f64 .rdn)) ∧
  decode .fma 0x000001C3#32 = .instr (.fnmadd (asmFma .f32 .rup)) ∧
  decode .fma 0x00000224#32 = .instr (.fnmsub (asmFma .f16 .rmm)) ∧
  decode .div 0x00000000#32 = .instr (.vdivu .e8) ∧
  decode .div 0x00000001#32 = .instr (.vdivu .e16) ∧
  decode .div 0x00000002#32 = .instr (.vdivu .e32) ∧
  decode .div 0x00000003#32 = .instr (.vdivu .e64) ∧
  decode .div 0x00000004#32 = .instr (.vdiv .e8) ∧
  decode .div 0x00000005#32 = .instr (.vdiv .e16) ∧
  decode .div 0x00000006#32 = .instr (.vdiv .e32) ∧
  decode .div 0x00000007#32 = .instr (.vdiv .e64)

/-- Decoding the encoding of a well-formed operation gives it back, every field at every value. -/
def Obligations.DecodeEncodeRoundTrip : Prop :=
  ∀ i : Instr, i.wf = true → decode i.unit (encode i) = .instr i

/-- A control word that decodes is the encoding of what it decodes to, which is a well-formed operation
of that unit: every word has at most one meaning and no bit is dropped. -/
def Obligations.DecodedWordIsItsEncoding : Prop :=
  ∀ (u : UnitId) (w : CtlWord) (i : Instr), decode u w = .instr i →
    i.unit = u ∧ i.wf = true ∧ encode i = w

/-- A floating issue is refused: with `fmt = 0b00` (R101), with an `op` outside its unit's opcode map
(R102), with a reserved `rm` whatever the operation (R103), and on the FADD-unit with `widen = 1` and
`op` 0 to 4, a fold step or F64 (R104). -/
def Obligations.RefusedWordsAreRefused : Prop :=
  ∀ s : State,
    (s.now.fadd.start = true →
      (wordFmt s.now.fadd.acw = 0#2 ∨ 6 ≤ (wordOp s.now.fadd.acw).toNat ∨
        5 ≤ (wordRm s.now.fadd.acw).toNat ∨
        (acwWiden s.now.fadd.acw = true ∧
          ((wordOp s.now.fadd.acw).toNat ≤ 4 ∨
            (wordOp s.now.fadd.acw = 0x05#5 ∧ acwIsFold s.now.fadd.acw = true) ∨
            (wordOp s.now.fadd.acw = 0x05#5 ∧ wordFmt s.now.fadd.acw = 0b11#2)))) →
      ∃ r, step s = .refused r) ∧
    (s.now.fma.start = true →
      (wordFmt s.now.fma.fcw = 0#2 ∨ 5 ≤ (wordOp s.now.fma.fcw).toNat ∨
        5 ≤ (wordRm s.now.fma.fcw).toNat) →
      ∃ r, step s = .refused r)

/-! ## One step -/

/-- Where one unit takes an operation in this cycle and the other two take none, the step is `exec` of
the decoded operation, then the end of the cycle. -/
def Obligations.StepRunsTheDecodedOperation : Prop :=
  ∀ (s : State) (u : UnitId) (i : Instr),
    s.fetches u = true → (∀ v, v ≠ u → s.fetches v = false) →
    decode u (s.ctlWord u) = .instr i → i.wf = true →
    step s = onNext (exec i s) (fun t => .next (s.endCycle t))

/-- What every step does beside the units: the next cycle, the next draw, the stimulus one cycle on,
the parameters kept. -/
def Obligations.StepAdvancesTheClock : Prop :=
  ∀ s t : State, step s = .next t →
    t.cycle = s.cycle + 1 ∧ t.draws = s.draws + 1 ∧ t.stim = s.stim.tail ∧ t.params = s.params

/-- R8, R79: a unit's next state depends on its own state and its own ports alone (and on the
parameters, the cycle number and, for the DIV-unit, the draws). That two runs with equal draw counters
draw equal values is the model's choice: R16 gives draws no law (log 8). -/
def Obligations.UnitsShareNoState : Prop :=
  ∀ s s' t t' : State, step s = .next t → step s' = .next t' →
    s.params = s'.params → s.cycle = s'.cycle →
    (s.fadd = s'.fadd → s.now.fadd = s'.now.fadd → t.fadd = t'.fadd) ∧
    (s.fma = s'.fma → s.now.fma = s'.now.fma → t.fma = t'.fma) ∧
    (s.div = s'.div → s.now.div = s'.now.div → s.draws = s'.draws → t.div = t'.div)

/-- R36: in a cycle with `start = 0` no record enters the unit's pipeline, `fadd.red` is unchanged and
no other port of the unit is read. -/
def Obligations.NoStartIssuesNothing : Prop :=
  ∀ s t : State, step s = .next t →
    (s.now.fadd.start = false →
      t.fadd = s.fadd.complete s.params.addLatency.cycles s.cycle ∧
      t.fadd.red = s.fadd.red ∧ (∀ rec ∈ t.fadd.pipe, rec ∈ s.fadd.pipe)) ∧
    (s.now.fma.start = false →
      t.fma = s.fma.complete 4 s.cycle ∧ (∀ rec ∈ t.fma.pipe, rec ∈ s.fma.pipe))

/-! ## Reset and invariants -/

/-- R44, R310: the values reset gives. -/
def Obligations.ResetLeavesNothingInFlight : Prop :=
  State.reset.fadd.pipe = [] ∧ State.reset.fma.pipe = [] ∧
  State.reset.fadd.outValid = false ∧ State.reset.fma.outValid = false ∧
  State.reset.fadd.red.valid = false ∧ State.reset.div.st = .idle ∧ State.reset.div.cnt = 0 ∧
  State.reset.divOutValid = false ∧
  (∀ l : List CycleIn, (State.reset.withStim l).inReady = !(State.reset.withStim l).now.div.flush)

/-- The invariant holds at reset, and the flag sets of the reset state are legal (the flag registers'
reset value is the model's own, log 7). -/
def Obligations.ResetMeetsInvariant : Prop :=
  State.reset.Inv ∧ State.reset.fadd.FlagsLegal ∧ State.reset.fma.FlagsLegal

/-- Every step keeps the invariant: records in flight in issue order and none overdue (R77, R316), an
open sequence's accumulator an identity (R194), the divider's count within the request's BUSY length
and a DONE result the DivResult of its own request (R259, R264). -/
def Obligations.StepKeepsInvariant : Prop :=
  ∀ s t : State, s.Inv → step s = .next t → t.Inv

/-- Every step keeps the flag sets legal, in the flag registers and in flight: DZ is never set (R292),
the FADD-unit never sets UF (R135), OF and UF come only with NX and, in the FMA-unit, never together
and NV comes alone (R294). -/
def Obligations.StepKeepsFlagsLegal : Prop :=
  ∀ s t : State, s.fadd.FlagsLegal → s.fma.FlagsLegal → step s = .next t →
    t.fadd.FlagsLegal ∧ t.fma.FlagsLegal

/-- R316: at most `ADD_LATENCY` records are in flight in the FADD-unit and at most 4 in the FMA-unit. -/
def Obligations.PipelinesAreBounded : Prop :=
  ∀ s : State, s.Inv →
    s.fadd.pipe.length ≤ s.params.addLatency.cycles ∧ s.fma.pipe.length ≤ 4

/-! ## Issues -/

/-- R162 to R166: the FADD-unit's ordinary operations always issue, each with its own lane function of
the ports. An open reduction sequence closes (R168, R199). That the other fields of `fadd.red` keep what
they held is the rule for `acc` (R168) and the model's choice for the format and the last issue
(log 24). -/
def Obligations.FaddFamilyIssues : Prop :=
  ∀ (s : State) (c : AddCtl),
    IssuesOrdinary s c
      (fun i => fAddCore s.params c.fmt c.rm (lane s.now.fadd.a c.fmt.width i)
        (lane s.now.fadd.b c.fmt.width i)) (exec (.fadd c) s) ∧
    IssuesOrdinary s c
      (fun i => fAddCore s.params c.fmt c.rm (lane s.now.fadd.a c.fmt.width i)
        (neg c.fmt (lane s.now.fadd.b c.fmt.width i))) (exec (.fsub c) s) ∧
    IssuesOrdinary s c
      (fun i => fMinCore c.fmt (lane s.now.fadd.a c.fmt.width i) (lane s.now.fadd.b c.fmt.width i))
      (exec (.fmin c) s) ∧
    IssuesOrdinary s c
      (fun i => fMaxCore c.fmt (lane s.now.fadd.a c.fmt.width i) (lane s.now.fadd.b c.fmt.width i))
      (exec (.fmax c) s) ∧
    IssuesOrdinary s c
      (fun i => ((class10 c.fmt (lane s.now.fadd.a c.fmt.width i)).setWidth c.fmt.width, noFlags))
      (exec (.fclass c) s)

/-- R222 to R226: the FMA-unit's operations always issue, each with its own signs. -/
def Obligations.FmaFamilyIssues : Prop :=
  ∀ (s : State) (c : FmaCtl),
    IssuesFma s c (fused s c false false false) (exec (.fmul c) s) ∧
    IssuesFma s c (fused s c false false true) (exec (.fmadd c) s) ∧
    IssuesFma s c (fused s c false true true) (exec (.fmsub c) s) ∧
    IssuesFma s c (fused s c true true true) (exec (.fnmadd c) s) ∧
    IssuesFma s c (fused s c true false true) (exec (.fnmsub c) s)

/-- R194: a fold step that may run issues its lanes and keeps the accumulator, in the sequence it
opens or continues. -/
def Obligations.FoldStepRuns : Prop :=
  ∀ (s : State) (c : RedCtl), MayRun s c.fmt c.uop →
    ∃ rec : FaddRec,
      exec (.fredsumFold c) s = .next (s.withFadd { s.fadd with
        pipe := s.fadd.pipe ++ [rec]
        red := { valid := true, T := c.fmt, acc := accFound s c.fmt c.rm c.uop
                 last := some s.cycle } }) ∧
      rec.issue = s.cycle ∧ rec.fmt = c.fmt ∧ rec.we = 0xF#4 ∧
      (∀ j, j < c.fmt.lanes → c.redmask.getLsbD j = true →
        (lane rec.r c.fmt.width j, lane rec.fl 5 j) =
          fAddCore s.params c.fmt c.rm (lane s.now.fadd.a c.fmt.width j)
            (lane s.now.fadd.p c.fmt.width j)) ∧
      (∀ j, j < c.fmt.lanes → c.redmask.getLsbD j = false →
        lane rec.r c.fmt.width j = identity c.fmt c.rm ∧ lane rec.fl 5 j = 0#5)

/-- R195, R197, R198, R200: a terminal step that may run commits the accumulator plus the tree sum of
the lanes the reduction mask selects, the identity standing in for the others. Where the mask selects
no lane it commits the identity of its own mode (for a mode that changes within a sequence, log 19). -/
def Obligations.TerminalStepRuns : Prop :=
  ∀ (s : State) (c : RedCtl), MayRun s c.fmt c.uop →
    (SelectsNoLane c →
      IssuesTerminal s c.fmt (identity c.fmt c.rm, noFlags) (exec (.fredsum c) s)) ∧
    (¬SelectsNoLane c →
      IssuesTerminal s c.fmt
        (plus s.params c.fmt c.rm
          ((accFound s c.fmt c.rm c.uop).setWidth c.fmt.width, noFlags)
          (treeSum s.params c.fmt c.rm c.fmt.lanesLog2 (fun i =>
            if c.redmask.getLsbD i then (lane s.now.fadd.a c.fmt.width i, noFlags)
            else (identity c.fmt c.rm, noFlags))))
        (exec (.fredsum c) s))

/-- R196, R200: a widened terminal step that may run commits the same sum in the format twice as wide,
over the widened lanes, with the flags of widening them, or with no lane selected the identity of its
own mode (for a mode that changes within a sequence, log 19). -/
def Obligations.WidenedTerminalStepRuns : Prop :=
  ∀ (s : State) (c : RedCtl) (T : Format), c.fmt.wide = some T → MayRun s T c.uop →
    (SelectsNoLane c →
      IssuesTerminal s T (identity T c.rm, noFlags) (exec (.fwredsum c) s)) ∧
    (¬SelectsNoLane c →
      IssuesTerminal s T
        (plus s.params T c.rm
          ((accFound s T c.rm c.uop).setWidth T.width, noFlags)
          (treeSum s.params T c.rm c.fmt.lanesLog2 (fun i =>
            if c.redmask.getLsbD i then widen c.fmt T (lane s.now.fadd.a c.fmt.width i)
            else (identity T c.rm, noFlags))))
        (exec (.fwredsum c) s))

/-- R256, R257, R266: a request presented to a ready DIV-unit is captured, and one presented to a unit
that is not ready changes nothing. -/
def Obligations.DivRequestIsCaptured : Prop :=
  ∀ (s : State) (ew : ElemWidth),
    let captured := fun signed : Bool => s.withDiv { s.div with
      st := .busy, cnt := s.params.divTiming.cycles ew
      req := { ew := ew, signed := signed
               dividend := s.now.div.dividend, divisor := s.now.div.divisor } }
    (s.now.div.flush = false →
      (s.div.st = .idle ∨ (s.div.st = .done ∧ s.now.div.outReady = true)) →
      exec (.vdivu ew) s = .next (captured false) ∧ exec (.vdiv ew) s = .next (captured true)) ∧
    ((s.now.div.flush = true ∨ s.div.st = .busy ∨
        (s.div.st = .done ∧ s.now.div.outReady = false)) →
      exec (.vdivu ew) s = .next s ∧ exec (.vdiv ew) s = .next s)

/-- The frame of every operation: an FADD-unit operation that runs changes only `fadd.pipe` and
`fadd.red`, an FMA-unit operation only `fma.pipe`, a DIV-unit operation only `div.st`, `div.cnt` and
`div.req`. An ordinary FADD-unit operation keeps `fadd.red`'s accumulator (R168), and also its format
and last issue, which is the model's choice (log 24). A fold step keeps an open sequence's accumulator
(R194). -/
def Obligations.ExecFrame : Prop :=
  ∀ (i : Instr) (s t : State), exec i s = .next t →
    (i.unit = .fadd →
      t = s.withFadd { s.fadd with pipe := t.fadd.pipe, red := t.fadd.red } ∧
      ∃ rec : FaddRec, t.fadd.pipe = s.fadd.pipe ++ [rec] ∧ rec.issue = s.cycle) ∧
    (i.unit = .fma →
      t = s.withFma { s.fma with pipe := t.fma.pipe } ∧
      ∃ rec : FmaRec, t.fma.pipe = s.fma.pipe ++ [rec] ∧ rec.issue = s.cycle) ∧
    (i.unit = .div →
      t = s.withDiv { s.div with st := t.div.st, cnt := t.div.cnt, req := t.div.req }) ∧
    ((∃ c, i ∈ [Instr.fadd c, .fsub c, .fmin c, .fmax c, .fclass c]) →
      t.fadd.red.T = s.fadd.red.T ∧ t.fadd.red.acc = s.fadd.red.acc ∧
      t.fadd.red.last = s.fadd.red.last) ∧
    ((∃ c : RedCtl, i = .fredsumFold c ∧ c.uop ≠ 0#3) → t.fadd.red.acc = s.fadd.red.acc)

/-- R163, R167: `fsub(a, b)` is `fadd(a, Neg(b))` lane by lane, results and flags. -/
def Obligations.FsubIsFaddOfNegation : Prop :=
  ∀ (s t t' : State) (c : AddCtl),
    exec (.fsub c) s = .next t →
    exec (.fadd c) (withFaddB s (negLanes c.fmt s.now.fadd.b)) = .next t' →
    t.fadd = t'.fadd

/-- R160, R202: what an ordinary operation, or a micro-op that opens its sequence, puts in flight, and
the sequence such a micro-op leaves, depend on the FADD-unit's ports in the issue cycle alone. -/
def Obligations.FreshIssuesDependOnPortsOnly : Prop :=
  ∀ (i : Instr) (s s' t : State), startsAfresh i = true →
    s.params = s'.params → s.cycle = s'.cycle → s.now.fadd = s'.now.fadd →
    exec i s = .next t →
    ∃ (rec : FaddRec) (t' : State), exec i s' = .next t' ∧
      t.fadd.pipe = s.fadd.pipe ++ [rec] ∧ t'.fadd.pipe = s'.fadd.pipe ++ [rec] ∧
      (t.fadd.red.valid = t'.fadd.red.valid) ∧
      (∀ c, i = .fredsumFold c ∨ i = .fredsum c ∨ i = .fwredsum c → t.fadd.red = t'.fadd.red)

/-- R229: lane `k` of an FMA-unit operation depends only on lane `k` of its operands. R139 says the
same of the FADD-unit's ordinary operations. -/
def Obligations.LanesAreIndependent : Prop :=
  ∀ (s s' : State) (k : Nat), s.params = s'.params →
    (∀ (c : FmaCtl) (mk : FmaCtl → Instr) (t t' : State) (rec rec' : FmaRec),
      mk ∈ [Instr.fmul, Instr.fmadd, Instr.fmsub, Instr.fnmadd, Instr.fnmsub] → k < c.fmt.lanes →
      lane s.now.fma.a c.fmt.width k = lane s'.now.fma.a c.fmt.width k →
      lane s.now.fma.b c.fmt.width k = lane s'.now.fma.b c.fmt.width k →
      lane s.now.fma.c c.fmt.width k = lane s'.now.fma.c c.fmt.width k →
      exec (mk c) s = .next t → exec (mk c) s' = .next t' →
      t.fma.pipe = s.fma.pipe ++ [rec] → t'.fma.pipe = s'.fma.pipe ++ [rec'] →
      lane rec.r c.fmt.width k = lane rec'.r c.fmt.width k ∧ lane rec.fl 5 k = lane rec'.fl 5 k) ∧
    (∀ (c : AddCtl) (mk : AddCtl → Instr) (t t' : State) (rec rec' : FaddRec),
      mk ∈ [Instr.fadd, Instr.fsub, Instr.fmin, Instr.fmax, Instr.fclass] → k < c.fmt.lanes →
      lane s.now.fadd.a c.fmt.width k = lane s'.now.fadd.a c.fmt.width k →
      lane s.now.fadd.b c.fmt.width k = lane s'.now.fadd.b c.fmt.width k →
      exec (mk c) s = .next t → exec (mk c) s' = .next t' →
      t.fadd.pipe = s.fadd.pipe ++ [rec] → t'.fadd.pipe = s'.fadd.pipe ++ [rec'] →
      lane rec.r c.fmt.width k = lane rec'.r c.fmt.width k ∧ lane rec.fl 5 k = lane rec'.fl 5 k)

/-! ## Reduction sequences -/

/-- R192: a micro-op with `uop_idx ≠ 0` is refused when no sequence is open or the open one has
another accumulator format. -/
def Obligations.ContinuingNeedsAnOpenSequence : Prop :=
  ∀ (s : State) (mk : RedCtl → Instr) (c : RedCtl) (T : Format), MicroOp mk c T →
    c.uop ≠ 0#3 → (s.fadd.red.valid = false ∨ s.fadd.red.T ≠ T) →
    exec (mk c) s = .refused .noOpenSequence ∨ exec (mk c) s = .refused .sequenceFormat

/-- R320: a micro-op with `uop_idx ≠ 0` is refused when the previous micro-op of its sequence was
issued less than `ADD_LATENCY` cycles ago, and a micro-op with `uop_idx = 0` never is. -/
def Obligations.ReductionHazardIsRefused : Prop :=
  ∀ (s : State) (mk : RedCtl → Instr) (c : RedCtl) (T : Format), MicroOp mk c T →
    (c.uop ≠ 0#3 → s.fadd.red.valid = true → s.fadd.red.T = T →
      ∀ t', s.fadd.red.last = some t' → s.cycle < t' + s.params.addLatency.cycles →
      exec (mk c) s = .refused .reductionHazard) ∧
    (c.uop = 0#3 → ∃ t, exec (mk c) s = .next t)

/-- R199: a terminal step and every ordinary FADD-unit operation close the sequence, after which a
micro-op with `uop_idx ≠ 0` is refused and one with `uop_idx = 0` opens the next. -/
def Obligations.ClosedSequencesStayClosed : Prop :=
  ∀ (i : Instr) (s t : State), i.unit = .fadd → (∀ c, i ≠ .fredsumFold c) → exec i s = .next t →
    t.fadd.red.valid = false ∧
    ∀ (mk : RedCtl → Instr) (c : RedCtl) (T : Format), MicroOp mk c T →
      (c.uop ≠ 0#3 → exec (mk c) t = .refused .noOpenSequence) ∧
      (c.uop = 0#3 → ∃ t', exec (mk c) t = .next t')

/-- R194, R195, R196, R200: every micro-op that may run, opening or continuing, with no lane selected
gives the identity, with no flag: in every lane as a fold step, as the scalar as a terminal step. The
identity is -0, and +0 under RDN, of the micro-op's own mode (for a mode that changes within a sequence,
log 19). -/
def Obligations.EmptyReductionMaskGivesIdentity : Prop :=
  ∀ (s : State) (mk : RedCtl → Instr) (c : RedCtl) (T : Format), MicroOp mk c T →
    MayRun s T c.uop → SelectsNoLane c →
    ∃ (t : State) (rec : FaddRec), exec (mk c) s = .next t ∧ t.fadd.pipe = s.fadd.pipe ++ [rec] ∧
      rec.fmt = T ∧ rec.fl = 0#20 ∧
      (mk = Instr.fredsumFold →
        ∀ i, i < T.lanes → lane rec.r T.width i = zero T (decide (c.rm ≠ .rdn))) ∧
      (mk ≠ Instr.fredsumFold → rec.r = (zero T (decide (c.rm ≠ .rdn))).setWidth 64)

/-! ## Completions -/

/-- R161, R314: a record in flight in the FADD-unit completes exactly `ADD_LATENCY` cycles after its
issue: its enabled lanes are written, the other lanes of the result register hold, and the flag
fields of the others and the bits above are 0. -/
def Obligations.FaddRecordCompletesOnTime : Prop :=
  ∀ (s u v : State) (rec : FaddRec) (k : Nat), s.Inv → rec ∈ s.fadd.pipe →
    s.cycle + k = rec.issue + s.params.addLatency.cycles →
    runCycles k s = .next u → runCycles (k + 1) s = .next v →
    v.fadd.outValid = true ∧ rec ∉ v.fadd.pipe ∧
    (∀ i, i < rec.fmt.lanes →
      lane v.fadd.result rec.fmt.width i =
        (if rec.we.getLsbD i then lane rec.r rec.fmt.width i
         else lane u.fadd.result rec.fmt.width i) ∧
      lane v.fadd.fflags 5 i = (if rec.we.getLsbD i then lane rec.fl 5 i else 0#5)) ∧
    (∀ i, rec.fmt.lanes ≤ i → lane v.fadd.fflags 5 i = 0#5)

/-- R230, R315: a record in flight in the FMA-unit completes exactly 4 cycles after its issue, and
every lane of its format is written. -/
def Obligations.FmaRecordCompletesOnTime : Prop :=
  ∀ (s v : State) (rec : FmaRec) (k : Nat), s.Inv → rec ∈ s.fma.pipe →
    s.cycle + k = rec.issue + 4 → runCycles (k + 1) s = .next v →
    v.fma.outValid = true ∧ rec ∉ v.fma.pipe ∧
    (∀ i, i < rec.fmt.lanes →
      lane v.fma.result rec.fmt.width i = lane rec.r rec.fmt.width i ∧
      lane v.fma.fflags 5 i = lane rec.fl 5 i) ∧
    (∀ i, rec.fmt.lanes ≤ i → lane v.fma.fflags 5 i = 0#5)

/-- R317: in a cycle in which no record of a unit is due, its `result` and `fflags` hold and its
`out_valid` is 0; in a cycle in which one is due, `out_valid` is 1. -/
def Obligations.ResultsHoldBetweenCompletions : Prop :=
  ∀ s t : State, step s = .next t →
    ((∀ rec ∈ s.fadd.pipe.head?, rec.issue + s.params.addLatency.cycles ≠ s.cycle) →
      t.fadd.result = s.fadd.result ∧ t.fadd.fflags = s.fadd.fflags ∧ t.fadd.outValid = false) ∧
    ((∃ rec ∈ s.fadd.pipe.head?, rec.issue + s.params.addLatency.cycles = s.cycle) →
      t.fadd.outValid = true) ∧
    ((∀ rec ∈ s.fma.pipe.head?, rec.issue + 4 ≠ s.cycle) →
      t.fma.result = s.fma.result ∧ t.fma.fflags = s.fma.fflags ∧ t.fma.outValid = false) ∧
    ((∃ rec ∈ s.fma.pipe.head?, rec.issue + 4 = s.cycle) → t.fma.outValid = true)

/-- R323: once the stimulus is over the run ends, with nothing refused: within as many cycles as the
longest of `ADD_LATENCY`, 4 and `DIV_CYCLES(64)` both pipelines are empty and the divider is not BUSY. -/
def Obligations.RunsEnd : Prop :=
  ∀ s : State, s.Inv → s.stim = [] →
    ∃ (k : Nat) (t : State),
      k ≤ max (max s.params.addLatency.cycles 4) (s.params.divTiming.cycles .e64) ∧
      runCycles k s = .next t ∧ t.ended = true

/-- R323: a stimulus that is not refused has an end, and `runStimulus` runs its lines to the start of
`t_end`: the first cycle after the last line's at whose start both pipelines are empty and the divider
is not BUSY. That a stimulus without a line ends at the first such cycle of all is the model's choice
(log 30). -/
def Obligations.StimulusRunsEnd : Prop :=
  ∀ (lines : List Line) (s : State), s.Inv →
    let finished := fun u : State =>
      (∀ l ∈ lines, l.cycle < u.cycle) ∧ u.fadd.pipe = [] ∧ u.fma.pipe = [] ∧ u.div.st ≠ .busy
    ((∀ k r, runLines lines k none s ≠ .refused r) → ∃ t, runStimulus lines s = .next t) ∧
    (∀ t, runStimulus lines s = .next t →
      finished t ∧ ∃ k, runLines lines k none s = .next t ∧
        ∀ j u, j < k → runLines lines j none s = .next u → ¬finished u)

/-! ## Numerics -/

/-- R126, R127: under the directed modes the rounded value, short of overflow, is the nearest finite
value on the mode's side of `x`. -/
def Obligations.DirectedRoundingIsCorrect : Prop :=
  ∀ (t : Tininess) (F : Format) (rm : RoundingMode) (x : Exact), x.num ≠ 0 →
    raises (round t F rm x).2 OF = false →
    let y := (round t F rm x).1
    isFinite F y = true ∧ sign F y = decide (x.toRat < 0) ∧
    (rm = .rdn → valueRat F y ≤ x.toRat ∧
      ∀ z, isFinite F z = true → valueRat F z ≤ x.toRat → valueRat F z ≤ valueRat F y) ∧
    (rm = .rup → x.toRat ≤ valueRat F y ∧
      ∀ z, isFinite F z = true → x.toRat ≤ valueRat F z → valueRat F y ≤ valueRat F z) ∧
    (rm = .rtz → |valueRat F y| ≤ |x.toRat| ∧
      ∀ z, isFinite F z = true → |valueRat F z| ≤ |x.toRat| → |valueRat F z| ≤ |valueRat F y|)

/-- R126, R127: under RNE and RMM the rounded value, short of overflow, is a nearest finite value, and
of two nearest ones RNE takes the one with an even fraction and RMM the one of greater magnitude. -/
def Obligations.NearestRoundingIsCorrect : Prop :=
  ∀ (t : Tininess) (F : Format) (rm : RoundingMode) (x : Exact), x.num ≠ 0 →
    rm = .rne ∨ rm = .rmm → raises (round t F rm x).2 OF = false →
    let y := (round t F rm x).1
    isFinite F y = true ∧ sign F y = decide (x.toRat < 0) ∧
    ∀ z, isFinite F z = true →
      |valueRat F y - x.toRat| ≤ |valueRat F z - x.toRat| ∧
      (|valueRat F y - x.toRat| = |valueRat F z - x.toRat| → valueRat F y ≠ valueRat F z →
        (rm = .rne → y.getLsbD 0 = false) ∧ (rm = .rmm → |valueRat F z| < |valueRat F y|))

/-- R132: a value that is exactly representable rounds to its own pattern in every mode, with no
flag. -/
def Obligations.ExactResultsAreUnaffected : Prop :=
  ∀ (t : Tininess) (F : Format) (rm : RoundingMode) (x : Exact) (z : BitVec F.width),
    x.num ≠ 0 → isFinite F z = true → valueRat F z = x.toRat →
    round t F rm x = (z, noFlags)

/-- R131: NX is set exactly when the returned value differs from `x`, and NV and DZ never. -/
def Obligations.InexactFlagMeansDifferentValue : Prop :=
  ∀ (t : Tininess) (F : Format) (rm : RoundingMode) (x : Exact), x.num ≠ 0 →
    let y := (round t F rm x).1
    let fl := (round t F rm x).2
    (raises fl NX = true ↔ ¬(isFinite F y = true ∧ valueRat F y = x.toRat)) ∧
    raises fl NV = false ∧ raises fl DZ = false

/-- R127, R128: OF is set exactly when the magnitude of `x`, rounded to the precision of F with an
unbounded exponent range, reaches `2^(emax+1)`; then the result is the table's and the flags are exactly
OF and NX. -/
def Obligations.OverflowResults : Prop :=
  ∀ (t : Tininess) (F : Format) (rm : RoundingMode) (x : Exact), x.num ≠ 0 →
    (raises (round t F rm x).2 OF = true ↔ reachesPow F rm (F.emax + 1) x.toRat) ∧
    (reachesPow F rm (F.emax + 1) x.toRat →
      round t F rm x =
        (match rm, decide (x.toRat < 0) with
         | .rne, s => inf F s
         | .rmm, s => inf F s
         | .rtz, s => maxFinite F s
         | .rdn, false => maxFinite F false
         | .rdn, true => inf F true
         | .rup, false => inf F false
         | .rup, true => maxFinite F true, OF ||| NX)) ∧
    ((2 : Rat) ^ (F.emax + 1) ≤ |x.toRat| → raises (round t F rm x).2 OF = true)

/-- R130, R228: a result that is subnormal or zero and inexact sets UF and NX and nothing else, under
either policy, and UF is never set without NX. -/
def Obligations.InexactUnderflowSetsUfAndNx : Prop :=
  ∀ (t : Tininess) (F : Format) (rm : RoundingMode) (x : Exact), x.num ≠ 0 →
    let y := (round t F rm x).1
    let fl := (round t F rm x).2
    ((isSubnormal F y = true ∨ isZero F y = true) → valueRat F y ≠ x.toRat → fl = UF ||| NX) ∧
    (raises fl UF = true → raises fl NX = true) ∧
    (isFinite F y = true → valueRat F y = x.toRat → fl = noFlags)

/-- R129: the two tininess policies never differ in the pattern, and differ in the flags exactly for a
value below `2^emin` in magnitude whose rounding to the precision of F, with an unbounded exponent
range, reaches `2^emin`: then the value is inexact, the result is `2^emin` in magnitude,
BEFORE_ROUNDING sets UF and AFTER_ROUNDING does not. -/
def Obligations.TininessPoliciesDifferOnlyAtTheBoundary : Prop :=
  ∀ (F : Format) (rm : RoundingMode) (x : Exact), x.num ≠ 0 →
    let b := round .beforeRounding F rm x
    let a := round .afterRounding F rm x
    b.1 = a.1 ∧
    (b.2 ≠ a.2 ↔ |x.toRat| < (2 : Rat) ^ F.emin ∧ reachesPow F rm F.emin x.toRat) ∧
    (|x.toRat| < (2 : Rat) ^ F.emin → reachesPow F rm F.emin x.toRat →
      b.2 = UF ||| NX ∧ a.2 = NX ∧ |valueRat F b.1| = (2 : Rat) ^ F.emin)

/-- R134, R135: the adder core. On finite operands with a nonzero exact sum it is one rounding of that
sum. A NaN operand gives the NaN result of the policy in force, with NV exactly when an operand is
signaling: the canonical NaN, or the first NaN operand with its quiet bit set. Opposite infinities give
the canonical NaN with NV, and one infinity gives itself with no flag. -/
def Obligations.AdderRoundsOnce : Prop :=
  ∀ (P : Params) (F : Format) (rm : RoundingMode) (u v : BitVec F.width),
    (isFinite F u = true → isFinite F v = true →
      ∀ x : Exact, x.num ≠ 0 → x.toRat = valueRat F u + valueRat F v →
        fAddCore P F rm u v = round P.tininess F rm x) ∧
    (isNaN F u = true ∨ isNaN F v = true →
      (fAddCore P F rm u v).2 = (if isSNaN F u || isSNaN F v then NV else noFlags) ∧
      (P.nanResult = .canonical → (fAddCore P F rm u v).1 = F.canonicalNaN) ∧
      (P.nanResult = .propagate → ∀ i, i < F.width →
        (fAddCore P F rm u v).1.getLsbD i =
          (decide (i = F.fracBits - 1) || (if isNaN F u then u else v).getLsbD i))) ∧
    (isInf F u = true → isInf F v = true → sign F u ≠ sign F v →
      fAddCore P F rm u v = (F.canonicalNaN, NV)) ∧
    (isInf F u = true → isNaN F v = false → ¬(isInf F v = true ∧ sign F u ≠ sign F v) →
      fAddCore P F rm u v = (u, noFlags)) ∧
    (isFinite F u = true → isInf F v = true → fAddCore P F rm u v = (v, noFlags))

/-- R133: the sign of an exact zero sum. -/
def Obligations.ZeroSumSignRule : Prop :=
  ∀ (P : Params) (F : Format) (rm : RoundingMode) (u v : BitVec F.width),
    isFinite F u = true → isFinite F v = true → valueRat F u + valueRat F v = 0 →
    (isZero F u = true → isZero F v = true → sign F u = sign F v →
      fAddCore P F rm u v = (zero F (sign F u), noFlags)) ∧
    (¬(isZero F u = true ∧ isZero F v = true ∧ sign F u = sign F v) →
      fAddCore P F rm u v = (zero F (decide (rm = .rdn)), noFlags))

/-- R135: `FAddCore` is commutative under the canonical NaN policy. -/
def Obligations.FaddCoreCommutes : Prop :=
  ∀ (P : Params) (F : Format) (rm : RoundingMode) (u v : BitVec F.width),
    P.nanResult = .canonical → fAddCore P F rm u v = fAddCore P F rm v u

/-- R135: no sum underflows. -/
def Obligations.SumsNeverUnderflow : Prop :=
  ∀ (P : Params) (F : Format) (rm : RoundingMode) (u v : BitVec F.width),
    raises (fAddCore P F rm u v).2 UF = false

/-- R142: the identity is a two-sided identity of `FAddCore` on every non-NaN pattern, and on a NaN
gives its NaN result with NV only if it is signaling. -/
def Obligations.IdentityIsTwoSided : Prop :=
  ∀ (P : Params) (T : Format) (rm : RoundingMode) (x : BitVec T.width),
    (isNaN T x = false →
      fAddCore P T rm x (identity T rm) = (x, noFlags) ∧
      fAddCore P T rm (identity T rm) x = (x, noFlags)) ∧
    (isNaN T x = true →
      fAddCore P T rm x (identity T rm) =
        (nanResult P.nanResult T x (identity T rm), if isSNaN T x then NV else noFlags))

/-- R136: widening is exact and keeps the sign, never gives a subnormal, and gives the canonical NaN of
the wider format on a NaN, with NV on a signaling one. -/
def Obligations.WideningIsExact : Prop :=
  ∀ (S T : Format) (x : BitVec S.width), S.wide = some T →
    (isSNaN S x = true → widen S T x = (T.canonicalNaN, NV)) ∧
    (isQNaN S x = true → widen S T x = (T.canonicalNaN, noFlags)) ∧
    (isInf S x = true → widen S T x = (inf T (sign S x), noFlags)) ∧
    (isFinite S x = true →
      (widen S T x).2 = noFlags ∧ isFinite T (widen S T x).1 = true ∧
      isSubnormal T (widen S T x).1 = false ∧
      sign T (widen S T x).1 = sign S x ∧ valueRat T (widen S T x).1 = valueRat S x)

/-- R137: exactly one class bit is set, the one whose condition holds. -/
def Obligations.ClassFieldIsOneHot : Prop :=
  ∀ (F : Format) (x : BitVec F.width),
    (∃ k, k < 10 ∧ ∀ j, (class10 F x).getLsbD j = decide (j = k)) ∧
    ((class10 F x).getLsbD 0 = (isInf F x && sign F x)) ∧
    ((class10 F x).getLsbD 1 = (isNormal F x && sign F x)) ∧
    ((class10 F x).getLsbD 2 = (isSubnormal F x && sign F x)) ∧
    ((class10 F x).getLsbD 3 = (isZero F x && sign F x)) ∧
    ((class10 F x).getLsbD 4 = (isZero F x && !sign F x)) ∧
    ((class10 F x).getLsbD 5 = (isSubnormal F x && !sign F x)) ∧
    ((class10 F x).getLsbD 6 = (isNormal F x && !sign F x)) ∧
    ((class10 F x).getLsbD 7 = (isInf F x && !sign F x)) ∧
    ((class10 F x).getLsbD 8 = isSNaN F x) ∧
    ((class10 F x).getLsbD 9 = isQNaN F x)

/-- R138: the order of `fmin` and `fmax` is a strict total order on non-NaN patterns, by value on the
finite ones with -0 below +0. That minus infinity stands below and plus infinity above every other
non-NaN pattern is the model's reading (log 15). -/
def Obligations.MinMaxOrderIsTotal : Prop :=
  ∀ (F : Format) (u v w : BitVec F.width),
    isNaN F u = false → isNaN F v = false → isNaN F w = false →
    (u = v → fpLt F u v = false) ∧
    (u ≠ v → fpLt F u v = !fpLt F v u) ∧
    (fpLt F u v = true → fpLt F v w = true → fpLt F u w = true) ∧
    (isFinite F u = true → isFinite F v = true →
      (fpLt F u v = true ↔
        valueRat F u < valueRat F v ∨
        (isZero F u = true ∧ isZero F v = true ∧ sign F u = true ∧ sign F v = false))) ∧
    (u ≠ inf F true → fpLt F (inf F true) u = true) ∧
    (u ≠ inf F false → fpLt F u (inf F false) = true)

/-- R164, R165: the NaN rules of `fmin` and `fmax`, and otherwise the operand that is least or
greatest in the order of R138. -/
def Obligations.MinMaxChoose : Prop :=
  ∀ (F : Format) (a b : BitVec F.width),
    (fMinCore F a b).2 = (if isSNaN F a || isSNaN F b then NV else noFlags) ∧
    (fMaxCore F a b).2 = (if isSNaN F a || isSNaN F b then NV else noFlags) ∧
    (isNaN F a = true → isNaN F b = true →
      (fMinCore F a b).1 = F.canonicalNaN ∧ (fMaxCore F a b).1 = F.canonicalNaN) ∧
    (isNaN F a = true → isNaN F b = false →
      (fMinCore F a b).1 = b ∧ (fMaxCore F a b).1 = b) ∧
    (isNaN F a = false → isNaN F b = true →
      (fMinCore F a b).1 = a ∧ (fMaxCore F a b).1 = a) ∧
    (isNaN F a = false → isNaN F b = false →
      ((fMinCore F a b).1 = a ∨ (fMinCore F a b).1 = b) ∧
      fpLe F (fMinCore F a b).1 a = true ∧ fpLe F (fMinCore F a b).1 b = true ∧
      ((fMaxCore F a b).1 = a ∨ (fMaxCore F a b).1 = b) ∧
      fpLe F a (fMaxCore F a b).1 = true ∧ fpLe F b (fMaxCore F a b).1 = true)

/-- R221, R227: every NaN the fused core gives is the canonical one. A zero times an infinity gives it
with NV, whatever the addend is; any other NaN among the operands read gives it with NV exactly when one
of them is signaling; and an infinite product plus the opposite infinity gives it with NV. -/
def Obligations.FusedNaNsAreCanonical : Prop :=
  ∀ (P : Params) (F : Format) (rm : RoundingMode) (a b c : BitVec F.width)
    (negP negC useC : Bool),
    (isNaN F (fmaCore P F rm a b c negP negC useC).1 = true →
      (fmaCore P F rm a b c negP negC useC).1 = F.canonicalNaN) ∧
    (ZeroTimesInf F a b → fmaCore P F rm a b c negP negC useC = (F.canonicalNaN, NV)) ∧
    (¬ZeroTimesInf F a b →
      isNaN F a = true ∨ isNaN F b = true ∨ (useC = true ∧ isNaN F c = true) →
      fmaCore P F rm a b c negP negC useC =
        (F.canonicalNaN,
          if isSNaN F a || isSNaN F b || (useC && isSNaN F c) then NV else noFlags)) ∧
    (InfiniteProduct F a b → isInf F c = true → productSign F a b negP ≠ (sign F c ^^ negC) →
      fmaCore P F rm a b c negP negC true = (F.canonicalNaN, NV))

/-- R221, R133: on finite operands the fused result is one rounding of the exact product plus addend,
with the variant's signs; where that sum is zero, it is the zero of the terms' sign if both are zeros of
one sign, else +0, and -0 under RDN. Without the addend it is one rounding of the product, whatever `c`
is, and an exact zero product keeps the product's sign. An infinite product, or an infinite addend to a
finite product, gives that infinity with no flag. -/
def Obligations.FusedRoundsOnce : Prop :=
  ∀ (P : Params) (F : Format) (rm : RoundingMode) (a b c : BitVec F.width) (negP negC : Bool),
    (isFinite F a = true → isFinite F b = true →
      (∀ x : Exact, isFinite F c = true → x.num ≠ 0 →
        x.toRat = (if negP then -1 else 1) * (valueRat F a * valueRat F b) +
          (if negC then -1 else 1) * valueRat F c →
        fmaCore P F rm a b c negP negC true = round P.tininess F rm x) ∧
      (isFinite F c = true →
        (if negP then -1 else 1) * (valueRat F a * valueRat F b) +
          (if negC then -1 else 1) * valueRat F c = 0 →
        fmaCore P F rm a b c negP negC true =
          (zero F (if (isZero F a || isZero F b) && isZero F c &&
              productSign F a b negP == (sign F c ^^ negC)
            then productSign F a b negP else decide (rm = .rdn)), noFlags)) ∧
      (∀ x : Exact, x.num ≠ 0 →
        x.toRat = (if negP then -1 else 1) * (valueRat F a * valueRat F b) →
        fmaCore P F rm a b c negP negC false = round P.tininess F rm x) ∧
      (isZero F a = true ∨ isZero F b = true →
        fmaCore P F rm a b c negP negC false = (zero F (productSign F a b negP), noFlags)) ∧
      (isInf F c = true →
        fmaCore P F rm a b c negP negC true = (inf F (sign F c ^^ negC), noFlags))) ∧
    (InfiniteProduct F a b →
      fmaCore P F rm a b c negP negC false = (inf F (productSign F a b negP), noFlags) ∧
      (isNaN F c = false → ¬(isInf F c = true ∧ productSign F a b negP ≠ (sign F c ^^ negC)) →
        fmaCore P F rm a b c negP negC true = (inf F (productSign F a b negP), noFlags)))

/-- R225: under RNE, RTZ and RMM `fnmadd` negates `fmadd` wherever the exact sum of finite operands is
not zero. -/
def Obligations.FnmaddNegatesFmadd : Prop :=
  ∀ (P : Params) (F : Format) (rm : RoundingMode) (a b c : BitVec F.width),
    rm = .rne ∨ rm = .rtz ∨ rm = .rmm →
    isFinite F a = true → isFinite F b = true → isFinite F c = true →
    valueRat F a * valueRat F b + valueRat F c ≠ 0 →
    fmaCore P F rm a b c true true true =
      (neg F (fmaCore P F rm a b c false false true).1, (fmaCore P F rm a b c false false true).2)

/-! ## The divider -/

/-- R262 and R9: `DIV_CYCLES` is at least 1, non-decreasing, and greater at 64 bits than at 8; every
such function is one of the model's. `ADD_LATENCY` is 2 or 3, and each of the two is one of the
model's: neither parameter is fixed (R10). -/
def Obligations.LatencyParametersAreTheOpenOnes : Prop :=
  (∀ d : DivTiming, 1 ≤ d.cycles .e8 ∧ d.cycles .e8 ≤ d.cycles .e16 ∧
    d.cycles .e16 ≤ d.cycles .e32 ∧ d.cycles .e32 ≤ d.cycles .e64 ∧
    d.cycles .e8 < d.cycles .e64) ∧
  (∀ a b c e : Nat, 1 ≤ a → a ≤ b → b ≤ c → c ≤ e → a < e →
    ∃ d : DivTiming, d.cycles .e8 = a ∧ d.cycles .e16 = b ∧ d.cycles .e32 = c ∧
      d.cycles .e64 = e) ∧
  (∀ l : AddLatency, l.cycles = 2 ∨ l.cycles = 3) ∧
  (∃ l : AddLatency, l.cycles = 2) ∧ (∃ l : AddLatency, l.cycles = 3)

/-- R251, R253: unsigned division of a lane. -/
def Obligations.UnsignedLaneDivision : Prop :=
  ∀ (q : DivReq) (i : Nat), q.signed = false →
    ((q.D i).toNat = 0 →
      (q.lane i).q.toNat = 2 ^ q.ew.bits - 1 ∧ (q.lane i).r = q.N i ∧ (q.lane i).z = true) ∧
    ((q.D i).toNat ≠ 0 →
      (q.lane i).q.toNat = (q.N i).toNat / (q.D i).toNat ∧
      (q.lane i).r.toNat = (q.N i).toNat % (q.D i).toNat ∧ (q.lane i).z = false)

/-- R252, R253, R254: signed division of a lane truncates toward zero, with the remainder's sign that
of the dividend; a zero divisor comes before the overflow of `MIN / -1`. -/
def Obligations.SignedLaneDivision : Prop :=
  ∀ (q : DivReq) (i : Nat), q.signed = true →
    ((q.D i).toInt = 0 →
      (q.lane i).q.toNat = 2 ^ q.ew.bits - 1 ∧ (q.lane i).r = q.N i ∧ (q.lane i).z = true) ∧
    ((q.N i).toInt = -(2 : Int) ^ (q.ew.bits - 1) → (q.D i).toInt = -1 →
      (q.lane i).q = q.N i ∧ (q.lane i).r.toInt = 0 ∧ (q.lane i).z = false) ∧
    ((q.D i).toInt ≠ 0 →
      ¬((q.N i).toInt = -(2 : Int) ^ (q.ew.bits - 1) ∧ (q.D i).toInt = -1) →
      (q.lane i).q.toInt = (q.N i).toInt.tdiv (q.D i).toInt ∧
      (q.lane i).r.toInt = (q.N i).toInt.tmod (q.D i).toInt ∧ (q.lane i).z = false)

/-- R267: the division law of every lane with a nonzero divisor. -/
def Obligations.DivisionLaw : Prop :=
  ∀ (q : DivReq) (i : Nat), q.D i ≠ 0 →
    q.N i = q.D i * (q.lane i).q + (q.lane i).r ∧
    (q.signed = false → (q.lane i).r.toNat < (q.D i).toNat) ∧
    (q.signed = true → |(q.lane i).r.toInt| < |(q.D i).toInt|)

/-- R255: how DivResult is packed. -/
def Obligations.DivResultPacking : Prop :=
  ∀ (q : DivReq) (i : Nat),
    (i < q.ew.lanes →
      lane q.quotient q.ew.bits i = (q.lane i).q ∧ lane q.remainder q.ew.bits i = (q.lane i).r ∧
      q.dzmask.getLsbD i = (q.lane i).z) ∧
    (q.ew.lanes ≤ i → q.dzmask.getLsbD i = false)

/-- R265, R258: the complete next-state table of the DIV-unit, with its two handshake outputs and, in
a DONE cycle, the result registers on the outputs. That the request and the result registers are kept
while the unit enters or stays in IDLE without a flush is the model's choice (log 29). -/
def Obligations.DivNextStateTable : Prop :=
  ∀ s t : State, step s = .next t →
    (t.div.out.outValid = true ↔ s.div.st = .done) ∧
    (s.div.st = .done →
      t.div.out.quotient = s.div.quotient ∧ t.div.out.remainder = s.div.remainder ∧
      t.div.out.dzmask = s.div.dzmask) ∧
    (s.now.div.flush = true →
      t.div.st = .idle ∧ t.div.cnt = 0 ∧ t.div.out.inReady = false ∧
      t.div.out.outValid = decide (s.div.st = .done)) ∧
    (s.now.div.flush = false →
      (s.div.st = .idle → s.now.div.inValid = false →
        t.div = { s.div with out := t.div.out } ∧
        t.div.out.inReady = true ∧ t.div.out.outValid = false) ∧
      (s.div.st = .idle → s.now.div.inValid = true →
        Captured s t ∧ t.div.out.inReady = true ∧ t.div.out.outValid = false) ∧
      (s.div.st = .busy → 1 < s.div.cnt →
        t.div = { s.div with cnt := s.div.cnt - 1, out := t.div.out } ∧
        t.div.out.inReady = false ∧ t.div.out.outValid = false) ∧
      (s.div.st = .busy → s.div.cnt = 1 →
        t.div = { s.div with
          st := .done, cnt := 0, quotient := s.div.req.quotient
          remainder := s.div.req.remainder, dzmask := s.div.req.dzmask, out := t.div.out } ∧
        t.div.out.inReady = false ∧ t.div.out.outValid = false) ∧
      (s.div.st = .done → s.now.div.outReady = false →
        t.div = { s.div with out := t.div.out } ∧
        t.div.out.inReady = false ∧ t.div.out.outValid = true) ∧
      (s.div.st = .done → s.now.div.outReady = true → s.now.div.inValid = false →
        t.div = { s.div with st := .idle, out := t.div.out } ∧
        t.div.out.inReady = true ∧ t.div.out.outValid = true) ∧
      (s.div.st = .done → s.now.div.outReady = true → s.now.div.inValid = true →
        Captured s t ∧ t.div.out.inReady = true ∧ t.div.out.outValid = true))

/-- R259, R318: a request accepted in a cycle is BUSY for exactly `DIV_CYCLES(ew)` cycles and then
DONE with its own DivResult, if no flush comes. -/
def Obligations.DivisionTakesItsBusyCycles : Prop :=
  ∀ (s : State) (q : DivReq), s.accepts = true →
    q = { ew := elemOfCode (dcwEw s.now.div.dcw), signed := dcwSigned s.now.div.dcw
          dividend := s.now.div.dividend, divisor := s.now.div.divisor } →
    (∀ j, 1 ≤ j → j ≤ s.params.divTiming.cycles q.ew → (s.portsAfter j).div.flush = false) →
    (∀ j u, 1 ≤ j → j ≤ s.params.divTiming.cycles q.ew → runCycles j s = .next u →
      u.div.st = .busy ∧ u.div.req = q) ∧
    (∀ v, runCycles (s.params.divTiming.cycles q.ew + 1) s = .next v →
      v.div.st = .done ∧ v.div.quotient = q.quotient ∧ v.div.remainder = q.remainder ∧
      v.div.dzmask = q.dzmask)

/-- R319: a flush puts the DIV-unit in IDLE at the start of the next cycle, where it is ready unless
`flush` is 1 again. -/
def Obligations.FlushTakesOneCycle : Prop :=
  ∀ s t : State, s.now.div.flush = true → step s = .next t →
    t.div.st = .idle ∧ t.div.cnt = 0 ∧ t.inReady = !t.now.div.flush

/-- R263, R264: after a flush the DIV-unit presents nothing until it is given another request. -/
def Obligations.FlushLeavesNothingToPresent : Prop :=
  ∀ (k : Nat) (s t : State), s.now.div.flush = true →
    (∀ j, 1 ≤ j → j ≤ k → (s.portsAfter j).div.inValid = false) →
    runCycles (k + 1) s = .next t → t.div.st = .idle ∧ t.div.cnt = 0
end

