-- ==== Sys2Proof/Laws/Caller.lean ====
section
/-! SUPPORT. What the end-of-run functions of Machine/Caller.lean say (R323). -/

namespace Sys2Proof.Machine

theorem lastLine_eq_none {lines : List Line} : lastLine lines = none ↔ lines = [] := by
  simp [lastLine]

/-- `t_last < t` says that every line's cycle is past. -/
theorem pastLast_iff {lines : List Line} {t : Nat} :
    pastLast lines t = true ↔ ∀ l ∈ lines, l.cycle < t := by
  unfold pastLast
  cases h : lastLine lines with
  | none => simp [lastLine_eq_none.1 h]
  | some m =>
    obtain ⟨hmem, hle⟩ := List.max?_eq_some_iff.1 h
    obtain ⟨l, hl, rfl⟩ := List.mem_map.1 hmem
    simp only [decide_eq_true_eq]
    exact ⟨fun hm k hk => lt_of_le_of_lt (hle _ (List.mem_map_of_mem hk)) hm, fun hall => hall l hl⟩

theorem State.settled_iff {s : State} :
    s.settled = true ↔ s.fadd.pipe = [] ∧ s.fma.pipe = [] ∧ s.div.st ≠ .busy := by
  simp [State.settled, and_assoc]

/-- R323's condition, spelled out. -/
theorem State.endedAfter_iff {s : State} {lines : List Line} :
    s.endedAfter lines = true ↔
      (∀ l ∈ lines, l.cycle < s.cycle) ∧
        s.fadd.pipe = [] ∧ s.fma.pipe = [] ∧ s.div.st ≠ .busy := by
  simp [State.endedAfter, pastLast_iff, State.settled_iff]

/-- Running to the end is running some number of cycles, at most the given one, none of whose earlier
cycles ends the run. -/
theorem runToEnd_cases (lines : List Line) (k : Nat) (held : Option Action) (s : State) :
    ∃ j, j ≤ k ∧ runToEnd lines k held s = runLines lines j held s ∧
      ∀ i u, i < j → runLines lines i held s = .next u → u.endedAfter lines = false := by
  induction k generalizing held s with
  | zero => exact ⟨0, le_refl 0, rfl, fun i _ hi => absurd hi i.not_lt_zero⟩
  | succ k ih =>
    by_cases he : s.endedAfter lines = true
    · exact ⟨0, Nat.zero_le _, by simp [runToEnd, runLines, he], fun i _ hi => absurd hi i.not_lt_zero⟩
    · cases hs : step (s.withStim [linesAt lines held s.cycle]) with
      | next t =>
        obtain ⟨j, hj, hrun, hbefore⟩ :=
          ih (heldAfter (s.withStim [linesAt lines held s.cycle])) t
        refine ⟨j + 1, Nat.succ_le_succ hj, by simpa [runToEnd, runLines, he, hs, onNext] using hrun,
          fun i u hi hu => ?_⟩
        cases i with
        | zero => cases hu; simpa using he
        | succ i =>
          exact hbefore i u (Nat.lt_of_succ_lt_succ hi) (by simpa [runLines, hs, onNext] using hu)
      | refused r =>
        refine ⟨1, by omega, by simp [runToEnd, runLines, he, hs, onNext], fun i u hi hu => ?_⟩
        obtain rfl : i = 0 := by omega
        cases hu
        simpa using he
      | fault r => exact nomatch r

end Sys2Proof.Machine
end

