-- ==== Sys2Proof/Laws/Exact.lean ====
section
/-! SUPPORT. Exact values are the rationals they stand for: the sum, product, sign, zero test and order
of Numerics agree with those of `Rat` (R12, log 17). -/

namespace Sys2Proof.Machine

theorem Exact.toRat_shift (n : Int) {p e : Int} (h : p ≤ e) :
    ((n * (2 : Int) ^ (e - p).toNat : Int) : Rat) * (2 : Rat) ^ p = (n : Rat) * (2 : Rat) ^ e := by
  have hp : ((2 : Rat) ^ (e - p).toNat) = (2 : Rat) ^ (e - p) := by
    rw [← zpow_natCast, Int.toNat_of_nonneg (by omega)]
  push_cast
  rw [hp, mul_assoc, ← zpow_add₀ (by norm_num : (2 : Rat) ≠ 0)]
  congr 2
  omega

theorem Exact.toRat_add (x y : Exact) : (x.add y).toRat = x.toRat + y.toRat := by
  simp only [Exact.toRat, Exact.add]
  rw [Int.cast_add, add_mul, toRat_shift x.num (min_le_left _ _),
    toRat_shift y.num (min_le_right _ _)]

theorem Exact.toRat_mul (x y : Exact) : (x.mul y).toRat = x.toRat * y.toRat := by
  simp only [Exact.toRat, Exact.mul]
  rw [Int.cast_mul, zpow_add₀ (by norm_num : (2 : Rat) ≠ 0)]
  ring

theorem Exact.toRat_withSign (s : Bool) (x : Exact) :
    (x.withSign s).toRat = if s then -|x.toRat| else |x.toRat| := by
  have h2 : |(2 : Rat) ^ x.exp| = (2 : Rat) ^ x.exp := abs_of_pos (by positivity)
  cases s <;> simp [Exact.toRat, Exact.withSign, abs_mul, h2]

theorem Exact.isZero_iff (x : Exact) : x.isZero = true ↔ x.toRat = 0 := by
  have h2 : (2 : Rat) ^ x.exp ≠ 0 := by positivity
  simp [Exact.isZero, Exact.toRat, h2]

theorem Exact.num_neg_iff (x : Exact) : x.num < 0 ↔ x.toRat < 0 := by
  have h2 : (0 : Rat) < (2 : Rat) ^ x.exp := by positivity
  simp only [Exact.toRat]
  rw [← Int.cast_lt (R := Rat), Int.cast_zero]
  constructor
  · intro h
    exact mul_neg_of_neg_of_pos h h2
  · intro h
    by_contra hn
    exact absurd (mul_nonneg (not_lt.mp hn) h2.le) (not_le.mpr h)

theorem Exact.lt_iff (x y : Exact) : x.lt y = true ↔ x.toRat < y.toRat := by
  simp only [Exact.lt, decide_eq_true_eq, Exact.num_neg_iff, Exact.toRat_add]
  simp only [Exact.toRat, Int.cast_neg, neg_mul]
  constructor <;> intro h <;> linarith

theorem Exact.add_comm (x y : Exact) : x.add y = y.add x := by
  simp [Exact.add, min_comm, Int.add_comm]

/-- `atLeastPow` compares a value with a power of two (R127). -/
theorem atLeastPow_iff (m : Nat) (q k : Int) :
    atLeastPow m q k = true ↔ (2 : Rat) ^ k ≤ (m : Rat) * (2 : Rat) ^ q := by
  simp only [atLeastPow, decide_eq_true_eq]
  rcases Int.le_total q k with h | h
  · have hz : (q - k).toNat = 0 := by omega
    rw [hz, pow_zero, mul_one, ← Nat.cast_le (α := Rat)]
    have hk : (2 : Rat) ^ k = ((2 : Rat) ^ (k - q).toNat) * (2 : Rat) ^ q := by
      rw [← zpow_natCast, Int.toNat_of_nonneg (by omega), ← zpow_add₀ (by norm_num)]
      congr 1
      omega
    rw [hk]
    push_cast
    exact (mul_le_mul_iff_left₀ (by positivity)).symm
  · have hz : (k - q).toNat = 0 := by omega
    rw [hz, pow_zero, ← Nat.cast_le (α := Rat)]
    have hq : (m : Rat) * (2 : Rat) ^ q = ((m : Rat) * (2 : Rat) ^ (q - k).toNat) * (2 : Rat) ^ k := by
      rw [mul_assoc, ← zpow_natCast, Int.toNat_of_nonneg (by omega), ← zpow_add₀ (by norm_num)]
      congr 2
      omega
    rw [hq]
    push_cast
    exact (le_mul_iff_one_le_left (by positivity)).symm

end Sys2Proof.Machine
end

