-- ==== Sys2Proof/Laws/Lanes.lean ====
section
/-! SUPPORT. The lane laws (R13): reading a lane after writing it, leaving every other lane alone, and
the lanes of a packed or partly written container. -/

namespace Sys2Proof.Machine

theorem getLsbD_laneBits (n w i b : Nat) :
    (laneBits n w i).getLsbD b = decide (b < n ∧ w * i ≤ b ∧ b < w * i + w) := by
  simp only [laneBits, BitVec.getLsbD_shiftLeft, BitVec.getLsbD_setWidth, BitVec.getLsbD_allOnes]
  rw [Bool.eq_iff_iff]
  simp only [Bool.and_eq_true, decide_eq_true_eq, Bool.not_eq_true', decide_eq_false_iff_not]
  omega

/-- `setLane` bit by bit: lane `i` holds the new value, every other bit is kept. -/
theorem getLsbD_setLane {n w : Nat} (C : BitVec n) (i : Nat) (v : BitVec w) (b : Nat) :
    (setLane C i v).getLsbD b =
      if b < n ∧ w * i ≤ b ∧ b < w * i + w then v.getLsbD (b - w * i) else C.getLsbD b := by
  simp only [setLane, BitVec.getLsbD_or, BitVec.getLsbD_and, BitVec.getLsbD_not, getLsbD_laneBits,
    BitVec.getLsbD_shiftLeft, BitVec.getLsbD_setWidth]
  by_cases hn : b < n
  · by_cases h1 : w * i ≤ b
    · by_cases h2 : b < w * i + w
      · have : ¬ b < w * i := by omega
        have h3 : b - w * i < n := by omega
        simp [hn, h1, h2, this, h3]
      · have h4 : v.getLsbD (b - w * i) = false := BitVec.getLsbD_of_ge _ _ (by omega)
        simp [hn, h2, h4]
    · have : b < w * i := by omega
      simp [hn, h1, this]
  · simp [hn, BitVec.getLsbD_of_ge C b (by omega)]

theorem getLsbD_lane {n : Nat} (C : BitVec n) (w i b : Nat) :
    (lane C w i).getLsbD b = (decide (b < w) && C.getLsbD (w * i + b)) := by
  simp [lane, BitVec.getLsbD_extractLsb']

/-- A lane just written reads as written. -/
theorem lane_setLane_same {n w : Nat} (C : BitVec n) (i : Nat) (v : BitVec w)
    (h : w * i + w ≤ n) : lane (setLane C i v) w i = v := by
  apply BitVec.eq_of_getLsbD_eq
  intro b hb
  rw [getLsbD_lane, getLsbD_setLane]
  have : w * i + b < n ∧ w * i ≤ w * i + b ∧ w * i + b < w * i + w := by omega
  simp [hb, this]

theorem lanes_disjoint {w i j b : Nat} (hij : i ≠ j) (hb : b < w) :
    ¬(w * i ≤ w * j + b ∧ w * j + b < w * i + w) := by
  rintro ⟨h1, h2⟩
  rcases Nat.lt_or_gt_of_ne hij with h | h
  · have := Nat.mul_le_mul_left w h
    rw [Nat.mul_succ] at this
    omega
  · have := Nat.mul_le_mul_left w h
    rw [Nat.mul_succ] at this
    omega

/-- Writing a lane leaves every other lane alone. -/
theorem lane_setLane_ne {n w : Nat} (C : BitVec n) (i j : Nat) (v : BitVec w) (hij : i ≠ j) :
    lane (setLane C i v) w j = lane C w j := by
  apply BitVec.eq_of_getLsbD_eq
  intro b hb
  rw [getLsbD_lane, getLsbD_lane, getLsbD_setLane,
    if_neg (fun h => lanes_disjoint hij hb ⟨h.2.1, h.2.2⟩)]

/-- What a fold of `setLane` over the first `k` lanes leaves in each lane. -/
theorem lane_foldl_setLane {n w : Nat} (k : Nat) (g : Nat → BitVec w) (we : Nat → Bool)
    (C : BitVec n) (h : w * k ≤ n) (j : Nat) :
    lane ((List.range k).foldl (fun C i => if we i then setLane C i (g i) else C) C) w j =
      if j < k ∧ we j = true then g j else lane C w j := by
  induction k with
  | zero => simp
  | succ k ih =>
    have hk : w * k + w ≤ n := by rw [Nat.mul_succ] at h; exact h
    rw [List.range_succ, List.foldl_append]
    simp only [List.foldl_cons, List.foldl_nil]
    have ih' := ih (by omega)
    by_cases hjk : j = k
    · subst hjk
      cases hw : we j
      · simp [ih']
      · simp [lane_setLane_same _ _ _ hk]
    · have hlt : (j < k + 1 ∧ we j = true) ↔ (j < k ∧ we j = true) :=
        and_congr_left' (by omega)
      simp only [hlt]
      cases hw : we k
      · simpa using ih'
      · simpa [lane_setLane_ne _ _ _ _ (Ne.symm hjk)] using ih'

/-- The lanes of a packed container; the lanes above are 0. -/
theorem lane_packLanes {n w : Nat} (k : Nat) (g : Nat → BitVec w) (h : w * k ≤ n) (j : Nat) :
    lane (packLanes n w k g) w j = if j < k then g j else 0#w := by
  have := lane_foldl_setLane k g (fun _ => true) (0#n) h j
  simpa [packLanes, lane] using this

/-- The lanes of a partly written container. -/
theorem lane_writeLanes {n w : Nat} (k : Nat) (we : Nat → Bool) (src C : BitVec n)
    (h : w * k ≤ n) (j : Nat) :
    lane (writeLanes w k we src C) w j =
      if j < k ∧ we j = true then lane src w j else lane C w j :=
  lane_foldl_setLane k (fun i => lane src w i) we C h j

theorem lanes_fit (F : Format) : F.width * F.lanes ≤ 64 := by cases F <;> decide

theorem flagLanes_fit (F : Format) : 5 * F.lanes ≤ 20 := by cases F <;> decide

theorem elem_lanes_fit (ew : ElemWidth) : ew.bits * ew.lanes ≤ 128 := by cases ew <;> decide

theorem dz_lanes_fit (ew : ElemWidth) : 1 * ew.lanes ≤ 16 := by cases ew <;> decide

/-- Lane `i` of an issue's packed results (R160). -/
theorem lane_packResults (F : Format) (g : Nat → BitVec F.width × LaneFlags) (i : Nat)
    (h : i < F.lanes) : lane (packResults F g) F.width i = (g i).1 := by
  simp [packResults, lane_packLanes _ _ (lanes_fit F), h]

/-- Lane `i`'s field of an issue's packed flags (R140). -/
theorem lane_packFlags (F : Format) (g : Nat → BitVec F.width × LaneFlags) (i : Nat)
    (h : i < F.lanes) : lane (packFlags F g) 5 i = (g i).2 := by
  simp [packFlags, lane_packLanes _ _ (flagLanes_fit F), h]

end Sys2Proof.Machine
end

