-- ==== Sys2Proof/Laws/State.lean ====
section
/-! SUPPORT. What each update of State and of a unit leaves of each field: true by rfl, for simp. -/

namespace Sys2Proof.Machine

section Updates

variable (s : State) (f : FaddUnit) (m : FmaUnit) (d : DivUnit) (l : List CycleIn)

@[simp] theorem State.withFadd_params : (s.withFadd f).params = s.params := rfl
@[simp] theorem State.withFadd_cycle : (s.withFadd f).cycle = s.cycle := rfl
@[simp] theorem State.withFadd_draws : (s.withFadd f).draws = s.draws := rfl
@[simp] theorem State.withFadd_stim : (s.withFadd f).stim = s.stim := rfl
@[simp] theorem State.withFadd_fadd : (s.withFadd f).fadd = f := rfl
@[simp] theorem State.withFadd_fma : (s.withFadd f).fma = s.fma := rfl
@[simp] theorem State.withFadd_div : (s.withFadd f).div = s.div := rfl
@[simp] theorem State.withFadd_now : (s.withFadd f).now = s.now := rfl
@[simp] theorem State.withFadd_accepts : (s.withFadd f).accepts = s.accepts := rfl

@[simp] theorem State.withFma_params : (s.withFma m).params = s.params := rfl
@[simp] theorem State.withFma_cycle : (s.withFma m).cycle = s.cycle := rfl
@[simp] theorem State.withFma_draws : (s.withFma m).draws = s.draws := rfl
@[simp] theorem State.withFma_stim : (s.withFma m).stim = s.stim := rfl
@[simp] theorem State.withFma_fadd : (s.withFma m).fadd = s.fadd := rfl
@[simp] theorem State.withFma_fma : (s.withFma m).fma = m := rfl
@[simp] theorem State.withFma_div : (s.withFma m).div = s.div := rfl
@[simp] theorem State.withFma_now : (s.withFma m).now = s.now := rfl
@[simp] theorem State.withFma_accepts : (s.withFma m).accepts = s.accepts := rfl

@[simp] theorem State.withDiv_params : (s.withDiv d).params = s.params := rfl
@[simp] theorem State.withDiv_cycle : (s.withDiv d).cycle = s.cycle := rfl
@[simp] theorem State.withDiv_draws : (s.withDiv d).draws = s.draws := rfl
@[simp] theorem State.withDiv_stim : (s.withDiv d).stim = s.stim := rfl
@[simp] theorem State.withDiv_fadd : (s.withDiv d).fadd = s.fadd := rfl
@[simp] theorem State.withDiv_fma : (s.withDiv d).fma = s.fma := rfl
@[simp] theorem State.withDiv_div : (s.withDiv d).div = d := rfl
@[simp] theorem State.withDiv_now : (s.withDiv d).now = s.now := rfl

@[simp] theorem State.withStim_params : (s.withStim l).params = s.params := rfl
@[simp] theorem State.withStim_cycle : (s.withStim l).cycle = s.cycle := rfl
@[simp] theorem State.withStim_draws : (s.withStim l).draws = s.draws := rfl
@[simp] theorem State.withStim_stim : (s.withStim l).stim = l := rfl
@[simp] theorem State.withStim_fadd : (s.withStim l).fadd = s.fadd := rfl
@[simp] theorem State.withStim_fma : (s.withStim l).fma = s.fma := rfl
@[simp] theorem State.withStim_div : (s.withStim l).div = s.div := rfl

end Updates

section EndOfCycle

variable (s0 s : State)

@[simp] theorem State.endCycle_params : (s0.endCycle s).params = s.params := rfl
@[simp] theorem State.endCycle_cycle : (s0.endCycle s).cycle = s0.cycle + 1 := rfl
@[simp] theorem State.endCycle_draws : (s0.endCycle s).draws = s0.draws + 1 := rfl
@[simp] theorem State.endCycle_stim : (s0.endCycle s).stim = s0.stim.tail := rfl
@[simp] theorem State.endCycle_fadd :
    (s0.endCycle s).fadd = s.fadd.complete s0.params.addLatency.cycles s0.cycle := rfl
@[simp] theorem State.endCycle_fma :
    (s0.endCycle s).fma = s.fma.complete fmaLatency s0.cycle := rfl
@[simp] theorem State.endCycle_div : (s0.endCycle s).div = s0.nextDiv s.div := rfl

end EndOfCycle

section Reduction

variable (red : RedState) (T : Format) (rm : RoundingMode) (t : Nat) (res : Pack64)

@[simp] theorem RedState.closed_valid : red.closed.valid = false := rfl
@[simp] theorem RedState.closed_T : red.closed.T = red.T := rfl
@[simp] theorem RedState.closed_acc : red.closed.acc = red.acc := rfl
@[simp] theorem RedState.closed_last : red.closed.last = red.last := rfl
@[simp] theorem RedState.opened_valid : (RedState.opened T rm).valid = true := rfl
@[simp] theorem RedState.opened_T : (RedState.opened T rm).T = T := rfl
@[simp] theorem RedState.opened_acc :
    (RedState.opened T rm).acc = (identity T rm).setWidth 64 := rfl
@[simp] theorem RedState.opened_last : (RedState.opened T rm).last = none := rfl
@[simp] theorem RedState.folded_valid : (red.folded t).valid = red.valid := rfl
@[simp] theorem RedState.folded_T : (red.folded t).T = red.T := rfl
@[simp] theorem RedState.folded_acc : (red.folded t).acc = red.acc := rfl
@[simp] theorem RedState.folded_last : (red.folded t).last = some t := rfl
@[simp] theorem RedState.consumed_valid : (red.consumed res t).valid = false := rfl
@[simp] theorem RedState.consumed_T : (red.consumed res t).T = red.T := rfl
@[simp] theorem RedState.consumed_acc : (red.consumed res t).acc = res := rfl
@[simp] theorem RedState.consumed_last : (red.consumed res t).last = some t := rfl

end Reduction

end Sys2Proof.Machine
end

