-- ==== Sys2Proof/Laws/Ops.lean ====
section
/-! SUPPORT. One lemma per shared operation that says everything it can do. -/

namespace Sys2Proof.Machine

/-! ## Issue -/

@[simp] theorem State.issueFadd_fadd (s : State) (F r fl we red) :
    (s.issueFadd F r fl we red).fadd =
      { s.fadd with
        pipe := s.fadd.pipe ++ [{ issue := s.cycle, fmt := F, r := r, fl := fl, we := we }]
        red := red } := rfl

@[simp] theorem State.issueFma_fma (s : State) (F g) :
    (s.issueFma F g).fma =
      { s.fma with
        pipe := s.fma.pipe ++
          [{ issue := s.cycle, fmt := F, r := packResults F g, fl := packFlags F g }] } := rfl

/-- What a micro-op finds (R191, R192, R320). -/
theorem State.sequence_cases (s : State) (T rm u) :
    (u = 0#3 ∧ s.sequence T rm u = .run (RedState.opened T rm)) ∨
    (u ≠ 0#3 ∧ s.fadd.red.valid = false ∧ s.sequence T rm u = .refuse .noOpenSequence) ∨
    (u ≠ 0#3 ∧ s.fadd.red.valid = true ∧ s.fadd.red.T ≠ T ∧
      s.sequence T rm u = .refuse .sequenceFormat) ∨
    (u ≠ 0#3 ∧ s.fadd.red.valid = true ∧ s.fadd.red.T = T ∧ s.reductionTooClose = true ∧
      s.sequence T rm u = .refuse .reductionHazard) ∨
    (u ≠ 0#3 ∧ s.fadd.red.valid = true ∧ s.fadd.red.T = T ∧ s.reductionTooClose = false ∧
      s.sequence T rm u = .run s.fadd.red) := by
  unfold State.sequence
  by_cases hu : u = 0#3
  · simp [hu]
  · cases hv : s.fadd.red.valid
    · simp [hu]
    · by_cases hT : s.fadd.red.T = T
      · cases hc : s.reductionTooClose <;> simp [hu, hT]
      · simp [hu, hT]

/-- A sequence that runs is open and in the micro-op's format. -/
theorem State.sequence_run {s : State} {T rm u red} (h : s.sequence T rm u = .run red) :
    red.valid = true ∧ red.T = T := by
  rcases s.sequence_cases T rm u with ⟨_, e⟩ | ⟨_, _, e⟩ | ⟨_, _, _, e⟩ | ⟨_, _, _, _, e⟩ |
    ⟨_, hv, hT, _, e⟩ <;> rw [e] at h <;> cases h
  · exact ⟨rfl, rfl⟩
  · exact ⟨hv, hT⟩

/-! ## The reduction mask -/

/-- The mask selects no lane exactly when its bits below the lane count are 0 (R193, R200). -/
theorem selectsNone_iff {c : RedCtl} :
    selectsNone c = true ↔ ∀ i, i < c.fmt.lanes → c.redmask.getLsbD i = false := by
  simp [selectsNone]

@[simp] theorem terminalSum_none (P T rm acc k v g) :
    terminalSum P T rm true acc k v g = (identity T rm, noFlags) := rfl

@[simp] theorem terminalSum_some (P T rm acc k v g) :
    terminalSum P T rm false acc k v g =
      ((fAddCore P T rm (acc.setWidth T.width) (tree P T rm k v).1).1,
       g ||| (tree P T rm k v).2 |||
         (fAddCore P T rm (acc.setWidth T.width) (tree P T rm k v).1).2) := rfl

/-! ## Completion -/

/-- Completion either takes the oldest record, which is due, or changes only `out_valid` (R161). -/
theorem FaddUnit.complete_cases (u : FaddUnit) (L t : Nat) :
    (∃ rec rest, u.pipe = rec :: rest ∧ rec.issue + L = t ∧
      u.complete L t =
        { u with
          pipe := rest
          result := writeLanes rec.fmt.width rec.fmt.lanes rec.we.getLsbD rec.r u.result
          fflags := writeLanes 5 rec.fmt.lanes rec.we.getLsbD rec.fl 0#20
          outValid := true }) ∨
    ((∀ rec ∈ u.pipe.head?, rec.issue + L ≠ t) ∧
      u.complete L t = { u with outValid := false }) := by
  unfold FaddUnit.complete
  split
  · next h => exact .inr ⟨by simp [h], rfl⟩
  · next rec rest h =>
    by_cases hd : rec.issue + L = t
    · exact .inl ⟨rec, rest, h, hd, by simp [hd]⟩
    · exact .inr ⟨by simp [h, hd], by simp [hd]⟩

/-- Completion either takes the oldest record, which is due, or changes only `out_valid` (R230). -/
theorem FmaUnit.complete_cases (u : FmaUnit) (L t : Nat) :
    (∃ rec rest, u.pipe = rec :: rest ∧ rec.issue + L = t ∧
      u.complete L t =
        { u with
          pipe := rest
          result := writeLanes rec.fmt.width rec.fmt.lanes (fun _ => true) rec.r u.result
          fflags := writeLanes 5 rec.fmt.lanes (fun _ => true) rec.fl 0#20
          outValid := true }) ∨
    ((∀ rec ∈ u.pipe.head?, rec.issue + L ≠ t) ∧
      u.complete L t = { u with outValid := false }) := by
  unfold FmaUnit.complete
  split
  · next h => exact .inr ⟨by simp [h], rfl⟩
  · next rec rest h =>
    by_cases hd : rec.issue + L = t
    · exact .inl ⟨rec, rest, h, hd, by simp [hd]⟩
    · exact .inr ⟨by simp [h, hd], by simp [hd]⟩

/-! ## What one operation can do -/

/-- An FADD-unit operation that runs appends one record and sets `fadd.red`, and nothing else: an
ordinary operation closes the sequence, a fold step keeps it, a terminal step consumes it. -/
theorem exec_fadd_cases {i : Instr} {s t : State} (hu : i.unit = .fadd) (h : exec i s = .next t) :
    ∃ F r fl we red, t = s.issueFadd F r fl we red ∧
      (red = s.fadd.red.closed ∨
       (∃ T rm u red0, s.sequence T rm u = .run red0 ∧ red = red0.folded s.cycle) ∨
       (∃ T rm u red0, s.sequence T rm u = .run red0 ∧ red = red0.consumed r s.cycle)) := by
  cases i with
  | fadd c => cases h; exact ⟨_, _, _, _, _, rfl, .inl rfl⟩
  | fsub c => cases h; exact ⟨_, _, _, _, _, rfl, .inl rfl⟩
  | fmin c => cases h; exact ⟨_, _, _, _, _, rfl, .inl rfl⟩
  | fmax c => cases h; exact ⟨_, _, _, _, _, rfl, .inl rfl⟩
  | fclass c => cases h; exact ⟨_, _, _, _, _, rfl, .inl rfl⟩
  | fredsumFold c =>
    simp only [exec, execFredsumFold] at h
    split at h
    · cases h
    · next red0 e => cases h; exact ⟨_, _, _, _, _, rfl, .inr (.inl ⟨_, _, _, red0, e, rfl⟩)⟩
  | fredsum c =>
    simp only [exec, execFredsum] at h
    split at h
    · cases h
    · next red0 e => cases h; exact ⟨_, _, _, _, _, rfl, .inr (.inr ⟨_, _, _, red0, e, rfl⟩)⟩
  | fwredsum c =>
    simp only [exec, execFwredsum] at h
    split at h
    · cases h
    · split at h
      · cases h
      · next red0 e => cases h; exact ⟨_, _, _, _, _, rfl, .inr (.inr ⟨_, _, _, red0, e, rfl⟩)⟩
  | fmul c => cases hu
  | fmadd c => cases hu
  | fmsub c => cases hu
  | fnmadd c => cases hu
  | fnmsub c => cases hu
  | vdivu ew => cases hu
  | vdiv ew => cases hu

/-- An FMA-unit operation appends one record, and nothing else. -/
theorem exec_fma_cases {i : Instr} {s t : State} (hu : i.unit = .fma) (h : exec i s = .next t) :
    ∃ F g, t = s.issueFma F g := by
  cases i with
  | fmul c => cases h; exact ⟨_, _, rfl⟩
  | fmadd c => cases h; exact ⟨_, _, rfl⟩
  | fmsub c => cases h; exact ⟨_, _, rfl⟩
  | fnmadd c => cases h; exact ⟨_, _, rfl⟩
  | fnmsub c => cases h; exact ⟨_, _, rfl⟩
  | fadd c => cases hu
  | fsub c => cases hu
  | fmin c => cases hu
  | fmax c => cases hu
  | fclass c => cases hu
  | fredsumFold c => cases hu
  | fredsum c => cases hu
  | fwredsum c => cases hu
  | vdivu ew => cases hu
  | vdiv ew => cases hu

/-- A DIV-unit operation captures its request if the unit is ready, else changes nothing. -/
theorem exec_div_cases {i : Instr} {s t : State} (hu : i.unit = .div) (h : exec i s = .next t) :
    ∃ ew sg, (i = .vdivu ew ∧ sg = false ∨ i = .vdiv ew ∧ sg = true) ∧
      t = s.presentRequest ew sg := by
  cases i with
  | vdivu ew => cases h; exact ⟨ew, false, .inl ⟨rfl, rfl⟩, rfl⟩
  | vdiv ew => cases h; exact ⟨ew, true, .inr ⟨rfl, rfl⟩, rfl⟩
  | fadd c => cases hu
  | fsub c => cases hu
  | fmin c => cases hu
  | fmax c => cases hu
  | fclass c => cases hu
  | fredsumFold c => cases hu
  | fredsum c => cases hu
  | fwredsum c => cases hu
  | fmul c => cases hu
  | fmadd c => cases hu
  | fmsub c => cases hu
  | fnmadd c => cases hu
  | fnmsub c => cases hu

/-! ## One cycle -/

theorem onNext_eq_next {o : Host.Outcome State Fault Refusal} {k} {t : State} :
    onNext o k = .next t ↔ ∃ s, o = .next s ∧ k s = .next t := by
  cases o <;> simp [onNext]

/-- A unit's issue that answers a next state either took nothing or ran the decoded operation. -/
theorem issue_eq_next {u : UnitId} {s t : State} :
    issue u s = .next t ↔
      (s.fetches u = false ∧ t = s) ∨
      (s.fetches u = true ∧ ∃ i, decode u (s.ctlWord u) = .instr i ∧ exec i s = .next t) := by
  unfold issue
  cases h : s.fetches u
  · simp [eq_comm]
  · cases hd : decode u (s.ctlWord u) <;> simp

/-- A step that answers a next state: the three issues answered next states, one after the other, and
the cycle ended. -/
theorem step_eq_next {s t : State} :
    step s = .next t ↔
      ∃ s1 s2 s3, issue .fadd s = .next s1 ∧ issue .fma s1 = .next s2 ∧ issue .div s2 = .next s3 ∧
        t = s.endCycle s3 := by
  simp only [step, oneCycle, issueAll, onNext_eq_next]
  constructor
  · rintro ⟨s3, ⟨s1, h1, s2, h2, h3⟩, h4⟩
    cases h4
    exact ⟨s1, s2, s3, h1, h2, h3, rfl⟩
  · rintro ⟨s1, s2, s3, h1, h2, h3, rfl⟩
    exact ⟨s3, ⟨s1, h1, s2, h2, h3⟩, rfl⟩

/-- No step faults (R290). -/
theorem no_fault (s : State) (r : Fault) : step s ≠ .fault r := nomatch r

end Sys2Proof.Machine
end

