-- ==== Sys2Proof/Laws/PerInstr.lean ====
section
/-! SUPPORT. Per-instruction facts. TableRow: the word `encode` gives an operation has the fixed bits of
the operation's row in spec/opcode_table.json. -/

namespace Sys2Proof.Laws

/-- A row's mask in spec/opcode_table.json. -/
def rowMask : Instr → CtlWord
  | .fadd _ => 0xFF84001F#32
  | .fsub _ => 0xFF84001F#32
  | .fmin _ => 0xFF84001F#32
  | .fmax _ => 0xFF84001F#32
  | .fclass _ => 0xFF84001F#32
  | .fredsumFold _ => 0xFF8C001F#32
  | .fredsum _ => 0xFF8C001F#32
  | .fwredsum _ => 0xFF8C001F#32
  | .fmul _ => 0xFFFFFC1F#32
  | .fmadd _ => 0xFFFFFC1F#32
  | .fmsub _ => 0xFFFFFC1F#32
  | .fnmadd _ => 0xFFFFFC1F#32
  | .fnmsub _ => 0xFFFFFC1F#32
  | .vdivu _ => 0xFFFFFFFC#32
  | .vdiv _ => 0xFFFFFFFC#32

/-- A row's match in spec/opcode_table.json. -/
def rowMatch : Instr → CtlWord
  | .fadd _ => 0x00000000#32
  | .fsub _ => 0x00000001#32
  | .fmin _ => 0x00000002#32
  | .fmax _ => 0x00000003#32
  | .fclass _ => 0x00000004#32
  | .fredsumFold _ => 0x00080005#32
  | .fredsum _ => 0x00000005#32
  | .fwredsum _ => 0x00040005#32
  | .fmul _ => 0x00000000#32
  | .fmadd _ => 0x00000001#32
  | .fmsub _ => 0x00000002#32
  | .fnmadd _ => 0x00000003#32
  | .fnmsub _ => 0x00000004#32
  | .vdivu _ => 0x00000000#32
  | .vdiv _ => 0x00000004#32

/-- The word of an operation matches its row. -/
def TableRow.Statement (i : Instr) : Prop := encode i &&& rowMask i = rowMatch i

/-- The bits of ACW a non-reduction row fixes. -/
theorem acwOrdinary_fixed (op : BitVec 5) (c : AddCtl) :
    acwOrdinary op c &&& 0xFF84001F#32 = op.setWidth 32 := by
  ext b hb
  simp only [acwOrdinary, acw, BitVec.getElem_and, BitVec.getElem_append]
  interval_cases b <;> simp [BitVec.getElem_setWidth]

/-- The bits of ACW a reduction row fixes. -/
theorem acwReduction_fixed (isFold widen : Bool) (c : RedCtl) :
    acwReduction isFold widen c &&& 0xFF8C001F#32 =
      (BitVec.ofBool isFold ++ BitVec.ofBool widen ++ 0x00005#18).setWidth 32 := by
  ext b hb
  simp only [acwReduction, acw, BitVec.getElem_and, BitVec.getElem_append, BitVec.getElem_setWidth,
    BitVec.getLsbD_append]
  interval_cases b <;> simp

/-- The bits of FCW a row fixes. -/
theorem fcw_fixed (op : BitVec 5) (c : FmaCtl) :
    fcw op c &&& 0xFFFFFC1F#32 = op.setWidth 32 := by
  ext b hb
  simp only [fcw, BitVec.getElem_and, BitVec.getElem_append]
  interval_cases b <;> simp [BitVec.getElem_setWidth]

theorem TableRow.fadd (c : AddCtl) : TableRow.Statement (.fadd c) := acwOrdinary_fixed _ c
theorem TableRow.fsub (c : AddCtl) : TableRow.Statement (.fsub c) := acwOrdinary_fixed _ c
theorem TableRow.fmin (c : AddCtl) : TableRow.Statement (.fmin c) := acwOrdinary_fixed _ c
theorem TableRow.fmax (c : AddCtl) : TableRow.Statement (.fmax c) := acwOrdinary_fixed _ c
theorem TableRow.fclass (c : AddCtl) : TableRow.Statement (.fclass c) := acwOrdinary_fixed _ c
theorem TableRow.fredsumFold (c : RedCtl) : TableRow.Statement (.fredsumFold c) :=
  acwReduction_fixed _ _ c
theorem TableRow.fredsum (c : RedCtl) : TableRow.Statement (.fredsum c) := acwReduction_fixed _ _ c
theorem TableRow.fwredsum (c : RedCtl) : TableRow.Statement (.fwredsum c) :=
  acwReduction_fixed _ _ c
theorem TableRow.fmul (c : FmaCtl) : TableRow.Statement (.fmul c) := fcw_fixed _ c
theorem TableRow.fmadd (c : FmaCtl) : TableRow.Statement (.fmadd c) := fcw_fixed _ c
theorem TableRow.fmsub (c : FmaCtl) : TableRow.Statement (.fmsub c) := fcw_fixed _ c
theorem TableRow.fnmadd (c : FmaCtl) : TableRow.Statement (.fnmadd c) := fcw_fixed _ c
theorem TableRow.fnmsub (c : FmaCtl) : TableRow.Statement (.fnmsub c) := fcw_fixed _ c
theorem TableRow.vdivu (ew : ElemWidth) : TableRow.Statement (.vdivu ew) := by
  cases ew <;> rfl
theorem TableRow.vdiv (ew : ElemWidth) : TableRow.Statement (.vdiv ew) := by
  cases ew <;> rfl

end Sys2Proof.Laws
end

