-- ==== Sys2Proof/Laws/Step.lean ====
section
/-! SUPPORT. What one step can do, unit by unit (R8, R79): each unit's part of the next state is its own
issue from the state at the start of the cycle, then the end of the cycle. -/

namespace Sys2Proof.Machine

/-- A decoded operation belongs to the unit whose control word it was read from. -/
theorem decode_unit {u : UnitId} {w : CtlWord} {i : Instr} (h : decode u w = .instr i) :
    i.unit = u := by
  cases u <;> simp only [decode, decodeAcw, decodeFcw, decodeDcw, withFormatAndRounding] at h
  · split at h
    · cases h
    · split at h
      · cases h
      · split at h
        · cases h
        · simp only [acwOperation, ordinaryOf, reductionOf] at h
          repeat' split at h
          all_goals cases h
          all_goals rfl
  · split at h
    · cases h
    · split at h
      · cases h
      · split at h
        · cases h
        · simp only [fcwOperation] at h
          repeat' split at h
          all_goals cases h
          all_goals rfl
  · repeat' split at h
    all_goals cases h
    all_goals rfl

/-- An FMA-unit or DIV-unit operation neither reads nor writes the FADD-unit (R8). -/
theorem exec_withFadd {i : Instr} (h : i.unit ≠ .fadd) (s : State) (f : FaddUnit) :
    exec i (s.withFadd f) = onNext (exec i s) fun t => .next (t.withFadd f) := by
  cases i with
  | fmul c => rfl
  | fmadd c => rfl
  | fmsub c => rfl
  | fnmadd c => rfl
  | fnmsub c => rfl
  | vdivu ew =>
    simp only [exec, execVdivu, State.presentRequest, onNext]
    change Host.Outcome.next (if s.inReady then _ else _) = _
    split <;> rfl
  | vdiv ew =>
    simp only [exec, execVdiv, State.presentRequest, onNext]
    change Host.Outcome.next (if s.inReady then _ else _) = _
    split <;> rfl
  | fadd c => exact absurd rfl h
  | fsub c => exact absurd rfl h
  | fmin c => exact absurd rfl h
  | fmax c => exact absurd rfl h
  | fclass c => exact absurd rfl h
  | fredsumFold c => exact absurd rfl h
  | fredsum c => exact absurd rfl h
  | fwredsum c => exact absurd rfl h

/-- A DIV-unit operation neither reads nor writes the FMA-unit (R8). -/
theorem exec_withFma {i : Instr} (h : i.unit = .div) (s : State) (m : FmaUnit) :
    exec i (s.withFma m) = onNext (exec i s) fun t => .next (t.withFma m) := by
  cases i with
  | vdivu ew =>
    simp only [exec, execVdivu, State.presentRequest, onNext]
    change Host.Outcome.next (if s.inReady then _ else _) = _
    split <;> rfl
  | vdiv ew =>
    simp only [exec, execVdiv, State.presentRequest, onNext]
    change Host.Outcome.next (if s.inReady then _ else _) = _
    split <;> rfl
  | fadd c => cases h
  | fsub c => cases h
  | fmin c => cases h
  | fmax c => cases h
  | fclass c => cases h
  | fredsumFold c => cases h
  | fredsum c => cases h
  | fwredsum c => cases h
  | fmul c => cases h
  | fmadd c => cases h
  | fmsub c => cases h
  | fnmadd c => cases h
  | fnmsub c => cases h

/-- `p` is the part `part` of what unit `u` issues in the cycle that begins in `s`: unchanged where it
takes no operation, else that of its decoded operation's meaning. -/
def Issued {α : Type} (u : UnitId) (part : State → α) (s : State) (p : α) : Prop :=
  (s.fetches u = false ∧ p = part s) ∨
  (s.fetches u = true ∧ ∃ i t, decode u (s.ctlWord u) = .instr i ∧ i.unit = u ∧
    exec i s = .next t ∧ p = part t)

/-- Everything a step that answers a next state does, unit by unit. -/
theorem step_parts {s t : State} (h : step s = .next t) :
    t.params = s.params ∧ t.cycle = s.cycle + 1 ∧ t.draws = s.draws + 1 ∧ t.stim = s.stim.tail ∧
    (∃ f, Issued .fadd State.fadd s f ∧
      t.fadd = f.complete s.params.addLatency.cycles s.cycle) ∧
    (∃ m, Issued .fma State.fma s m ∧ t.fma = m.complete fmaLatency s.cycle) ∧
    (∃ d, Issued .div State.div s d ∧ t.div = s.nextDiv d) := by
  obtain ⟨s1, s2, s3, h1, h2, h3, rfl⟩ := step_eq_next.1 h
  have a1 : ∃ f, s1 = s.withFadd f ∧ Issued .fadd State.fadd s f := by
    rcases issue_eq_next.1 h1 with ⟨hf, rfl⟩ | ⟨hf, i, hd, he⟩
    · exact ⟨_, rfl, .inl ⟨hf, rfl⟩⟩
    · obtain ⟨F, r, fl, we, red, rfl, -⟩ := exec_fadd_cases (decode_unit hd) he
      exact ⟨_, rfl, .inr ⟨hf, i, _, hd, decode_unit hd, he, rfl⟩⟩
  obtain ⟨f, rfl, hf⟩ := a1
  have a2 : ∃ m, s2 = (s.withFadd f).withFma m ∧ Issued .fma State.fma s m := by
    rcases issue_eq_next.1 h2 with ⟨hf, rfl⟩ | ⟨hf, i, hd, he⟩
    · exact ⟨_, rfl, .inl ⟨hf, rfl⟩⟩
    · have hu := decode_unit hd
      rw [exec_withFadd (by rw [hu]; decide)] at he
      obtain ⟨t, ht, he⟩ := onNext_eq_next.1 he
      cases he
      obtain ⟨F, g, rfl⟩ := exec_fma_cases hu ht
      exact ⟨_, rfl, .inr ⟨hf, i, _, hd, hu, ht, rfl⟩⟩
  obtain ⟨m, rfl, hm⟩ := a2
  have a3 : ∃ d, s3 = ((s.withFadd f).withFma m).withDiv d ∧ Issued .div State.div s d := by
    rcases issue_eq_next.1 h3 with ⟨hf, rfl⟩ | ⟨hf, i, hd, he⟩
    · exact ⟨_, rfl, .inl ⟨hf, rfl⟩⟩
    · have hu := decode_unit hd
      rw [exec_withFma hu] at he
      obtain ⟨t, ht, he⟩ := onNext_eq_next.1 he
      rw [exec_withFadd (by rw [hu]; decide)] at ht
      obtain ⟨t', ht', ht⟩ := onNext_eq_next.1 ht
      cases he
      cases ht
      obtain ⟨ew, sg, -, rfl⟩ := exec_div_cases hu ht'
      refine ⟨_, ?_, .inr ⟨hf, i, _, hd, hu, ht', rfl⟩⟩
      unfold State.presentRequest
      split <;> rfl
  obtain ⟨d, rfl, hd⟩ := a3
  exact ⟨rfl, rfl, rfl, rfl, ⟨f, hf, rfl⟩, ⟨m, hm, rfl⟩, ⟨d, hd, rfl⟩⟩

end Sys2Proof.Machine
end

