-- ==== Sys2Proof/Tests/Slice0.lean ====
section
/-! SUPPORT. Tests. Expected words and values are those of 95_test_vectors.md and of the examples in the
rules. Each `witness_<Name>` meets the hypotheses of `Obligations.<Name>` with concrete values. -/

namespace Sys2Proof.Tests

open Sys2Proof Sys2Proof.Machine Sys2Proof.Claims

/-! ## Small states -/

/-- A build with `ADD_LATENCY = 2` and `DIV_CYCLES` 1, 1, 1, 2. -/
def build : Params :=
  { addLatency := .two, divTiming := { base := 0, inc16 := 0, inc32 := 0, inc64 := 1 }
    tininess := .beforeRounding, nanResult := .canonical }

/-- The reset state of that build. -/
def base : State := { State.reset with params := build }

/-- `base` in cycle `t` with these actions driven. -/
def driven (acts : List Action) (t : Nat := 0) : State :=
  { base with cycle := t, stim := [acts.foldl CycleIn.drive CycleIn.idle] }

/-- The FADD-unit with an F16 sequence open since cycle 0. -/
def openF16 : FaddUnit :=
  { base.fadd with red := { valid := true, T := .f16, acc := 0x8000#64, last := some 0 } }

/-- `driven` with that sequence open. -/
def opened (acts : List Action) (t : Nat) : State := (driven acts t).withFadd openF16

/-- The DIV-unit with a vdivu.e64 request, in a given state. -/
def divIn (st : DivSt) (cnt : Nat) : DivUnit :=
  { base.div with
    st := st, cnt := cnt
    req := { ew := .e64, signed := false, dividend := 0#128, divisor := 1#128 }
    quotient := 0#128, remainder := 0#128
    dzmask := 0x2#16 }

/-- A full machine at the start of cycle 4: a record due in each floating unit and one behind it. -/
def busy : State :=
  { base with
    cycle := 4
    fadd := { openF16 with
      pipe := [{ issue := 2, fmt := .f16, r := 0x4000#64, fl := 1#20, we := 0x5#4 },
               { issue := 3, fmt := .f32, r := 0#64, fl := 0#20, we := 0xF#4 }] }
    fma := { base.fma with
      pipe := [{ issue := 0, fmt := .f32, r := 0x40C00000#64, fl := 3#20 },
               { issue := 3, fmt := .f64, r := 0#64, fl := 0#20 }] }
    div := divIn .busy 1 }

/-- Result and flags of the newest FADD-unit record after a step. -/
def faddOf (s : State) : Option (Pack64 × FlagReg) :=
  match step s with
  | .next t => t.fadd.pipe.getLast?.map fun rec => (rec.r, rec.fl)
  | _ => none

/-- Result and flags of the newest FMA-unit record after a step. -/
def fmaOf (s : State) : Option (Pack64 × FlagReg) :=
  match step s with
  | .next t => t.fma.pipe.getLast?.map fun rec => (rec.r, rec.fl)
  | _ => none

/-- State and count of the DIV-unit after a step. -/
def divOf (s : State) : Option (DivSt × Nat) :=
  match step s with
  | .next t => some (t.div.st, t.div.cnt)
  | _ => none

/-- Why a step is refused. -/
def refusalOf (s : State) : Option Refusal :=
  match step s with
  | .refused r => some r
  | _ => none

/-! ## WellFormed -/

theorem test_wf_refuses_widened_f64 :
    (Instr.fwredsum (asmRed .f64 0xF#4 0#3)).wf = false := by decide

theorem test_wf_admits_widened_f32 :
    (Instr.fwredsum (asmRed .f32 0xF#4 0#3)).wf = true := by decide

theorem test_illformed_word_is_rejected :
    decode .fadd (encode (.fwredsum (asmRed .f64 0xF#4 0#3))) = .reject .widenedF64 := by decide

theorem test_illformed_meaning_is_refused :
    ∃ s, exec (.fwredsum (asmRed .f64 0xF#4 0#3)) s = .refused .noWiderFormat :=
  ⟨base, rfl⟩

/-! ## Decode: each word written field by field, most significant first (R91 to R99) -/

-- ACW: reserved, uop, is_fold, widen, redmask, mask, rm, fmt, op.

theorem test_decode_fadd :
    decode .fadd (0#9 ++ 0b101#3 ++ 1#1 ++ 0#1 ++ 0x9#4 ++ 0x6#4 ++ 0b100#3 ++ 0b01#2 ++ 0x00#5) =
      .instr (.fadd { fmt := .f16, rm := .rmm, mask := 0x6#4, redmask := 0x9#4, isFold := true
                      uop := 5#3 }) := by decide

theorem test_decode_fsub :
    decode .fadd (0#9 ++ 0#3 ++ 0#1 ++ 0#1 ++ 0#4 ++ 0xF#4 ++ 0b010#3 ++ 0b10#2 ++ 0x01#5) =
      .instr (.fsub (asmAdd .f32 .rdn)) := by decide

theorem test_decode_fmin :
    decode .fadd (0#9 ++ 0#3 ++ 0#1 ++ 0#1 ++ 0#4 ++ 0xF#4 ++ 0b000#3 ++ 0b11#2 ++ 0x02#5) =
      .instr (.fmin (asmAdd .f64)) := by decide

theorem test_decode_fmax :
    decode .fadd (0#9 ++ 0#3 ++ 0#1 ++ 0#1 ++ 0#4 ++ 0x3#4 ++ 0b000#3 ++ 0b01#2 ++ 0x03#5) =
      .instr (.fmax (asmAdd .f16 .rne 0x3#4)) := by decide

theorem test_decode_fclass :
    decode .fadd (0#9 ++ 0#3 ++ 0#1 ++ 0#1 ++ 0#4 ++ 0xF#4 ++ 0b000#3 ++ 0b11#2 ++ 0x04#5) =
      .instr (.fclass (asmClass .f64)) := by decide

theorem test_decode_fredsum_fold :
    decode .fadd (0#9 ++ 0b001#3 ++ 1#1 ++ 0#1 ++ 0x3#4 ++ 0#4 ++ 0b011#3 ++ 0b10#2 ++ 0x05#5) =
      .instr (.fredsumFold (asmRed .f32 0x3#4 1#3 .rup)) := by decide

theorem test_decode_fredsum :
    decode .fadd (0#9 ++ 0b000#3 ++ 0#1 ++ 0#1 ++ 0x1#4 ++ 0#4 ++ 0b001#3 ++ 0b11#2 ++ 0x05#5) =
      .instr (.fredsum (asmRed .f64 0x1#4 0#3 .rtz)) := by decide

theorem test_decode_fwredsum :
    decode .fadd (0#9 ++ 0b010#3 ++ 0#1 ++ 1#1 ++ 0x3#4 ++ 0#4 ++ 0b000#3 ++ 0b10#2 ++ 0x05#5) =
      .instr (.fwredsum (asmRed .f32 0x3#4 2#3)) := by decide

-- FCW: reserved, rm, fmt, op. DCW: reserved, signed, ew.

theorem test_decode_fmul :
    decode .fma (0#22 ++ 0b000#3 ++ 0b01#2 ++ 0x00#5) = .instr (.fmul (asmFma .f16)) := by decide

theorem test_decode_fmadd :
    decode .fma (0#22 ++ 0b001#3 ++ 0b10#2 ++ 0x01#5) = .instr (.fmadd (asmFma .f32 .rtz)) := by
  decide

theorem test_decode_fmsub :
    decode .fma (0#22 ++ 0b010#3 ++ 0b11#2 ++ 0x02#5) = .instr (.fmsub (asmFma .f64 .rdn)) := by
  decide

theorem test_decode_fnmadd :
    decode .fma (0#22 ++ 0b011#3 ++ 0b10#2 ++ 0x03#5) = .instr (.fnmadd (asmFma .f32 .rup)) := by
  decide

theorem test_decode_fnmsub :
    decode .fma (0#22 ++ 0b100#3 ++ 0b01#2 ++ 0x04#5) = .instr (.fnmsub (asmFma .f16 .rmm)) := by
  decide

theorem test_decode_vdivu :
    decode .div (0#29 ++ 0#1 ++ 0b10#2) = .instr (.vdivu .e32) := by decide

theorem test_decode_vdiv :
    decode .div (0#29 ++ 1#1 ++ 0b11#2) = .instr (.vdiv .e64) := by decide

theorem test_decode_rejects_reserved_bits :
    decode .fadd 0x00803C20#32 = .reject .reservedBits ∧
    decode .fma 0x00000420#32 = .reject .reservedBits ∧
    decode .div 0x00000008#32 = .reject .reservedBits := by decide

theorem test_decode_rejects_reserved_codes :
    decode .fadd 0x00003C00#32 = .reject .reservedFormat ∧
    decode .fadd 0x00003C26#32 = .reject .reservedOpcode ∧
    decode .fma 0x000002A0#32 = .reject .reservedRounding ∧
    decode .fadd 0x00043C20#32 = .reject .widenedOrdinary ∧
    decode .fadd 0x000C0025#32 = .reject .widenedFold := by decide

theorem test_table_word_units :
    decodeTableWord 32 0x00003C20 = some (.fadd (asmAdd .f16)) ∧
    decodeTableWord 32 0x000000C1 = some (.fmadd (asmFma .f32 .rtz)) ∧
    decodeTableWord 32 0x00000007 = some (.vdiv .e64) ∧
    decodeTableWord 32 0xFFFFFFFF = none := by decide

/-! ## One step from reset, whatever the OPEN parameters are -/

theorem test_reset_runs_fetched_words :
    (∃ t, step (State.reset.withFetchWord 32 0x00003C20) = .next t ∧ t.fadd.pipe.length = 1) ∧
    (∃ t, step (State.reset.withFetchWord 32 0x000000C1) = .next t ∧ t.fma.pipe.length = 1) ∧
    (∃ t, step (State.reset.withFetchWord 32 0x00000007) = .next t ∧ t.div.st = .busy) :=
  ⟨⟨_, rfl, rfl⟩, ⟨_, rfl, rfl⟩, ⟨_, rfl, rfl⟩⟩

/-! ## One issue of each operation -/

/-- 95_test_vectors.md S1. -/
theorem test_fadd_snan :
    faddOf (driven [.fadd 0x00003C20#32 0x7D00#64 0x3C00#64 0#64]) =
      some (0x7E00#64, 0x00010#20) := by decide +kernel

/-- 95_test_vectors.md A9 (rup, then rdn in the same lanes' negation A10). -/
theorem test_fadd_overflow :
    faddOf (driven [.fadd 0x00003DA0#32 0x7BFF#64 0x7BFF#64 0#64]) = some (0x7C00#64, 0x00005#20) ∧
    faddOf (driven [.fadd 0x00003DA0#32 0xFBFF#64 0xFBFF#64 0#64]) =
      some (0xFBFF#64, 0x00005#20) := by decide +kernel

/-- The example of R163. -/
theorem test_fsub_rdn :
    faddOf (driven [.fadd 0x00003D41#32 0x3F800000#64 0x3F800000#64 0#64]) =
      some (0x8000000080000000#64, 0#20) := by decide +kernel

/-- The example of R164. -/
theorem test_fmin :
    faddOf (driven [.fadd 0x00003C22#32 0x40004000#64 0x3C003C00#64 0#64]) =
      some (0x3C003C00#64, 0#20) := by decide +kernel

/-- R164, corner cases: `min(+0, -0)`, `min(x, sNaN)`. -/
theorem test_fmin_corners :
    faddOf (driven [.fadd 0x00003C22#32 0x3C000000#64 0x7D008000#64 0#64]) =
      some (0x3C008000#64, 0x00200#20) := by decide +kernel

/-- 95_test_vectors.md S2. -/
theorem test_fmax :
    faddOf (driven [.fadd 0x00003C23#32 0x40004000#64 0x3C003C00#64 0#64]) =
      some (0x40004000#64, 0#20) := by decide +kernel

/-- R165, corner cases: `max(-0, +0)`, `max(-inf, 1)`. -/
theorem test_fmax_corners :
    faddOf (driven [.fadd 0x00003C23#32 0xFC008000#64 0x3C000000#64 0#64]) =
      some (0x3C000000#64, 0#20) := by decide +kernel

/-- 95_test_vectors.md S4 and S5. -/
theorem test_fclass :
    faddOf (driven [.fadd 0x00003C64#32 0x7FF0000000000001#64 0#64 0#64]) =
      some (0x100#64, 0#20) ∧
    faddOf (driven [.fadd 0x00003C64#32 0x7FF8000000000000#64 0#64 0#64]) =
      some (0x200#64, 0#20) := by decide +kernel

/-- The example of R194. -/
theorem test_fredsum_fold :
    faddOf (driven
      [.fadd 0x0008C025#32 0x4400420040003C00#64 0#64 0x0000000044004200#64]) =
      some (0x8000800046004400#64, 0#20) := by decide +kernel

/-- The example of R195, two cycles after the step that opened the sequence, and R200: with no lane
selected, the identity of the step's own mode, here RDN in a sequence opened under RNE. -/
theorem test_fredsum :
    faddOf (opened [.fadd 0x0010C025#32 0x8000800046004400#64 0#64 0#64] 2) =
      some (0x4900#64, 0#20) ∧
    faddOf (opened [.fadd 0x00100125#32 0x8000800046004400#64 0#64 0#64] 2) =
      some (0#64, 0#20) := by decide +kernel

/-- R320: one cycle after is refused. -/
theorem test_fredsum_hazard :
    refusalOf (opened [.fadd 0x0010C025#32 0x8000800046004400#64 0#64 0#64] 1) =
      some .reductionHazard := by decide +kernel

/-- The example of R196. -/
theorem test_fwredsum :
    faddOf (driven [.fadd 0x0007C025#32 0x3C003C003C003C00#64 0#64 0#64]) =
      some (0x40800000#64, 0#20) := by decide +kernel

/-- 95_test_vectors.md S7. -/
theorem test_fmul_ignores_c :
    fmaOf (driven [.fma 0x00000040#32 0x40000000#64 0x40400000#64 0x3F800000#64]) =
      some (0x40C00000#64, 0#20) := by decide +kernel

/-- 95_test_vectors.md S9. -/
theorem test_fmul_underflow :
    fmaOf (driven [.fma 0x00000060#32 0x0010000000000000#64 0x0010000000000000#64 0#64]) =
      some (0#64, 0x00003#20) := by decide +kernel

/-- 95_test_vectors.md S8. -/
theorem test_fmadd_zero_times_inf :
    fmaOf (driven [.fma 0x00000041#32 0#64 0x7F8000007F800000#64 0x7F8000017FC00000#64]) =
      some (0x7FC000007FC00000#64, 0x00210#20) := by decide +kernel

/-- The example of R224. -/
theorem test_fmsub :
    fmaOf (driven [.fma 0x00000042#32 0x40000000#64 0x40400000#64 0x3F800000#64]) =
      some (0x40A00000#64, 0#20) := by decide +kernel

/-- The example of R225. -/
theorem test_fnmadd :
    fmaOf (driven [.fma 0x00000043#32 0x40000000#64 0x40400000#64 0x3F800000#64]) =
      some (0x80000000C0E00000#64, 0#20) := by decide +kernel

/-- The example of R226. -/
theorem test_fnmsub :
    fmaOf (driven [.fma 0x00000044#32 0x40000000#64 0x40400000#64 0x3F800000#64]) =
      some (0x00000000C0A00000#64, 0#20) := by decide +kernel

/-- 95_test_vectors.md section 2.6: -7 / 2, -7 / -2 and MIN / -1 at e8. -/
theorem test_vdiv_lanes :
    divLaneS 0xF9#8 0x02#8 = { q := 0xFD#8, r := 0xFF#8, z := false } ∧
    divLaneS 0xF9#8 0xFE#8 = { q := 0x03#8, r := 0xFF#8, z := false } ∧
    divLaneS 0x80#8 0xFF#8 = { q := 0x80#8, r := 0x00#8, z := false } := by decide

/-- R256: the request is captured and BUSY begins. -/
theorem test_vdiv_captured :
    divOf (driven [.div 0x00000007#32 5#128 2#128]) = some (.busy, 2) := by decide +kernel

/-- 95_test_vectors.md section 2.6: -7 / 2, MIN / -1 and MIN / 0 at e8, unsigned. -/
theorem test_vdivu_lanes :
    divLaneU 0xF9#8 0x02#8 = { q := 0x7C#8, r := 0x01#8, z := false } ∧
    divLaneU 0x80#8 0xFF#8 = { q := 0x00#8, r := 0x80#8, z := false } ∧
    divLaneU 0x80#8 0x00#8 = { q := 0xFF#8, r := 0x80#8, z := true } := by decide

/-- 95_test_vectors.md S11. -/
theorem test_vdivu_by_zero :
    let q : DivReq := { ew := .e64, signed := false
                        dividend := 0x00000000000000090000000000000005#128, divisor := 0#128 }
    q.quotient = BitVec.allOnes 128 ∧ q.remainder = q.dividend ∧ q.dzmask = 0x0003#16 := by
  decide +kernel

/-! ## One completion of each floating unit -/

/-- R161: the masked lanes hold and their flag fields are 0. -/
theorem test_fadd_completion :
    ∃ t, step busy = .next t ∧ t.fadd.outValid = true ∧ t.fadd.result = 0x4000#64 ∧
      t.fadd.fflags = 1#20 ∧ t.fma.result = 0x40C00000#64 ∧ t.fma.fflags = 3#20 :=
  ⟨_, rfl, rfl, by decide +kernel, by decide +kernel, by decide +kernel, by decide +kernel⟩

/-! ## Witnesses: encoding and one step -/

theorem witness_DecodeEncodeRoundTrip :
    (Instr.fwredsum (asmRed .f32 0xF#4 7#3 .rmm)).wf = true := by decide

/-- Every field at its greatest value. -/
theorem witness_DecodedWordIsItsEncoding :
    decode .fadd 0x007BFE65#32 =
      .instr (.fredsumFold { fmt := .f64, rm := .rmm, mask := 0xF#4, redmask := 0xF#4, uop := 7#3 })
    := by decide

/-- A word driven on a floating unit is what that unit's ports hold. -/
theorem driven_words (w : CtlWord) :
    (driven [.fadd w 0#64 0#64 0#64]).now.fadd.start = true ∧
    (driven [.fadd w 0#64 0#64 0#64]).now.fadd.acw = w ∧
    (driven [.fma w 0#64 0#64 0#64]).now.fma.start = true ∧
    (driven [.fma w 0#64 0#64 0#64]).now.fma.fcw = w := ⟨rfl, rfl, rfl, rfl⟩

/-- With `driven_words`: for each reason to refuse, on each unit that has it, a word at each end of the
range. -/
theorem witness_RefusedWordsAreRefused :
    (wordFmt 0x00003C00#32 = 0#2 ∧ wordFmt 0x00000000#32 = 0#2) ∧
    (wordOp 0x00003C26#32 = 6#5 ∧ wordOp 0x00003C3F#32 = 31#5 ∧
      wordOp 0x00000025#32 = 5#5 ∧ wordOp 0x0000003F#32 = 31#5 ∧
      6 ≤ (6#5 : BitVec 5).toNat ∧ 6 ≤ (31#5 : BitVec 5).toNat ∧ 5 ≤ (5#5 : BitVec 5).toNat) ∧
    (wordRm 0x00003EA0#32 = 5#3 ∧ wordRm 0x00003FA0#32 = 7#3 ∧
      wordRm 0x000002A0#32 = 5#3 ∧ wordRm 0x000003A0#32 = 7#3 ∧
      5 ≤ (5#3 : BitVec 3).toNat ∧ 5 ≤ (7#3 : BitVec 3).toNat) ∧
    (acwWiden 0x00043C20#32 = true ∧ wordOp 0x00043C20#32 = 0#5 ∧
      acwWiden 0x00043C24#32 = true ∧ wordOp 0x00043C24#32 = 4#5 ∧ (4#5 : BitVec 5).toNat ≤ 4 ∧
      acwWiden 0x000C0025#32 = true ∧ wordOp 0x000C0025#32 = 0x05#5 ∧
      acwIsFold 0x000C0025#32 = true ∧
      acwWiden 0x00040065#32 = true ∧ wordOp 0x00040065#32 = 0x05#5 ∧
      wordFmt 0x00040065#32 = 0b11#2) := by decide

/-- The ports of one operation on each unit, one at a time. -/
def onlyOn : UnitId → State
  | .fadd => driven [.fadd 0x00003C20#32 0x3C00#64 0x3C00#64 0#64]
  | .fma => driven [.fma 0x00000041#32 0x3F800000#64 0x3F800000#64 0#64]
  | .div => driven [.div 0x00000004#32 7#128 2#128]

theorem witness_StepRunsTheDecodedOperation :
    ∀ u ∈ [UnitId.fadd, .fma, .div],
      (onlyOn u).fetches u = true ∧
      (∀ v ∈ [UnitId.fadd, .fma, .div], v ≠ u → (onlyOn u).fetches v = false) ∧
      ((decode u ((onlyOn u).ctlWord u)).toOption.map Instr.wf) = some true := by decide

theorem witness_StepAdvancesTheClock : ∃ t, step busy = .next t := ⟨_, rfl⟩

/-- For each unit, two states alike in it whose other units differ. -/
theorem witness_UnitsShareNoState :
    (∃ t t', step (onlyOn .fadd) = .next t ∧ step ((onlyOn .fadd).withFma busy.fma) = .next t') ∧
    (∃ t t', step (onlyOn .fma) = .next t ∧ step ((onlyOn .fma).withDiv busy.div) = .next t') ∧
    (∃ t t', step (onlyOn .div) = .next t ∧ step ((onlyOn .div).withFadd busy.fadd) = .next t') ∧
    busy.fma ≠ base.fma ∧ busy.div ≠ base.div ∧ busy.fadd ≠ base.fadd :=
  ⟨⟨_, _, rfl, rfl⟩, ⟨_, _, rfl, rfl⟩, ⟨_, _, rfl, rfl⟩, by decide⟩

theorem witness_NoStartIssuesNothing :
    ∃ t, step busy = .next t ∧ busy.now.fadd.start = false ∧ busy.now.fma.start = false :=
  ⟨_, rfl, rfl, rfl⟩

/-! ## Witnesses: invariants -/

theorem busy_inv : busy.Inv where
  faddInFlight := ⟨by decide, by decide⟩
  fmaInFlight := ⟨by decide, by decide⟩
  redSound := fun _ => ⟨.inl (by decide), 0, rfl, by decide⟩
  divSound := ⟨by decide, by decide, by decide⟩

theorem witness_StepKeepsInvariant : busy.Inv ∧ ∃ t, step busy = .next t := ⟨busy_inv, _, rfl⟩

theorem witness_StepKeepsFlagsLegal :
    busy.fadd.FlagsLegal ∧ busy.fma.FlagsLegal ∧ ∃ t, step busy = .next t := by
  refine ⟨?_, ?_, _, rfl⟩
  · simp only [FaddUnit.FlagsLegal, FaddLegal]
    decide
  · simp only [FmaUnit.FlagsLegal, FmaLegal]
    decide

/-- As many records in flight as R316 allows in the FADD-unit. -/
theorem witness_PipelinesAreBounded :
    busy.Inv ∧ busy.fadd.pipe.length = busy.params.addLatency.cycles := ⟨busy_inv, rfl⟩

/-! ## Witnesses: issues -/

/-- `uop_idx = 0`, and a continuing micro-op exactly `ADD_LATENCY` cycles after the last. -/
theorem mayRun_both : MayRun base .f32 0#3 ∧ MayRun (opened [] 2) .f16 7#3 :=
  ⟨.inl rfl, .inr ⟨rfl, rfl, fun t' h => by cases h; decide⟩⟩

theorem witness_FoldStepRuns : MayRun (opened [] 2) (asmRed .f16 0x3#4 7#3).fmt 7#3 := mayRun_both.2

/-- Both clauses: a mask whose only set bits are above the lane count, and one that selects the last
lane. -/
theorem witness_TerminalStepRuns :
    MayRun base (asmRed .f32 0xC#4 0#3).fmt 0#3 ∧ SelectsNoLane (asmRed .f32 0xC#4 0#3) ∧
    ¬SelectsNoLane (asmRed .f32 0x2#4 0#3) :=
  ⟨mayRun_both.1, by unfold SelectsNoLane; decide, by unfold SelectsNoLane; decide⟩

theorem witness_WidenedTerminalStepRuns :
    (asmRed .f16 0x0#4 0#3).fmt.wide = some .f32 ∧ MayRun base .f32 0#3 ∧
    SelectsNoLane (asmRed .f16 0x0#4 0#3) ∧ ¬SelectsNoLane (asmRed .f16 0x8#4 0#3) :=
  ⟨rfl, mayRun_both.1, by unfold SelectsNoLane; decide, by unfold SelectsNoLane; decide⟩

theorem witness_DivRequestIsCaptured :
    (base.now.div.flush = false ∧ base.div.st = .idle) ∧
    ((driven [.outReady]).now.div.flush = false ∧ (divIn .done 0).st = .done ∧
      (driven [.outReady]).now.div.outReady = true) ∧
    (driven [.flush]).now.div.flush = true ∧ busy.div.st = .busy ∧
    base.now.div.outReady = false := by decide

theorem witness_ExecFrame :
    (∃ t, exec (.fadd (asmAdd .f16)) base = .next t) ∧
    (∃ t, exec (.fredsumFold (asmRed .f16 0x3#4 7#3)) (opened [] 2) = .next t) ∧
    (∃ t, exec (.fmul (asmFma .f64)) base = .next t) ∧
    (∃ t, exec (.vdiv .e8) base = .next t) :=
  ⟨⟨_, rfl⟩, ⟨_, rfl⟩, ⟨_, rfl⟩, ⟨_, rfl⟩⟩

theorem witness_FsubIsFaddOfNegation :
    ∃ t t', exec (.fsub (asmAdd .f16)) (onlyOn .fadd) = .next t ∧
      exec (.fadd (asmAdd .f16))
        (withFaddB (onlyOn .fadd) (negLanes .f16 (onlyOn .fadd).now.fadd.b)) = .next t' :=
  ⟨_, _, rfl, rfl⟩

theorem witness_FreshIssuesDependOnPortsOnly :
    (onlyOn .fadd).now.fadd = ((onlyOn .fadd).withFadd busy.fadd).now.fadd ∧
    ∀ i ∈ [Instr.fmax (asmAdd .f16), .fredsumFold (asmRed .f16 0x3#4 0#3),
        .fredsum (asmRed .f16 0x3#4 0#3), .fwredsum (asmRed .f16 0x3#4 0#3)],
      startsAfresh i = true ∧ ∃ t, exec i (onlyOn .fadd) = .next t := by
  refine ⟨rfl, ?_⟩
  simp only [List.mem_cons, List.not_mem_nil, or_false, forall_eq_or_imp, forall_eq]
  exact ⟨⟨rfl, _, rfl⟩, ⟨rfl, _, rfl⟩, ⟨rfl, _, rfl⟩, ⟨rfl, _, rfl⟩⟩

/-- The last F16 lane, alike in two states whose lane 0 differs. -/
theorem witness_LanesAreIndependent :
    (∃ t t' rec rec',
      exec (.fmadd (asmFma .f16)) (driven [.fma 0#32 1#64 2#64 3#64]) = .next t ∧
      exec (.fmadd (asmFma .f16)) base = .next t' ∧
      t.fma.pipe = base.fma.pipe ++ [rec] ∧ t'.fma.pipe = base.fma.pipe ++ [rec']) ∧
    (∃ t t' rec rec',
      exec (.fsub (asmAdd .f16)) (driven [.fadd 0#32 1#64 2#64 3#64]) = .next t ∧
      exec (.fsub (asmAdd .f16)) base = .next t' ∧
      t.fadd.pipe = base.fadd.pipe ++ [rec] ∧ t'.fadd.pipe = base.fadd.pipe ++ [rec']) ∧
    3 < (asmFma .f16).fmt.lanes ∧ lane 1#64 16 3 = lane 0#64 16 3 ∧
    lane 2#64 16 3 = lane 0#64 16 3 ∧ lane 3#64 16 3 = lane 0#64 16 3 :=
  ⟨⟨_, _, _, _, rfl, rfl, rfl, rfl⟩, ⟨_, _, _, _, rfl, rfl, rfl, rfl⟩, by decide⟩

/-! ## Witnesses: reduction sequences -/

theorem witness_ContinuingNeedsAnOpenSequence :
    MicroOp .fredsum (asmRed .f16 0xF#4 1#3) .f16 ∧ (asmRed .f16 0xF#4 1#3).uop ≠ 0#3 ∧
    base.fadd.red.valid = false ∧
    MicroOp .fwredsum (asmRed .f16 0xF#4 1#3) .f32 ∧ (opened [] 2).fadd.red.T ≠ .f32 :=
  ⟨.inr (.inl ⟨rfl, rfl⟩), by decide, rfl, .inr (.inr ⟨rfl, rfl⟩), by decide⟩

/-- One cycle short of `ADD_LATENCY`. -/
theorem witness_ReductionHazardIsRefused :
    MicroOp .fredsumFold (asmRed .f16 0xF#4 1#3) .f16 ∧ (asmRed .f16 0xF#4 1#3).uop ≠ 0#3 ∧
    (opened [] 1).fadd.red.valid = true ∧ (opened [] 1).fadd.red.T = .f16 ∧
    (opened [] 1).fadd.red.last = some 0 ∧
    (opened [] 1).cycle < 0 + (opened [] 1).params.addLatency.cycles ∧
    (asmRed .f16 0xF#4 0#3).uop = 0#3 :=
  ⟨.inl ⟨rfl, rfl⟩, by decide, rfl, rfl, rfl, by decide, rfl⟩

theorem witness_ClosedSequencesStayClosed :
    (Instr.fadd (asmAdd .f16)).unit = .fadd ∧ (∀ c, Instr.fadd (asmAdd .f16) ≠ .fredsumFold c) ∧
    (∃ t, exec (.fadd (asmAdd .f16)) (opened [] 2) = .next t) ∧
    MicroOp .fredsum (asmRed .f16 0xF#4 1#3) .f16 ∧ (asmRed .f16 0xF#4 1#3).uop ≠ 0#3 ∧
    (asmRed .f16 0xF#4 0#3).uop = 0#3 :=
  ⟨rfl, fun c => nofun, ⟨_, rfl⟩, .inr (.inl ⟨rfl, rfl⟩), by decide, rfl⟩

/-- An opening widened step, and a terminal step and a fold step that continue an F16 sequence opened
under another mode. -/
theorem witness_EmptyReductionMaskGivesIdentity :
    (MicroOp .fwredsum (asmRed .f16 0x0#4 0#3) .f32 ∧ MayRun base .f32 0#3) ∧
    (MicroOp .fredsum (asmRed .f16 0x0#4 7#3 .rdn) .f16 ∧
      MicroOp .fredsumFold (asmRed .f16 0x0#4 7#3 .rdn) .f16 ∧ MayRun (opened [] 2) .f16 7#3) ∧
    SelectsNoLane (asmRed .f16 0x0#4 0#3) ∧ SelectsNoLane (asmRed .f16 0x0#4 7#3 .rdn) :=
  ⟨⟨.inr (.inr ⟨rfl, rfl⟩), mayRun_both.1⟩,
    ⟨.inr (.inl ⟨rfl, rfl⟩), .inl ⟨rfl, rfl⟩, mayRun_both.2⟩,
    by unfold SelectsNoLane; decide, by unfold SelectsNoLane; decide⟩

/-! ## Witnesses: completions -/

/-- A record due in this cycle, and one due in the next. -/
theorem witness_FaddRecordCompletesOnTime :
    busy.Inv ∧ (∃ rec ∈ busy.fadd.pipe, busy.cycle + 0 = rec.issue + busy.params.addLatency.cycles) ∧
    (∃ rec ∈ busy.fadd.pipe, busy.cycle + 1 = rec.issue + busy.params.addLatency.cycles) ∧
    (∃ u v, runCycles 1 busy = .next u ∧ runCycles 2 busy = .next v) :=
  ⟨busy_inv, by decide, by decide, _, _, rfl, rfl⟩

theorem witness_FmaRecordCompletesOnTime :
    busy.Inv ∧ (∃ rec ∈ busy.fma.pipe, busy.cycle + 0 = rec.issue + 4) ∧
    (∃ rec ∈ busy.fma.pipe, busy.cycle + 3 = rec.issue + 4) ∧
    (∃ v, runCycles 4 busy = .next v) :=
  ⟨busy_inv, by decide, by decide, _, rfl⟩

theorem witness_ResultsHoldBetweenCompletions :
    (∃ t, step busy = .next t ∧
      (∃ rec ∈ busy.fadd.pipe.head?, rec.issue + busy.params.addLatency.cycles = busy.cycle) ∧
      (∃ rec ∈ busy.fma.pipe.head?, rec.issue + 4 = busy.cycle)) ∧
    (∃ t, step base = .next t ∧
      (∀ rec ∈ base.fadd.pipe.head?, rec.issue + base.params.addLatency.cycles ≠ base.cycle) ∧
      (∀ rec ∈ base.fma.pipe.head?, rec.issue + 4 ≠ base.cycle)) :=
  ⟨⟨_, rfl, ⟨_, rfl, rfl⟩, ⟨_, rfl, rfl⟩⟩,
    ⟨_, rfl, by simp [base, State.reset], by simp [base, State.reset]⟩⟩

theorem witness_RunsEnd : busy.Inv ∧ busy.stim = [] := ⟨busy_inv, rfl⟩

/-- A cycle whose only line is a flush is never refused. -/
theorem flush_not_refused (n : Nat) (k : Nat) (s : State) (r : Refusal) :
    runLines [⟨n, .flush⟩] k none s ≠ .refused r := by
  induction k generalizing s with
  | zero => exact nofun
  | succ k ih =>
    rcases hc : n == s.cycle with _ | _ <;>
      simp only [runLines, linesAt, List.filter, hc, List.foldl] <;> exact ih _

/-- The state after the flush ends the run; the one before it does not. -/
theorem witness_StimulusRunsEnd :
    busy.Inv ∧ (∀ k r, runLines [⟨4, .flush⟩] k none busy ≠ .refused r) ∧
    (∃ t, runStimulus [⟨0, .flush⟩] base = .next t ∧ t.cycle = 1) :=
  ⟨busy_inv, fun k r => flush_not_refused 4 k busy r, _, rfl, rfl⟩

/-! ## Witnesses: numerics -/

/-- 65519: between the largest F16 value and the least value that overflows under RNE. -/
def nearTop : Exact := { num := 65519, exp := 0 }

theorem witness_DirectedRoundingIsCorrect :
    nearTop.num ≠ 0 ∧
    (∀ rm ∈ [RoundingMode.rtz, .rdn],
      raises (round .beforeRounding .f16 rm nearTop).2 OF = false) ∧
    raises (round .beforeRounding .f16 .rup { num := -65519, exp := 0 }).2 OF = false := by
  decide +kernel

theorem witness_NearestRoundingIsCorrect :
    nearTop.num ≠ 0 ∧
    (∀ rm ∈ [RoundingMode.rne, .rmm],
      raises (round .afterRounding .f16 rm nearTop).2 OF = false) ∧
    isFinite .f16 (0x7BFF#16 : BitVec 16) = true := by decide +kernel

/-- The values of a few F16 patterns. -/
theorem f16_values :
    valueRat .f16 (0x3C00#16 : BitVec 16) = 1 ∧ valueRat .f16 (0xBC00#16 : BitVec 16) = -1 ∧
    valueRat .f16 (0x8000#16 : BitVec 16) = 0 ∧ valueRat .f16 (0x0000#16 : BitVec 16) = 0 := by
  have h1 : value .f16 (0x3C00#16 : BitVec 16) = { num := 1024, exp := -10 } := by decide
  have h2 : value .f16 (0xBC00#16 : BitVec 16) = { num := -1024, exp := -10 } := by decide
  have h3 : value .f16 (0x8000#16 : BitVec 16) = { num := 0, exp := -24 } := by decide
  have h4 : value .f16 (0x0000#16 : BitVec 16) = { num := 0, exp := -24 } := by decide
  refine ⟨(congrArg Exact.toRat h1).trans ?_, (congrArg Exact.toRat h2).trans ?_,
    (congrArg Exact.toRat h3).trans ?_, (congrArg Exact.toRat h4).trans ?_⟩ <;>
    norm_num [Exact.toRat]

theorem witness_ExactResultsAreUnaffected :
    ({ num := -1, exp := -24 } : Exact).num ≠ 0 ∧ isFinite .f16 (0x8001#16 : BitVec 16) = true ∧
    valueRat .f16 (0x8001#16 : BitVec 16) = ({ num := -1, exp := -24 } : Exact).toRat :=
  ⟨by decide, by decide, congrArg Exact.toRat (by decide : value .f16 0x8001#16 = _)⟩

theorem witness_InexactFlagMeansDifferentValue : nearTop.num ≠ 0 := by decide

/-- The least value that overflows under RNE, and the one before it at this scale, which does not. -/
theorem witness_OverflowResults :
    ({ num := 65520, exp := 0 } : Exact).num ≠ 0 ∧
    reachesPow .f16 .rne (Format.emax .f16 + 1) ({ num := 65520, exp := 0 } : Exact).toRat ∧
    ¬reachesPow .f16 .rne (Format.emax .f16 + 1) nearTop.toRat ∧
    raises (round .beforeRounding .f16 .rne { num := 65520, exp := 0 }).2 OF = true ∧
    raises (round .beforeRounding .f16 .rne nearTop).2 OF = false ∧
    (2 : Rat) ^ (Format.emax .f16 + 1) ≤ |({ num := 1, exp := 16 } : Exact).toRat| := by
  rw [show Format.emax .f16 = 15 from rfl]
  refine ⟨by decide, ?_, ?_, by decide +kernel, by decide +kernel, ?_⟩ <;>
    norm_num [reachesPow, nearTop, Exact.toRat, Format.fracBits, abs_of_nonneg]

/-- Half of the least subnormal: a zero result, inexact. -/
theorem witness_InexactUnderflowSetsUfAndNx :
    ({ num := 1, exp := -25 } : Exact).num ≠ 0 ∧
    (round .beforeRounding .f16 .rne { num := 1, exp := -25 }).1.toNat = 0 ∧
    isZero .f16 (0x0000#16 : BitVec 16) = true ∧
    valueRat .f16 (0x0000#16 : BitVec 16) ≠ ({ num := 1, exp := -25 } : Exact).toRat := by
  refine ⟨by decide, by decide +kernel, by decide, ?_⟩
  rw [f16_values.2.2.2]
  norm_num [Exact.toRat]

/-- Just below `2^-14`, rounding up to it. -/
theorem witness_TininessPoliciesDifferOnlyAtTheBoundary :
    ({ num := 4095, exp := -26 } : Exact).num ≠ 0 ∧
    (round .beforeRounding .f16 .rne { num := 4095, exp := -26 }).2 ≠
      (round .afterRounding .f16 .rne { num := 4095, exp := -26 }).2 ∧
    |({ num := 4095, exp := -26 } : Exact).toRat| < (2 : Rat) ^ Format.emin .f16 ∧
    reachesPow .f16 .rne (Format.emin .f16) ({ num := 4095, exp := -26 } : Exact).toRat := by
  rw [show Format.emin .f16 = -14 from rfl]
  refine ⟨by decide, by decide +kernel, ?_, ?_⟩ <;>
    norm_num [reachesPow, Exact.toRat, Format.fracBits, abs_of_nonneg]

/-- 1 + 1, a signaling and a quiet NaN, opposite infinities, and one infinity. -/
theorem witness_AdderRoundsOnce :
    isFinite .f16 (0x3C00#16 : BitVec 16) = true ∧ ({ num := 2, exp := 0 } : Exact).num ≠ 0 ∧
    ({ num := 2, exp := 0 } : Exact).toRat =
      valueRat .f16 (0x3C00#16 : BitVec 16) + valueRat .f16 (0x3C00#16 : BitVec 16) ∧
    isNaN .f16 (0x7C01#16 : BitVec 16) = true ∧ isNaN .f16 (0xFE01#16 : BitVec 16) = true ∧
    isInf .f16 (0x7C00#16 : BitVec 16) = true ∧ isInf .f16 (0xFC00#16 : BitVec 16) = true ∧
    sign .f16 (0x7C00#16 : BitVec 16) ≠ sign .f16 (0xFC00#16 : BitVec 16) ∧
    isNaN .f16 (0x3C00#16 : BitVec 16) = false ∧ isInf .f16 (0x3C00#16 : BitVec 16) = false ∧
    build.nanResult = .canonical ∧ { build with nanResult := .propagate }.nanResult = .propagate := by
  rw [f16_values.1]
  refine ⟨by decide, by decide, ?_, by decide, by decide, by decide, by decide, by decide, by decide,
    by decide, rfl, rfl⟩
  norm_num [Exact.toRat]

theorem witness_ZeroSumSignRule :
    isFinite .f16 (0x8000#16 : BitVec 16) = true ∧ isFinite .f16 (0x3C00#16 : BitVec 16) = true ∧
    isFinite .f16 (0xBC00#16 : BitVec 16) = true ∧ isZero .f16 (0x8000#16 : BitVec 16) = true ∧
    isZero .f16 (0x3C00#16 : BitVec 16) = false ∧
    valueRat .f16 (0x8000#16 : BitVec 16) + valueRat .f16 (0x8000#16 : BitVec 16) = 0 ∧
    valueRat .f16 (0x3C00#16 : BitVec 16) + valueRat .f16 (0xBC00#16 : BitVec 16) = 0 := by
  refine ⟨by decide, by decide, by decide, by decide, by decide, ?_, ?_⟩
  · rw [f16_values.2.2.1]
    norm_num
  · rw [f16_values.1, f16_values.2.1]
    norm_num

theorem witness_FaddCoreCommutes : build.nanResult = .canonical := rfl

theorem witness_IdentityIsTwoSided :
    isNaN .f16 0x8000#16 = false ∧ isNaN .f16 0xFC00#16 = false ∧ isNaN .f16 0x7C01#16 = true := by
  decide

theorem witness_WideningIsExact :
    Format.wide .f16 = some .f32 ∧ isSNaN .f16 0x7C01#16 = true ∧ isQNaN .f16 0xFE00#16 = true ∧
    isInf .f16 0xFC00#16 = true ∧ isFinite .f16 0x8001#16 = true := by decide

theorem witness_MinMaxOrderIsTotal :
    isNaN .f16 0xFC00#16 = false ∧ isNaN .f16 0x8000#16 = false ∧ isNaN .f16 0x0000#16 = false ∧
    fpLt .f16 0xFC00#16 0x8000#16 = true ∧ fpLt .f16 0x8000#16 0x0000#16 = true ∧
    isFinite .f16 0x8000#16 = true ∧ isFinite .f16 0x0000#16 = true ∧
    (0x7C00#16 : BitVec 16).toNat ≠ (inf .f16 true).toNat ∧
    (0xFC00#16 : BitVec 16).toNat ≠ (inf .f16 false).toNat := by
  decide +kernel

theorem witness_MinMaxChoose :
    isNaN .f16 0x7C01#16 = true ∧ isNaN .f16 0x7BFF#16 = false ∧ isNaN .f16 0x7C00#16 = false := by
  decide

theorem witness_FusedNaNsAreCanonical :
    isNaN .f16 (fmaCore build .f16 .rne 0x0000#16 0x7C00#16 0x7E01#16 false false true).1 = true ∧
    ZeroTimesInf .f16 0x8000#16 0xFC00#16 ∧
    (¬ZeroTimesInf .f16 0x3C00#16 0x3C00#16 ∧ isNaN .f16 (0x7C01#16 : BitVec 16) = true) ∧
    InfiniteProduct .f16 0x7C00#16 0x3C00#16 ∧ isInf .f16 (0xFC00#16 : BitVec 16) = true ∧
    productSign .f16 0x7C00#16 0x3C00#16 false ≠ (sign .f16 0xFC00#16 ^^ false) := by
  unfold InfiniteProduct ZeroTimesInf
  decide +kernel

/-- One rounding, and an exact zero sum, with and without the addend. -/
theorem witness_FusedRoundsOnce :
    isFinite .f16 (0x3C00#16 : BitVec 16) = true ∧ isFinite .f16 (0xBC00#16 : BitVec 16) = true ∧
    isZero .f16 (0x8000#16 : BitVec 16) = true ∧
    ({ num := 2, exp := 0 } : Exact).num ≠ 0 ∧ ({ num := 1, exp := 0 } : Exact).num ≠ 0 ∧
    ({ num := 2, exp := 0 } : Exact).toRat =
      (if false then -1 else 1) *
        (valueRat .f16 (0x3C00#16 : BitVec 16) * valueRat .f16 (0x3C00#16 : BitVec 16)) +
        (if true then -1 else 1) * valueRat .f16 (0xBC00#16 : BitVec 16) ∧
    ({ num := 1, exp := 0 } : Exact).toRat =
      (if false then -1 else 1) *
        (valueRat .f16 (0x3C00#16 : BitVec 16) * valueRat .f16 (0x3C00#16 : BitVec 16)) ∧
    (if true then -1 else 1) *
        (valueRat .f16 (0x3C00#16 : BitVec 16) * valueRat .f16 (0x3C00#16 : BitVec 16)) +
      (if false then -1 else 1) * valueRat .f16 (0x3C00#16 : BitVec 16) = 0 := by
  rw [f16_values.1, f16_values.2.1]
  refine ⟨by decide, by decide, by decide, by decide, by decide, ?_, ?_, ?_⟩ <;>
    norm_num [Exact.toRat]

/-- Its infinite operands: an infinite addend, and an infinite product with an addend that is finite
and with one that is an infinity of the product's sign. -/
theorem witness_FusedRoundsOnce_infinite :
    isInf .f16 (0x7C00#16 : BitVec 16) = true ∧ InfiniteProduct .f16 0x7C00#16 0x3C00#16 ∧
    isNaN .f16 (0x3C00#16 : BitVec 16) = false ∧ isInf .f16 (0x3C00#16 : BitVec 16) = false ∧
    productSign .f16 0x7C00#16 0x3C00#16 false = (sign .f16 0x7C00#16 ^^ false) := by
  unfold InfiniteProduct ZeroTimesInf
  decide +kernel

theorem witness_FnmaddNegatesFmadd :
    isFinite .f16 (0x3C00#16 : BitVec 16) = true ∧
    valueRat .f16 (0x3C00#16 : BitVec 16) * valueRat .f16 (0x3C00#16 : BitVec 16) +
      valueRat .f16 (0x3C00#16 : BitVec 16) ≠ 0 := by
  rw [f16_values.1]
  refine ⟨by decide, ?_⟩
  norm_num

/-! ## Witnesses: the divider -/

theorem witness_LatencyParametersAreTheOpenOnes : 1 ≤ 1 ∧ 1 ≤ 1 ∧ 1 ≤ 1 ∧ 1 ≤ 2 ∧ 1 < 2 := by decide

/-- A request of two e64 lanes whose divisors are `d1` and `d0`. -/
def req64 (signed : Bool) (n1 n0 d1 d0 : BitVec 64) : DivReq :=
  { ew := .e64, signed := signed, dividend := n1 ++ n0, divisor := d1 ++ d0 }

theorem witness_UnsignedLaneDivision :
    let q := req64 false 7#64 7#64 1#64 0#64
    q.signed = false ∧ (q.D 0).toNat = 0 ∧ (q.D 1).toNat ≠ 0 := by decide

theorem witness_SignedLaneDivision :
    let q := req64 true 0x8000000000000000#64 0x8000000000000000#64 (-1#64) 0#64
    q.signed = true ∧ (q.D 0).toInt = 0 ∧
    (q.N 1).toInt = -(2 : Int) ^ (q.ew.bits - 1) ∧ (q.D 1).toInt = -1 := by
  decide +kernel

/-- The third clause, one above the overflowing dividend. -/
theorem witness_SignedLaneDivision_ordinary :
    let q := req64 true 0x8000000000000001#64 7#64 (-1#64) 2#64
    (q.D 1).toInt ≠ 0 ∧
    ¬((q.N 1).toInt = -(2 : Int) ^ (q.ew.bits - 1) ∧ (q.D 1).toInt = -1) := by
  decide +kernel

theorem witness_DivisionLaw : (req64 true 0#64 0x8000000000000000#64 0#64 (-1#64)).D 0 ≠ 0 := by
  decide

theorem witness_DivResultPacking : 1 < ElemWidth.lanes .e64 ∧ ElemWidth.lanes .e64 ≤ 2 := by decide

/-- One state for each row of R265, in its order. -/
def tableRows : List State :=
  [(driven [.flush]).withDiv (divIn .done 0),
   base,
   driven [.div 0x00000003#32 7#128 2#128],
   base.withDiv (divIn .busy 2),
   base.withDiv (divIn .busy 1),
   base.withDiv (divIn .done 0),
   (driven [.outReady]).withDiv (divIn .done 0),
   (driven [.outReady, .div 0x00000003#32 7#128 2#128]).withDiv (divIn .done 0)]

theorem witness_DivNextStateTable :
    tableRows.map divOf =
      [some (.idle, 0), some (.idle, 0), some (.busy, 2), some (.busy, 1), some (.done, 0),
       some (.done, 0), some (.idle, 0), some (.busy, 2)] := by decide +kernel

/-- `DIV_CYCLES(64) = 2` here. -/
theorem witness_DivisionTakesItsBusyCycles :
    let s := driven [.div 0x00000003#32 7#128 2#128]
    s.accepts = true ∧ s.params.divTiming.cycles .e64 = 2 ∧
    (∀ j, 1 ≤ j → j ≤ 2 → (s.portsAfter j).div.flush = false) ∧
    (∃ u, runCycles 2 s = .next u) ∧ (∃ v, runCycles 3 s = .next v) := by
  refine ⟨rfl, rfl, ?_, ⟨_, rfl⟩, ⟨_, rfl⟩⟩
  intro j h1 h2
  rcases (by omega : j = 1 ∨ j = 2) with rfl | rfl <;> rfl

theorem witness_FlushTakesOneCycle :
    (driven [.flush]).now.div.flush = true ∧
    ∃ t, step ((driven [.flush]).withDiv (divIn .busy 1)) = .next t := ⟨rfl, _, rfl⟩

theorem witness_FlushLeavesNothingToPresent :
    let s := (driven [.flush]).withDiv (divIn .done 0)
    s.now.div.flush = true ∧ (∀ j, 1 ≤ j → j ≤ 1 → (s.portsAfter j).div.inValid = false) ∧
    ∃ t, runCycles 2 s = .next t := by
  refine ⟨rfl, ?_, _, rfl⟩
  intro j h1 h2
  obtain rfl : j = 1 := by omega
  rfl

end Sys2Proof.Tests
end

section
/-! PROOFS. A cycle that issues nothing on a floating unit (R36), and the values reset gives (R44, R310). -/

namespace Sys2Proof.Machine

/-! ## What completion keeps -/

/-- Completion leaves the reduction sequence alone (R161). -/
@[simp] theorem FaddUnit.complete_red (u : FaddUnit) (L t : Nat) :
    (u.complete L t).red = u.red := by
  rcases u.complete_cases L t with ⟨_, _, _, _, e⟩ | ⟨_, e⟩ <;> rw [e]

/-- Completion puts no record into `fadd.pipe` (R161). -/
theorem FaddUnit.complete_pipe_subset (u : FaddUnit) (L t : Nat) :
    (u.complete L t).pipe ⊆ u.pipe := by
  rcases u.complete_cases L t with ⟨rec, rest, hp, _, e⟩ | ⟨_, e⟩ <;> rw [e]
  · rw [hp]
    exact List.subset_cons_self rec rest
  · exact List.Subset.refl u.pipe

/-- Completion puts no record into `fma.pipe` (R230). -/
theorem FmaUnit.complete_pipe_subset (u : FmaUnit) (L t : Nat) :
    (u.complete L t).pipe ⊆ u.pipe := by
  rcases u.complete_cases L t with ⟨rec, rest, hp, _, e⟩ | ⟨_, e⟩ <;> rw [e]
  · rw [hp]
    exact List.subset_cons_self rec rest
  · exact List.Subset.refl u.pipe

/-! ## A unit that takes no operation -/

/-- A unit that takes no operation in this cycle keeps its part through the issues. -/
theorem Issued.eq_of_not_fetches {α : Type} {u : UnitId} {part : State → α} {s : State} {p : α}
    (h : Issued u part s p) (hf : s.fetches u = false) : p = part s := by
  rcases h with ⟨_, hp⟩ | ⟨ht, _⟩
  · exact hp
  · rw [hf] at ht
    cases ht

/-- With `start = 0` the FADD-unit's part of a step is its completion alone (R36). -/
theorem step_fadd_of_no_start {s t : State} (h : step s = .next t)
    (hs : s.now.fadd.start = false) :
    t.fadd = s.fadd.complete s.params.addLatency.cycles s.cycle := by
  obtain ⟨-, -, -, -, ⟨f, hf, ht⟩, -⟩ := step_parts h
  rw [ht, hf.eq_of_not_fetches hs]

/-- With `start = 0` the FMA-unit's part of a step is its completion alone (R36). -/
theorem step_fma_of_no_start {s t : State} (h : step s = .next t)
    (hs : s.now.fma.start = false) : t.fma = s.fma.complete fmaLatency s.cycle := by
  obtain ⟨-, -, -, -, -, ⟨m, hm, ht⟩, -⟩ := step_parts h
  rw [ht, hm.eq_of_not_fetches hs]

/-- Settles O8: a unit that takes no operation is only completed, and completion keeps `red` and adds
no record. -/
theorem noStartIssuesNothing : Obligations.NoStartIssuesNothing := by
  intro s t h
  refine ⟨fun hs => ?_, fun hs => ?_⟩
  · have ht := step_fadd_of_no_start h hs
    refine ⟨ht, ?_, ?_⟩ <;> rw [ht]
    · exact FaddUnit.complete_red _ _ _
    · exact fun _ hr => FaddUnit.complete_pipe_subset _ _ _ hr
  · have ht := step_fma_of_no_start h hs
    refine ⟨ht, ?_⟩
    rw [ht]
    exact fun _ hr => FmaUnit.complete_pipe_subset _ _ _ hr

/-! ## Reset -/

/-- In IDLE the DIV-unit is ready for a request exactly when no flush is driven (R257). -/
theorem State.inReady_of_idle {s : State} (h : s.div.st = .idle) :
    s.inReady = !s.now.div.flush := by
  simp [State.inReady, h]

/-- In IDLE the DIV-unit presents no result (R258). -/
theorem State.divOutValid_of_idle {s : State} (h : s.div.st = .idle) : s.divOutValid = false := by
  simp [State.divOutValid, h]

theorem State.reset_div_st : State.reset.div.st = .idle := rfl

/-- Settles O9: the registers by the definition of the reset state, the two handshake outputs because
the DIV-unit is IDLE there, whatever the stimulus. -/
theorem resetLeavesNothingInFlight : Obligations.ResetLeavesNothingInFlight :=
  ⟨rfl, rfl, rfl, rfl, rfl, State.reset_div_st, rfl, State.divOutValid_of_idle State.reset_div_st,
    fun _ => State.inReady_of_idle State.reset_div_st⟩

end Sys2Proof.Machine
end

section
/-! PROOFS. A control word that spells no operation is refused (R101 to R105): what a word that decodes
must hold in its fields, and the step of a cycle that fetches one that does not decode. -/

namespace Sys2Proof.Machine

/-! ## The fields of a word that decodes -/

/-- `0b00` is the only reserved `fmt` code (R94, R101). -/
theorem formatOfCode_eq_some {c : BitVec 2} {F : Format} (h : formatOfCode c = some F) :
    c = formatCode F := by
  unfold formatOfCode at h
  repeat' split at h
  all_goals cases h
  all_goals assumption

/-- `0b101` to `0b111` are the only reserved `rm` codes (R95, R103). -/
theorem roundingOfCode_eq_some {c : BitVec 3} {rm : RoundingMode}
    (h : roundingOfCode c = some rm) : c = roundingCode rm := by
  unfold roundingOfCode at h
  repeat' split at h
  all_goals cases h
  all_goals assumption

theorem formatCode_ne_zero (F : Format) : formatCode F ≠ 0#2 := by cases F <;> decide

theorem formatCode_eq_f64_iff {F : Format} : formatCode F = 0b11#2 ↔ F = .f64 := by
  cases F <;> decide

theorem roundingCode_toNat_lt (rm : RoundingMode) : (roundingCode rm).toNat < 5 := by
  cases rm <;> decide

/-- A floating word that passes the checks has the codes of a format and of a rounding mode, and its
unit's opcode map gives it its operation. -/
theorem withFormatAndRounding_eq_instr {w : CtlWord} {k : Format → RoundingMode → Decoded}
    {i : Instr} (h : withFormatAndRounding w k = .instr i) :
    ∃ F rm, wordFmt w = formatCode F ∧ wordRm w = roundingCode rm ∧ k F rm = .instr i := by
  unfold withFormatAndRounding at h
  split at h
  · cases h
  · rename_i F hF
    split at h
    · cases h
    · rename_i rm hrm
      exact ⟨F, rm, formatOfCode_eq_some hF, roundingOfCode_eq_some hrm, h⟩

theorem ordinaryOf_eq_instr {w : CtlWord} {mk F rm i} (h : ordinaryOf w mk F rm = .instr i) :
    acwWiden w = false := by
  unfold ordinaryOf at h
  split at h
  · cases h
  · exact Bool.eq_false_of_not_eq_true ‹_›

/-- Only a terminal micro-op of F16 or F32 may be widened (R104). -/
theorem reductionOf_eq_instr {w : CtlWord} {F rm i} (h : reductionOf w F rm = .instr i) :
    acwWiden w = false ∨ (acwIsFold w = false ∧ F ≠ .f64) := by
  unfold reductionOf at h
  split at h
  · exact .inl ‹_›
  · exact .inl ‹_›
  · cases h
  · split at h
    · cases h
    · exact .inr ⟨‹_›, ‹_›⟩

/-- `op` 0 to 4 of the FADD-unit, each with `widen = 0` (R97, R104). -/
theorem ordinaryOf_op_eq_instr {w : CtlWord} {op mk F rm i} (hop : wordOp w = op)
    (hle : op.toNat ≤ 4) (h : ordinaryOf w mk F rm = .instr i) :
    (wordOp w).toNat ≤ 4 ∧ acwWiden w = false :=
  ⟨hop ▸ hle, ordinaryOf_eq_instr h⟩

/-- The FADD-unit opcode map: `op` 0 to 4 unwidened, or a reduction micro-op (R97, R102, R104). -/
theorem acwOperation_eq_instr {w : CtlWord} {F rm i} (h : acwOperation w F rm = .instr i) :
    ((wordOp w).toNat ≤ 4 ∧ acwWiden w = false) ∨
    (wordOp w = 0x05#5 ∧ (acwWiden w = false ∨ (acwIsFold w = false ∧ F ≠ .f64))) := by
  unfold acwOperation at h
  split_ifs at h with h0 h1 h2 h3 h4 h5
  · exact .inl (ordinaryOf_op_eq_instr h0 (by decide) h)
  · exact .inl (ordinaryOf_op_eq_instr h1 (by decide) h)
  · exact .inl (ordinaryOf_op_eq_instr h2 (by decide) h)
  · exact .inl (ordinaryOf_op_eq_instr h3 (by decide) h)
  · exact .inl (ordinaryOf_op_eq_instr h4 (by decide) h)
  · exact .inr ⟨h5, reductionOf_eq_instr h⟩

/-- The FMA-unit opcode map has `op` 0 to 4 only (R98, R102). -/
theorem fcwOperation_eq_instr {w : CtlWord} {F rm i} (h : fcwOperation w F rm = .instr i) :
    (wordOp w).toNat < 5 := by
  have hmap : wordOp w = 0x00#5 ∨ wordOp w = 0x01#5 ∨ wordOp w = 0x02#5 ∨ wordOp w = 0x03#5 ∨
      wordOp w = 0x04#5 := by
    by_contra hn
    simp only [not_or] at hn
    simp [fcwOperation, hn] at h
  rcases hmap with e | e | e | e | e <;> rw [e] <;> decide

/-- What the fields of an ACW hold where it spells an operation (R101 to R104). -/
theorem decode_fadd_eq_instr {w : CtlWord} {i : Instr} (h : decode .fadd w = .instr i) :
    wordFmt w ≠ 0#2 ∧ (wordOp w).toNat < 6 ∧ (wordRm w).toNat < 5 ∧
    (acwWiden w = true →
      wordOp w = 0x05#5 ∧ acwIsFold w = false ∧ wordFmt w ≠ 0b11#2) := by
  simp only [decode, decodeAcw] at h
  split at h
  · cases h
  obtain ⟨F, rm, hF, hrm, hop⟩ := withFormatAndRounding_eq_instr h
  rw [hF, hrm, Ne, Ne, formatCode_eq_f64_iff]
  have hfmt := formatCode_ne_zero F
  have hmode := roundingCode_toNat_lt rm
  rcases acwOperation_eq_instr hop with ⟨hle, hw⟩ | ⟨hred, hw | ⟨hfold, hne⟩⟩
  · exact ⟨hfmt, by omega, hmode, by simp [hw]⟩
  · exact ⟨hfmt, by simp [hred], hmode, by simp [hw]⟩
  · exact ⟨hfmt, by simp [hred], hmode, fun _ => ⟨hred, hfold, hne⟩⟩

/-- What the fields of an FCW hold where it spells an operation (R101 to R103). -/
theorem decode_fma_eq_instr {w : CtlWord} {i : Instr} (h : decode .fma w = .instr i) :
    wordFmt w ≠ 0#2 ∧ (wordOp w).toNat < 5 ∧ (wordRm w).toNat < 5 := by
  simp only [decode, decodeFcw] at h
  split at h
  · cases h
  obtain ⟨F, rm, hF, hrm, hop⟩ := withFormatAndRounding_eq_instr h
  rw [hF, hrm]
  exact ⟨formatCode_ne_zero F, fcwOperation_eq_instr hop, roundingCode_toNat_lt rm⟩

/-! ## The step of a cycle that fetches a word -/

/-- A step that does not answer a next state is refused, since none faults (R290). -/
theorem step_refused_of_not_next {s : State} (h : ∀ t, step s ≠ .next t) :
    ∃ r, step s = .refused r := by
  cases hs : step s with
  | next t => exact absurd hs (h t)
  | fault r => exact absurd hs (no_fault s r)
  | refused r => exact ⟨r, rfl⟩

/-- A unit that takes an operation took one that its control word spells. -/
theorem Issued.decodes {α : Type} {u : UnitId} {part : State → α} {s : State} {p : α}
    (h : Issued u part s p) (hf : s.fetches u = true) :
    ∃ i, decode u (s.ctlWord u) = .instr i := by
  rcases h with ⟨hn, _⟩ | ⟨_, i, _, hd, _⟩
  · rw [hf] at hn
    cases hn
  · exact ⟨i, hd⟩

/-- In a cycle that runs, every word a unit takes spells an operation of that unit (R105). -/
theorem decodes_of_step {u : UnitId} {s t : State} (h : step s = .next t)
    (hf : s.fetches u = true) : ∃ i, decode u (s.ctlWord u) = .instr i := by
  obtain ⟨-, -, -, -, ⟨_, hfadd, -⟩, ⟨_, hfma, -⟩, ⟨_, hdiv, -⟩⟩ := step_parts h
  cases u with
  | fadd => exact hfadd.decodes hf
  | fma => exact hfma.decodes hf
  | div => exact hdiv.decodes hf

/-- A cycle in which a unit takes a word that spells no operation is refused, whatever the other units
do (R105). -/
theorem step_refused_of_not_decodes {u : UnitId} {s : State} (hf : s.fetches u = true)
    (h : ∀ i, decode u (s.ctlWord u) ≠ .instr i) : ∃ r, step s = .refused r := by
  refine step_refused_of_not_next fun t ht => ?_
  obtain ⟨i, hi⟩ := decodes_of_step ht hf
  exact h i hi

/-- Settles O4: each listed field value contradicts what the fields hold in a word that decodes, and a
cycle that takes a word that does not decode is refused. -/
theorem refusedWordsAreRefused : Obligations.RefusedWordsAreRefused := by
  intro s
  refine ⟨fun hs hw => ?_, fun hs hw => ?_⟩
  · refine step_refused_of_not_decodes (u := .fadd) hs fun i hi => ?_
    obtain ⟨hfmt, hop, hrm, hwiden⟩ := decode_fadd_eq_instr hi
    rcases hw with h | h | h | ⟨h, hbad⟩
    · exact hfmt h
    · exact absurd hop (Nat.not_lt.2 h)
    · exact absurd hrm (Nat.not_lt.2 h)
    · obtain ⟨hred, hfold, hf64⟩ := hwiden h
      rcases hbad with hle | ⟨-, hf⟩ | ⟨-, hf⟩
      · exact absurd (hred ▸ hle : (0x05#5).toNat ≤ 4) (by decide)
      · exact Bool.false_ne_true (hfold.symm.trans hf)
      · exact hf64 hf
  · refine step_refused_of_not_decodes (u := .fma) hs fun i hi => ?_
    obtain ⟨hfmt, hop, hrm⟩ := decode_fma_eq_instr hi
    rcases hw with h | h | h
    · exact hfmt h
    · exact absurd hop (Nat.not_lt.2 h)
    · exact absurd hrm (Nat.not_lt.2 h)

end Sys2Proof.Machine
end

section
/-! PROOFS. The fields of a floating-point pattern: reading a pattern put together from its fields, the
classes by the exponent field, and the value of a finite pattern as a significand times a power of two
(R121 to R124). -/

namespace Sys2Proof

/-! ## The numbers of a format (R120) -/

theorem Format.width_eq (F : Format) : F.width = F.expBits + F.fracBits + 1 := by cases F <;> rfl

theorem Format.expMask_eq (F : Format) : F.expMask = 2 * F.bias + 1 := by cases F <;> rfl

theorem Format.expMask_lt (F : Format) : F.expMask < 2 ^ F.expBits :=
  Nat.sub_lt (Nat.two_pow_pos _) Nat.one_pos

theorem Format.bias_pos (F : Format) : 0 < F.bias := by cases F <;> decide

end Sys2Proof

namespace Sys2Proof.Machine

open Sys2Proof.Claims

/-! ## Fields and patterns (R121) -/

section Patterns

variable {F : Format}

theorem expField_eq (x : BitVec F.width) :
    expField F x = x.toNat / 2 ^ F.fracBits % 2 ^ F.expBits := by
  simp [expField, BitVec.extractLsb'_toNat, Nat.shiftRight_eq_div_pow]

theorem fracField_eq (x : BitVec F.width) : fracField F x = x.toNat % 2 ^ F.fracBits := by
  simp [fracField, BitVec.extractLsb'_toNat]

theorem sign_toNat_eq (x : BitVec F.width) :
    (sign F x).toNat = x.toNat / 2 ^ F.fracBits / 2 ^ F.expBits := by
  have hlt : x.toNat / 2 ^ F.fracBits / 2 ^ F.expBits < 2 := by
    rw [Nat.div_div_eq_div_mul, ← pow_add]
    refine Nat.div_lt_of_lt_mul ?_
    rw [← pow_succ, Nat.add_comm F.fracBits, ← F.width_eq]
    exact x.isLt
  rw [sign, BitVec.getLsbD, show F.width - 1 = F.fracBits + F.expBits by have := F.width_eq; omega,
    Nat.toNat_testBit, pow_add, ← Nat.div_div_eq_div_mul, Nat.mod_eq_of_lt hlt]

theorem expField_lt (x : BitVec F.width) : expField F x < 2 ^ F.expBits := by
  rw [expField_eq]
  exact Nat.mod_lt _ (Nat.two_pow_pos _)

theorem expField_le (x : BitVec F.width) : expField F x ≤ F.expMask :=
  Nat.le_sub_one_of_lt (expField_lt x)

theorem fracField_lt (x : BitVec F.width) : fracField F x < 2 ^ F.fracBits := by
  rw [fracField_eq]
  exact Nat.mod_lt _ (Nat.two_pow_pos _)

/-- A pattern is its three fields put together. -/
theorem assemble_fields (x : BitVec F.width) :
    assemble F (sign F x) (expField F x) (fracField F x) = x := by
  apply BitVec.eq_of_toNat_eq
  have hexp := Nat.div_add_mod (x.toNat / 2 ^ F.fracBits) (2 ^ F.expBits)
  have hfrac := Nat.div_add_mod x.toNat (2 ^ F.fracBits)
  rw [← expField_eq, ← sign_toNat_eq] at hexp
  rw [← fracField_eq, ← hexp] at hfrac
  have hsum : (sign F x).toNat * 2 ^ (F.width - 1) + expField F x * 2 ^ F.fracBits +
      fracField F x = x.toNat := by
    rw [show F.width - 1 = F.expBits + F.fracBits by have := F.width_eq; omega, pow_add]
    linarith
  rw [assemble, hsum, BitVec.toNat_ofNat, Nat.mod_eq_of_lt x.isLt]

section Assemble

variable {s : Bool} {e f : Nat} (he : e < 2 ^ F.expBits) (hf : f < 2 ^ F.fracBits)
include he hf

theorem toNat_assemble :
    (assemble F s e f).toNat = (s.toNat * 2 ^ F.expBits + e) * 2 ^ F.fracBits + f := by
  have hw : F.width - 1 = F.expBits + F.fracBits := by have := F.width_eq; omega
  have hse : s.toNat * 2 ^ F.expBits + e + 1 ≤ 2 * 2 ^ F.expBits := by
    have := Nat.mul_le_mul_right (2 ^ F.expBits) (Bool.toNat_le s)
    omega
  have hbound := Nat.mul_le_mul_right (2 ^ F.fracBits) hse
  rw [assemble, BitVec.toNat_ofNat, hw, pow_add, ← Nat.mul_assoc, ← Nat.add_mul]
  refine Nat.mod_eq_of_lt ?_
  rw [F.width_eq, pow_succ, pow_add]
  linarith

theorem toNat_assemble_div :
    (assemble F s e f).toNat / 2 ^ F.fracBits = s.toNat * 2 ^ F.expBits + e := by
  rw [toNat_assemble he hf, Nat.mul_comm, Nat.mul_add_div (Nat.two_pow_pos _),
    Nat.div_eq_of_lt hf, Nat.add_zero]

theorem expField_assemble : expField F (assemble F s e f) = e := by
  rw [expField_eq, toNat_assemble_div he hf, Nat.mul_add_mod', Nat.mod_eq_of_lt he]

theorem fracField_assemble : fracField F (assemble F s e f) = f := by
  rw [fracField_eq, toNat_assemble he hf, Nat.mul_add_mod', Nat.mod_eq_of_lt hf]

theorem sign_assemble : sign F (assemble F s e f) = s := by
  refine (by decide : ∀ a b : Bool, a.toNat = b.toNat → a = b) _ _ ?_
  rw [sign_toNat_eq, toNat_assemble_div he hf, Nat.mul_comm, Nat.mul_add_div (Nat.two_pow_pos _),
    Nat.div_eq_of_lt he, Nat.add_zero]

end Assemble

/-! ## Classes by the exponent field (R122) -/

theorem isFinite_iff {x : BitVec F.width} : isFinite F x = true ↔ expField F x < F.expMask := by
  have hle := expField_le x
  by_cases he : expField F x = F.expMask
  · by_cases hf : fracField F x = 0 <;> simp [isFinite, isInf, isNaN, he, hf]
  · simp [isFinite, isInf, isNaN, he, lt_of_le_of_ne hle he]

theorem isInf_eq_false_of_isFinite {x : BitVec F.width} (h : isFinite F x = true) :
    isInf F x = false := by
  simp only [isFinite, Bool.and_eq_true, Bool.not_eq_true'] at h
  exact h.1

theorem isNaN_eq_false_of_isFinite {x : BitVec F.width} (h : isFinite F x = true) :
    isNaN F x = false := by
  simp only [isFinite, Bool.and_eq_true, Bool.not_eq_true'] at h
  exact h.2

theorem isSNaN_eq_false {x : BitVec F.width} (h : isNaN F x = false) : isSNaN F x = false := by
  simp [isSNaN, h]

theorem isQNaN_eq_false {x : BitVec F.width} (h : isNaN F x = false) : isQNaN F x = false := by
  simp [isQNaN, h]

theorem isFinite_of_not_inf_not_nan {x : BitVec F.width} (hi : isInf F x = false)
    (hn : isNaN F x = false) : isFinite F x = true := by
  simp [isFinite, hi, hn]

theorem expField_eq_zero_iff {x : BitVec F.width} :
    expField F x = 0 ↔ isSubnormal F x = true ∨ isZero F x = true := by
  by_cases hf : fracField F x = 0 <;> simp [isSubnormal, isZero, hf]

/-! ## The value of a finite pattern (R123) -/

/-- The magnitude of a finite pattern in units of `2^(quantum F x)`: the fraction, with the implied
leading bit of a normal pattern. -/
def significand (F : Format) (x : BitVec F.width) : Nat :=
  if expField F x = 0 then fracField F x else 2 ^ F.fracBits + fracField F x

/-- The exponent of a finite pattern's last place. -/
def quantum (F : Format) (x : BitVec F.width) : Int :=
  if expField F x = 0 then F.emin - F.fracBits else (expField F x : Int) - F.bias - F.fracBits

/-- `(-1)^s` (R123). -/
def signFactor (s : Bool) : Rat := if s then -1 else 1

@[simp] theorem abs_signFactor (s : Bool) : |signFactor s| = 1 := by cases s <;> simp [signFactor]

/-- R123: sign, significand and quantum give the value. -/
theorem valueRat_eq (x : BitVec F.width) :
    valueRat F x = signFactor (sign F x) * (significand F x * (2 : Rat) ^ quantum F x) := by
  unfold valueRat value Exact.toRat significand quantum signFactor
  split_ifs <;> push_cast <;> ring

theorem abs_valueRat (x : BitVec F.width) :
    |valueRat F x| = significand F x * (2 : Rat) ^ quantum F x := by
  rw [valueRat_eq, abs_mul, abs_signFactor, one_mul, abs_of_nonneg (by positivity)]

theorem isZero_iff_significand {x : BitVec F.width} :
    isZero F x = true ↔ significand F x = 0 := by
  have h2 : 2 ^ F.fracBits ≠ 0 := (Nat.two_pow_pos _).ne'
  by_cases he : expField F x = 0 <;> simp [isZero, significand, he]

/-- Of the finite patterns just the two zeros have the value 0. -/
theorem valueRat_eq_zero_iff {x : BitVec F.width} : valueRat F x = 0 ↔ isZero F x = true := by
  have h2 : (2 : Rat) ^ quantum F x ≠ 0 := by positivity
  rw [← abs_eq_zero, abs_valueRat, isZero_iff_significand]
  simp [h2]

theorem valueRat_neg_iff {x : BitVec F.width} (h : valueRat F x ≠ 0) :
    valueRat F x < 0 ↔ sign F x = true := by
  have hpos : 0 < (significand F x : Rat) * (2 : Rat) ^ quantum F x := by
    rw [← abs_valueRat]
    exact abs_pos.2 h
  rw [valueRat_eq]
  cases sign F x <;> simp only [signFactor] <;> simp [hpos, hpos.le]

/-! ## Significand and quantum of a format (R127) -/

/-- `m * 2^q` is how the format writes a finite magnitude: the leading bit at bit M, or the least
quantum. -/
structure Canonical (F : Format) (m : Nat) (q : Int) : Prop where
  sig_lt : m < 2 ^ (F.fracBits + 1)
  least_le : F.emin ≤ q + F.fracBits
  le_greatest : q + F.fracBits ≤ F.emax
  normalized : 2 ^ F.fracBits ≤ m ∨ q + F.fracBits = F.emin

theorem canonical_of_isFinite {x : BitVec F.width} (h : isFinite F x = true) :
    Canonical F (significand F x) (quantum F x) := by
  have he := isFinite_iff.1 h
  have hf := fracField_lt x
  have hb := F.bias_pos
  rw [F.expMask_eq] at he
  unfold significand quantum
  split_ifs with h0 <;> constructor <;> simp only [Format.emin, Format.emax, pow_succ] <;> omega

/-- `Encode` of a magnitude below `2^M`: exponent field 0 (R127). -/
theorem encodeMagnitude_of_lt {s : Bool} {m : Nat} {q : Int} (h : m < 2 ^ F.fracBits) :
    encodeMagnitude F s m q = assemble F s 0 m := by
  have hne : m ≠ 2 ^ (F.fracBits + 1) := by rw [pow_succ]; omega
  simp [encodeMagnitude, hne, Nat.not_le.2 h]

/-- `Encode` of a magnitude with its leading bit at bit M (R127). -/
theorem encodeMagnitude_of_ge {s : Bool} {m : Nat} {q : Int} (h : 2 ^ F.fracBits ≤ m)
    (hm : m < 2 ^ (F.fracBits + 1)) :
    encodeMagnitude F s m q =
      assemble F s (q + F.fracBits + F.bias).toNat (m - 2 ^ F.fracBits) := by
  simp [encodeMagnitude, hm.ne, h]

/-- `Encode` of a magnitude that rounding has carried one bit up (R127). -/
theorem encodeMagnitude_carry {s : Bool} {q : Int} :
    encodeMagnitude F s (2 ^ (F.fracBits + 1)) q = encodeMagnitude F s (2 ^ F.fracBits) (q + 1) := by
  have hlt : 2 ^ F.fracBits < 2 ^ (F.fracBits + 1) := Nat.pow_lt_pow_succ (by decide)
  rw [encodeMagnitude_of_ge (le_refl _) hlt]
  simp [encodeMagnitude]

/-- The sign and exponent field of an encoded magnitude, its significand and its quantum. -/
theorem encodeMagnitude_fields {m : Nat} {q : Int} (h : Canonical F m q) (s : Bool) :
    sign F (encodeMagnitude F s m q) = s ∧
    expField F (encodeMagnitude F s m q) =
      (if 2 ^ F.fracBits ≤ m then (q + F.fracBits + F.bias).toNat else 0) ∧
    significand F (encodeMagnitude F s m q) = m ∧ quantum F (encodeMagnitude F s m q) = q := by
  obtain ⟨hm, hlo, hhi, hn⟩ := h
  have hmask := F.expMask_eq
  have hlt := F.expMask_lt
  simp only [Format.emin, Format.emax] at hlo hhi hn
  by_cases hge : 2 ^ F.fracBits ≤ m
  · have he : (q + F.fracBits + F.bias).toNat < 2 ^ F.expBits := by omega
    have hf : m - 2 ^ F.fracBits < 2 ^ F.fracBits := by rw [pow_succ] at hm; omega
    have h0 : (q + F.fracBits + F.bias).toNat ≠ 0 := by omega
    rw [encodeMagnitude_of_ge hge hm, significand, quantum, sign_assemble he hf,
      expField_assemble he hf, fracField_assemble he hf, if_pos hge, if_neg h0, if_neg h0]
    exact ⟨rfl, rfl, by omega, by omega⟩
  · have hf : m < 2 ^ F.fracBits := Nat.not_le.1 hge
    have he : 0 < 2 ^ F.expBits := Nat.two_pow_pos _
    rw [encodeMagnitude_of_lt hf, significand, quantum, sign_assemble he hf,
      expField_assemble he hf, fracField_assemble he hf, if_neg hge, if_pos rfl, if_pos rfl]
    refine ⟨rfl, rfl, rfl, ?_⟩
    simp only [Format.emin]
    omega

section Encoded

variable {m : Nat} {q : Int} (h : Canonical F m q) (s : Bool)
include h

theorem sign_encodeMagnitude : sign F (encodeMagnitude F s m q) = s :=
  (encodeMagnitude_fields h s).1

theorem isFinite_encodeMagnitude : isFinite F (encodeMagnitude F s m q) = true := by
  obtain ⟨-, he, -, -⟩ := encodeMagnitude_fields h s
  have hhi := h.le_greatest
  have hmask := F.expMask_eq
  rw [isFinite_iff, he]
  simp only [Format.emax] at hhi
  split_ifs <;> omega

theorem valueRat_encodeMagnitude :
    valueRat F (encodeMagnitude F s m q) = signFactor s * (m * (2 : Rat) ^ q) := by
  obtain ⟨hs, -, hm, hq⟩ := encodeMagnitude_fields h s
  rw [valueRat_eq, hs, hm, hq]

/-- An encoded magnitude has exponent field 0 exactly when it is below `2^M`. -/
theorem expField_encodeMagnitude_eq_zero_iff :
    expField F (encodeMagnitude F s m q) = 0 ↔ m < 2 ^ F.fracBits := by
  obtain ⟨-, he, -, -⟩ := encodeMagnitude_fields h s
  have hlo := h.least_le
  rw [he]
  simp only [Format.emin] at hlo
  split_ifs <;> omega

end Encoded

/-- A pattern is the encoding of its sign, significand and quantum. -/
theorem encodeMagnitude_significand (x : BitVec F.width) :
    encodeMagnitude F (sign F x) (significand F x) (quantum F x) = x := by
  have hf := fracField_lt x
  rw [significand, quantum]
  split_ifs with h0
  · rw [encodeMagnitude_of_lt hf, ← h0, assemble_fields]
  · have hm : 2 ^ F.fracBits + fracField F x < 2 ^ (F.fracBits + 1) := by rw [pow_succ]; omega
    rw [encodeMagnitude_of_ge (Nat.le_add_right _ _) hm, Nat.add_sub_cancel_left]
    convert assemble_fields x using 2
    omega

/-! ## Zeros (R124) -/

theorem isZero_zero (s : Bool) : isZero F (zero F s) = true := by
  have he : 0 < 2 ^ F.expBits := Nat.two_pow_pos _
  have hf : 0 < 2 ^ F.fracBits := Nat.two_pow_pos _
  simp [isZero, zero, expField_assemble he hf, fracField_assemble he hf]

theorem sign_zero (s : Bool) : sign F (zero F s) = s :=
  sign_assemble (Nat.two_pow_pos _) (Nat.two_pow_pos _)

theorem valueRat_zero (s : Bool) : valueRat F (zero F s) = 0 :=
  valueRat_eq_zero_iff.2 (isZero_zero s)

theorem isFinite_of_isZero {x : BitVec F.width} (h : isZero F x = true) : isFinite F x = true := by
  have he := expField_eq_zero_iff.2 (.inr h)
  have hmask := F.expMask_eq
  rw [isFinite_iff]
  omega

theorem isFinite_zero (s : Bool) : isFinite F (zero F s) = true :=
  isFinite_of_isZero (isZero_zero s)

/-- A zero is the zero of its sign. -/
theorem zero_sign_of_isZero {x : BitVec F.width} (h : isZero F x = true) : zero F (sign F x) = x := by
  simp only [isZero, Bool.and_eq_true, beq_iff_eq] at h
  obtain ⟨he, hf⟩ := h
  rw [zero, ← assemble_fields x, he, hf, sign_assemble (Nat.two_pow_pos _) (Nat.two_pow_pos _)]

end Patterns

end Sys2Proof.Machine
end

section
/-! PROOFS. `RoundAt` on rationals (R126, R127): which multiples of the unit the rounded magnitude
reaches, mode by mode, and when it is exact. -/

namespace Sys2Proof.Machine

/-! ## What rounding to a unit reaches -/

/-- Rounding the magnitude `r` to a multiple of the unit `u`, with sign `s`, gives at least `k * u`. -/
def reachesMultiple (rm : RoundingMode) (s : Bool) (k : Nat) (u r : Rat) : Prop :=
  match rm with
  | .rne => k * u - u / 2 < r ∨ (k * u - u / 2 = r ∧ k % 2 = 0)
  | .rmm => k * u - u / 2 ≤ r
  | .rtz => k * u ≤ r
  | .rdn => if s then k * u - u < r else k * u ≤ r
  | .rup => if s then k * u ≤ r else k * u - u < r

section ReachesMultiple

variable {rm : RoundingMode} {s : Bool} {k : Nat} {u r : Rat}

theorem reachesMultiple_of_le (hu : 0 < u) (h : k * u ≤ r) : reachesMultiple rm s k u r := by
  cases rm <;> simp only [reachesMultiple]
  case rne => exact .inl (by linarith)
  case rmm => linarith
  case rtz => exact h
  case rdn => split_ifs <;> linarith
  case rup => split_ifs <;> linarith

/-- Rounding moves a magnitude by less than a unit. -/
theorem lt_of_reachesMultiple (hu : 0 < u) (h : reachesMultiple rm s k u r) : k * u - u < r := by
  cases rm <;> simp only [reachesMultiple] at h
  case rne => rcases h with h | ⟨h, -⟩ <;> linarith
  case rmm => linarith
  case rtz => linarith
  case rdn => split_ifs at h <;> linarith
  case rup => split_ifs at h <;> linarith

/-- What rounding to a finer unit reaches, rounding to a coarser one reaches too, where both have it as
a multiple. -/
theorem reachesMultiple_of_finer {k' : Nat} {u' : Rat} (hu : u' < u) (hk : k' * u' = k * u)
    (h : reachesMultiple rm s k' u' r) : reachesMultiple rm s k u r := by
  cases rm <;> simp only [reachesMultiple, hk] at h ⊢
  case rne => rcases h with h | ⟨h, -⟩ <;> exact .inl (by linarith)
  case rmm => linarith
  case rtz => exact h
  case rdn => split_ifs at h ⊢ <;> linarith
  case rup => split_ifs at h ⊢ <;> linarith

/-- What is reached does not depend on the scale. -/
theorem reachesMultiple_mul_iff {c : Rat} (hc : 0 < c) :
    reachesMultiple rm s k (c * u) (c * r) ↔ reachesMultiple rm s k u r := by
  have hwhole : k * (c * u) = c * (k * u) := by ring
  have hhalf : c * (k * u) - c * u / 2 = c * (k * u - u / 2) := by ring
  have hback : c * (k * u) - c * u = c * (k * u - u) := by ring
  simp only [reachesMultiple, hwhole, hhalf, hback, mul_lt_mul_iff_right₀ hc,
    mul_le_mul_iff_right₀ hc, mul_right_inj' hc.ne']

end ReachesMultiple

/-! ## `RoundAt` -/

section RoundAt

variable {rm : RoundingMode} {s : Bool} {a : Nat} {p q : Int}

/-- The dividend of `RoundAt`, in units of `2^q`, is its divisor times the magnitude. -/
theorem roundAt_scale :
    ((a * 2 ^ (p - q).toNat : Nat) : Rat) * (2 : Rat) ^ q =
      ((2 ^ (q - p).toNat : Nat) : Rat) * (a * (2 : Rat) ^ p) := by
  have h2 : (2 : Rat) ≠ 0 := by norm_num
  have hexp : ((p - q).toNat : Int) + q = ((q - p).toNat : Int) + p := by omega
  push_cast
  calc (a : Rat) * 2 ^ (p - q).toNat * (2 : Rat) ^ q
      = a * (2 : Rat) ^ (((p - q).toNat : Int) + q) := by rw [zpow_add₀ h2, zpow_natCast]; ring
    _ = 2 ^ (q - p).toNat * (a * (2 : Rat) ^ p) := by
        rw [hexp, zpow_add₀ h2, zpow_natCast]; ring

/-- Rounding up is reaching the next multiple. -/
theorem roundsUp_iff {n rem D : Nat} (hrem : rem < D) :
    roundsUp rm s n rem D = true ↔ reachesMultiple rm s (n + 1) D ((n * D + rem : Nat) : Rat) := by
  have hN : ((n * D + rem : Nat) : Rat) = ((n + 1 : Nat) : Rat) * D - D + rem := by
    push_cast
    ring
  have hlt : (rem : Rat) < D := by exact_mod_cast hrem
  have hodd : n % 2 = 1 ↔ (n + 1) % 2 = 0 := by omega
  have habove : D < 2 * rem ↔ (D : Rat) < 2 * rem := by exact_mod_cast Iff.rfl
  have hhalf : 2 * rem = D ↔ 2 * (rem : Rat) = D := by exact_mod_cast Iff.rfl
  have hatLeast : D ≤ 2 * rem ↔ (D : Rat) ≤ 2 * rem := by exact_mod_cast Iff.rfl
  simp only [reachesMultiple, hN]
  generalize ((n + 1 : Nat) : Rat) * D = K
  have hnot : ¬K ≤ K - D + rem := by linarith
  cases rm
  case rne =>
    simp only [roundsUp, Bool.or_eq_true, Bool.and_eq_true, decide_eq_true_eq, hodd, habove, hhalf]
    refine or_congr ?_ (and_congr_left' ?_) <;> constructor <;> intro h <;> linarith
  case rmm =>
    simp only [roundsUp, decide_eq_true_eq, hatLeast]
    constructor <;> intro h <;> linarith
  case rtz => simp only [roundsUp, Bool.false_eq_true, hnot]
  case rdn => cases s <;> simp [roundsUp, hnot]
  case rup => cases s <;> simp [roundsUp, hnot]

/-- What the quotient of `N` by `D`, rounded, reaches. -/
theorem le_add_roundsUp_iff {N D k : Nat} (hD : 0 < D) :
    k ≤ N / D + (roundsUp rm s (N / D) (N % D) D).toNat ↔ reachesMultiple rm s k D N := by
  have hmod := Nat.mod_lt N hD
  have hdiv : N / D * D + N % D = N := by rw [Nat.mul_comm]; exact Nat.div_add_mod N D
  have hDpos : (0 : Rat) < D := by exact_mod_cast hD
  have hb := Bool.toNat_le (roundsUp rm s (N / D) (N % D) D)
  rcases lt_trichotomy k (N / D + 1) with h | rfl | h
  · have hk : (k : Rat) * D ≤ N := by
      exact_mod_cast (Nat.le_div_iff_mul_le hD).1 (Nat.le_of_lt_succ h)
    exact iff_of_true (by omega) (reachesMultiple_of_le hDpos hk)
  · have hup := roundsUp_iff (rm := rm) (s := s) (n := N / D) hmod
    rw [hdiv] at hup
    rw [← hup, Nat.add_le_add_iff_left]
    cases roundsUp rm s (N / D) (N % D) D <;> simp
  · refine iff_of_false (by omega) fun hr => ?_
    have hN : N < (N / D + 1) * D := by rw [Nat.succ_mul]; omega
    have hk : (N / D + 1 + 1) * D ≤ k * D := Nat.mul_le_mul_right D h
    have hlt : (k : Rat) * D - D < N := lt_of_reachesMultiple hDpos hr
    have hlt' : k * D < N + D := by
      rw [sub_lt_iff_lt_add] at hlt
      exact_mod_cast hlt
    rw [Nat.succ_mul] at hk
    omega

/-- `RoundAt` on rationals: the multiples of `2^q` it reaches. -/
theorem le_roundAt_iff {k : Nat} :
    k ≤ (roundAt rm s a p q).1 ↔ reachesMultiple rm s k ((2 : Rat) ^ q) (a * (2 : Rat) ^ p) := by
  have hscale := roundAt_scale (a := a) (p := p) (q := q)
  have hq : (0 : Rat) < (2 : Rat) ^ q := by positivity
  have hD : (0 : Rat) < (2 ^ (q - p).toNat : Nat) := by positivity
  refine (le_add_roundsUp_iff (Nat.two_pow_pos _)).trans ?_
  rw [← reachesMultiple_mul_iff hq, ← reachesMultiple_mul_iff hD (u := (2 : Rat) ^ q), ← hscale,
    mul_comm ((2 : Rat) ^ q), mul_comm ((2 : Rat) ^ q)]

/-- `RoundAt` is exact when the magnitude is a multiple of the unit. -/
theorem roundAt_snd_eq_false_iff :
    (roundAt rm s a p q).2 = false ↔ ∃ m : Nat, (a : Rat) * (2 : Rat) ^ p = m * (2 : Rat) ^ q := by
  have hscale := roundAt_scale (a := a) (p := p) (q := q)
  have hq : (0 : Rat) < (2 : Rat) ^ q := by positivity
  have hD : (0 : Rat) < (2 ^ (q - p).toNat : Nat) := by positivity
  have hdvd : (roundAt rm s a p q).2 = false ↔ 2 ^ (q - p).toNat ∣ a * 2 ^ (p - q).toNat := by
    simp [roundAt, Nat.dvd_iff_mod_eq_zero]
  rw [hdvd]
  refine exists_congr fun m => ?_
  rw [← Nat.cast_inj (R := Rat), Nat.cast_mul (2 ^ _) m, ← mul_left_inj' hq.ne', hscale, mul_assoc,
    mul_right_inj' hD.ne']

/-- A magnitude that is a multiple of the unit is rounded to itself (R132). -/
theorem roundAt_of_eq {m : Nat} (h : (a : Rat) * (2 : Rat) ^ p = m * (2 : Rat) ^ q) :
    roundAt rm s a p q = (m, false) := by
  have hq : (0 : Rat) < (2 : Rat) ^ q := by positivity
  refine Prod.ext (le_antisymm ?_ ?_) (roundAt_snd_eq_false_iff.2 ⟨m, h⟩)
  · by_contra hgt
    have hreach := lt_of_reachesMultiple hq
      (le_roundAt_iff.1 (Nat.succ_le_of_lt (Nat.not_le.1 hgt)))
    rw [h] at hreach
    push_cast at hreach
    linarith
  · exact le_roundAt_iff.2 (reachesMultiple_of_le hq h.ge)

/-- An exact rounding gives the magnitude itself. -/
theorem roundAt_exact (h : (roundAt rm s a p q).2 = false) :
    (a : Rat) * (2 : Rat) ^ p = (roundAt rm s a p q).1 * (2 : Rat) ^ q := by
  obtain ⟨m, hm⟩ := roundAt_snd_eq_false_iff.1 h
  rw [roundAt_of_eq hm, hm]

end RoundAt

end Sys2Proof.Machine
end

section
/-! PROOFS. `Round` (R127 to R132): the quantum it keeps, a magnitude that the format holds already, and
results below the least normal magnitude. -/

namespace Sys2Proof.Machine

open Sys2Proof.Claims

/-! ## Exact values and powers of two (R12) -/

theorem two_pow_mul_zpow (k : Nat) (q : Int) :
    ((2 ^ k : Nat) : Rat) * (2 : Rat) ^ q = (2 : Rat) ^ (q + k) := by
  rw [zpow_add₀ two_ne_zero, zpow_natCast, mul_comm, Nat.cast_pow, Nat.cast_ofNat]

theorem zpow_two_lt_iff {a b : Int} : (2 : Rat) ^ a < (2 : Rat) ^ b ↔ a < b :=
  zpow_lt_zpow_iff_right₀ one_lt_two

theorem zpow_two_le_iff {a b : Int} : (2 : Rat) ^ a ≤ (2 : Rat) ^ b ↔ a ≤ b :=
  zpow_le_zpow_iff_right₀ one_lt_two

namespace Exact

/-- The exponent of the leading bit: `e` of R127. -/
def leadExp (x : Exact) : Int := x.exp + x.num.natAbs.log2

theorem toRat_ne_zero {x : Exact} (h : x.num ≠ 0) : x.toRat ≠ 0 := by
  have h2 : (2 : Rat) ^ x.exp ≠ 0 := by positivity
  exact mul_ne_zero (Int.cast_ne_zero.2 h) h2

theorem abs_toRat (x : Exact) : |x.toRat| = x.num.natAbs * (2 : Rat) ^ x.exp := by
  have h2 : (0 : Rat) < (2 : Rat) ^ x.exp := by positivity
  rw [toRat, abs_mul, abs_of_pos h2, ← Int.cast_abs, Int.abs_eq_natAbs, Int.cast_natCast]

theorem toRat_eq_signFactor_mul (x : Exact) :
    x.toRat = signFactor (decide (x.num < 0)) * |x.toRat| := by
  by_cases h : x.num < 0
  · simp [signFactor, h, abs_of_neg (x.num_neg_iff.1 h)]
  · simp [signFactor, h, abs_of_nonneg (not_lt.1 fun hn => h (x.num_neg_iff.2 hn))]

theorem leadExp_bounds {x : Exact} (h : x.num ≠ 0) :
    (2 : Rat) ^ x.leadExp ≤ |x.toRat| ∧ |x.toRat| < (2 : Rat) ^ (x.leadExp + 1) := by
  have h2 : (0 : Rat) < (2 : Rat) ^ x.exp := by positivity
  have hlo : ((2 ^ x.num.natAbs.log2 : Nat) : Rat) ≤ x.num.natAbs :=
    Nat.cast_le.2 (Nat.log2_self_le (Int.natAbs_ne_zero.2 h))
  have hhi : (x.num.natAbs : Rat) < (2 ^ (x.num.natAbs.log2 + 1) : Nat) :=
    Nat.cast_lt.2 Nat.lt_log2_self
  rw [abs_toRat, leadExp, add_assoc, ← Nat.cast_succ, ← two_pow_mul_zpow, ← two_pow_mul_zpow]
  exact ⟨mul_le_mul_of_nonneg_right hlo h2.le, mul_lt_mul_of_pos_right hhi h2⟩

end Exact

/-- A magnitude that the format holds is below the overflow threshold. -/
theorem Canonical.lt_pow {F : Format} {m : Nat} {q : Int} (h : Canonical F m q) :
    (m : Rat) * (2 : Rat) ^ q < (2 : Rat) ^ (F.emax + 1) := by
  have hq : (0 : Rat) < (2 : Rat) ^ q := by positivity
  have hle := h.le_greatest
  calc (m : Rat) * (2 : Rat) ^ q
      < ((2 ^ (F.fracBits + 1) : Nat) : Rat) * (2 : Rat) ^ q :=
        mul_lt_mul_of_pos_right (Nat.cast_lt.2 h.sig_lt) hq
    _ = (2 : Rat) ^ (q + (F.fracBits + 1 : Nat)) := two_pow_mul_zpow _ _
    _ ≤ (2 : Rat) ^ (F.emax + 1) := zpow_two_le_iff.2 (by push_cast; omega)

/-! ## The parts of `Round` (R127, R128) -/

/-- The exponent of the last place kept by `Round`: `q` of R127. -/
def roundQuantum (F : Format) (x : Exact) : Int := max x.leadExp F.emin - F.fracBits

/-- The magnitude `Round` keeps, in units of `2^(roundQuantum F x)`, and whether it is inexact. -/
def rounded (F : Format) (rm : RoundingMode) (x : Exact) : Nat × Bool :=
  roundAt rm (decide (x.num < 0)) x.num.natAbs x.exp (roundQuantum F x)

/-- The rounded magnitude is below the overflow threshold (R128). -/
def InRange (F : Format) (rm : RoundingMode) (x : Exact) : Prop :=
  ((rounded F rm x).1 : Rat) * (2 : Rat) ^ roundQuantum F x < (2 : Rat) ^ (F.emax + 1)

/-- Whether `Round` decides that `x` is tiny (R129). -/
def tinyResult (t : Tininess) (F : Format) (rm : RoundingMode) (x : Exact) : Bool :=
  tiny t F rm (decide (x.num < 0)) x.num.natAbs x.exp x.leadExp

section Round

variable {t : Tininess} {F : Format} {rm : RoundingMode} {x : Exact}

/-- `Round` short of overflow (R127). -/
theorem round_of_inRange (h : InRange F rm x) :
    round t F rm x =
      (encodeMagnitude F (decide (x.num < 0)) (rounded F rm x).1 (roundQuantum F x),
        flagIf (rounded F rm x).2 NX |||
          flagIf (tinyResult t F rm x && (rounded F rm x).2) UF) := by
  have hnot : ¬atLeastPow (rounded F rm x).1 (roundQuantum F x) (F.emax + 1) = true := by
    rw [atLeastPow_iff]
    exact not_le.2 h
  exact if_neg hnot

/-- `Round` on overflow (R128). -/
theorem round_of_not_inRange (h : ¬InRange F rm x) :
    round t F rm x = (overflowResult F rm (decide (x.num < 0)), OF ||| NX) :=
  if_pos ((atLeastPow_iff _ _ _).2 (not_lt.1 h))

/-- The multiples of the quantum that the rounded magnitude reaches. -/
theorem le_rounded_iff {k : Nat} :
    k ≤ (rounded F rm x).1 ↔
      reachesMultiple rm (decide (x.num < 0)) k ((2 : Rat) ^ roundQuantum F x) |x.toRat| := by
  rw [x.abs_toRat]
  exact le_roundAt_iff

/-- Where the rounding is exact, the rounded magnitude is that of `x`. -/
theorem abs_toRat_of_exact (h : (rounded F rm x).2 = false) :
    |x.toRat| = (rounded F rm x).1 * (2 : Rat) ^ roundQuantum F x := by
  rw [x.abs_toRat]
  exact roundAt_exact h

/-! ## Exact results (R132) -/

/-- The quantum of a magnitude that the format holds is the one `Round` keeps. -/
theorem roundQuantum_of_canonical {m : Nat} {q : Int} (hx : x.num ≠ 0)
    (h : |x.toRat| = m * (2 : Rat) ^ q) (hc : Canonical F m q) : roundQuantum F x = q := by
  obtain ⟨hlo, hhi⟩ := x.leadExp_bounds hx
  obtain ⟨hm, hmin, -, hn⟩ := hc
  have hq : (0 : Rat) < (2 : Rat) ^ q := by positivity
  have hbelow (k : Nat) (hk : m < 2 ^ k) : x.leadExp < q + k := by
    rw [← zpow_two_lt_iff, ← two_pow_mul_zpow]
    exact lt_of_le_of_lt (h ▸ hlo) (mul_lt_mul_of_pos_right (Nat.cast_lt.2 hk) hq)
  have habove (hk : 2 ^ F.fracBits ≤ m) : q + F.fracBits < x.leadExp + 1 := by
    rw [← zpow_two_lt_iff, ← two_pow_mul_zpow]
    exact lt_of_le_of_lt (mul_le_mul_of_nonneg_right (Nat.cast_le.2 hk) hq.le) (h ▸ hhi)
  have hlead := hbelow _ hm
  unfold roundQuantum
  by_cases hk : 2 ^ F.fracBits ≤ m
  · have := habove hk
    omega
  · have := hbelow _ (Nat.not_le.1 hk)
    omega

/-- `Round` of a magnitude that the format holds: its own encoding, and no flag. -/
theorem round_of_canonical {m : Nat} {q : Int} (hx : x.num ≠ 0)
    (h : |x.toRat| = m * (2 : Rat) ^ q) (hc : Canonical F m q) :
    round t F rm x = (encodeMagnitude F (decide (x.num < 0)) m q, noFlags) := by
  have hq := roundQuantum_of_canonical hx h hc
  have hr : rounded F rm x = (m, false) := by
    rw [rounded, hq]
    exact roundAt_of_eq (x.abs_toRat ▸ h)
  have hin : InRange F rm x := by
    rw [InRange, hr, hq]
    exact hc.lt_pow
  simp [round_of_inRange hin, hr, hq, flagIf, noFlags]

/-! ## Results short of overflow (R127) -/

/-- Rounding carries at most to the next power of two. -/
theorem rounded_le (hx : x.num ≠ 0) : (rounded F rm x).1 ≤ 2 ^ (F.fracBits + 1) := by
  have hq : (0 : Rat) < (2 : Rat) ^ roundQuantum F x := by positivity
  have hhi := (x.leadExp_bounds hx).2
  have htop : (2 : Rat) ^ (x.leadExp + 1) ≤
      ((2 ^ (F.fracBits + 1) : Nat) : Rat) * (2 : Rat) ^ roundQuantum F x := by
    rw [two_pow_mul_zpow, zpow_two_le_iff, roundQuantum]
    push_cast
    omega
  by_contra hgt
  have hreach := lt_of_reachesMultiple hq (le_rounded_iff.1 (Nat.succ_le_of_lt (Nat.not_le.1 hgt)))
  rw [Nat.cast_succ, add_mul, one_mul, add_sub_cancel_right] at hreach
  exact lt_irrefl _ ((htop.trans_lt hreach).trans hhi)

/-- A magnitude with its leading bit at bit M, above the least exponent and below the overflow
threshold. -/
theorem canonical_of_lt_pow {m : Nat} {q : Int} (hge : 2 ^ F.fracBits ≤ m)
    (hlt : m < 2 ^ (F.fracBits + 1)) (hmin : F.emin ≤ q + F.fracBits)
    (h : (m : Rat) * (2 : Rat) ^ q < (2 : Rat) ^ (F.emax + 1)) : Canonical F m q := by
  have hq : (0 : Rat) < (2 : Rat) ^ q := by positivity
  have hmax : q + F.fracBits < F.emax + 1 := by
    rw [← zpow_two_lt_iff, ← two_pow_mul_zpow]
    exact lt_of_le_of_lt (mul_le_mul_of_nonneg_right (Nat.cast_le.2 hge) hq.le) h
  exact ⟨hlt, hmin, by omega, .inl hge⟩

/-- Below bit M the quantum is the least one. -/
theorem leadExp_lt_of_rounded_lt (hx : x.num ≠ 0) (h : (rounded F rm x).1 < 2 ^ F.fracBits) :
    x.leadExp < F.emin := by
  by_contra hge
  have hq : (0 : Rat) < (2 : Rat) ^ roundQuantum F x := by positivity
  have hle : ((2 ^ F.fracBits : Nat) : Rat) * (2 : Rat) ^ roundQuantum F x ≤ |x.toRat| := by
    refine le_trans ?_ (x.leadExp_bounds hx).1
    rw [two_pow_mul_zpow, zpow_two_le_iff, roundQuantum]
    omega
  exact absurd (le_rounded_iff.2 (reachesMultiple_of_le hq hle)) (Nat.not_le.2 h)

/-- A rounded magnitude short of overflow is encoded as one that the format holds, the same number;
where that one is below bit M, so is the rounded one. -/
theorem exists_canonical_of_inRange (hx : x.num ≠ 0) (h : InRange F rm x) :
    ∃ m q, Canonical F m q ∧
      (m : Rat) * (2 : Rat) ^ q = (rounded F rm x).1 * (2 : Rat) ^ roundQuantum F x ∧
      (∀ s, encodeMagnitude F s (rounded F rm x).1 (roundQuantum F x) = encodeMagnitude F s m q) ∧
      (m < 2 ^ F.fracBits → (rounded F rm x).1 < 2 ^ F.fracBits) := by
  have hle := rounded_le (F := F) (rm := rm) hx
  have hmin : F.emin ≤ roundQuantum F x + F.fracBits := by rw [roundQuantum]; omega
  have hmax : F.emin ≤ F.emax := by cases F <;> decide
  have hlt : 2 ^ F.fracBits < 2 ^ (F.fracBits + 1) := Nat.pow_lt_pow_succ (by decide)
  rcases hle.eq_or_lt with hcarry | hfits
  · have hval : ((2 ^ F.fracBits : Nat) : Rat) * (2 : Rat) ^ (roundQuantum F x + 1) =
        (rounded F rm x).1 * (2 : Rat) ^ roundQuantum F x := by
      rw [hcarry, two_pow_mul_zpow, two_pow_mul_zpow]
      congr 1
      push_cast
      ring
    refine ⟨2 ^ F.fracBits, roundQuantum F x + 1,
      canonical_of_lt_pow (le_refl _) hlt (by omega) (hval ▸ h), hval, fun s => ?_,
      fun hlow => absurd hlow (lt_irrefl _)⟩
    rw [hcarry, encodeMagnitude_carry]
  · refine ⟨_, _, ?_, rfl, fun _ => rfl, id⟩
    by_cases hge : 2 ^ F.fracBits ≤ (rounded F rm x).1
    · exact canonical_of_lt_pow hge hfits hmin h
    · have hlead := leadExp_lt_of_rounded_lt hx (Nat.not_le.1 hge)
      have hquantum : roundQuantum F x + F.fracBits = F.emin := by rw [roundQuantum]; omega
      exact ⟨hfits, hmin, hquantum ▸ hmax, .inr hquantum⟩

/-- Short of overflow the result has the sign of `x` and the rounded magnitude. -/
theorem valueRat_round (hx : x.num ≠ 0) (h : InRange F rm x) :
    valueRat F (round t F rm x).1 =
      signFactor (decide (x.num < 0)) * ((rounded F rm x).1 * (2 : Rat) ^ roundQuantum F x) := by
  obtain ⟨m, q, hc, hval, henc, -⟩ := exists_canonical_of_inRange hx h
  rw [round_of_inRange h, henc, valueRat_encodeMagnitude hc, hval]

/-- A result that differs from `x` was rounded inexactly (R131). -/
theorem rounded_inexact (hx : x.num ≠ 0) (h : InRange F rm x)
    (hne : valueRat F (round t F rm x).1 ≠ x.toRat) : (rounded F rm x).2 = true := by
  by_contra hexact
  rw [Bool.not_eq_true] at hexact
  exact hne (by rw [valueRat_round hx h, ← abs_toRat_of_exact hexact, ← x.toRat_eq_signFactor_mul])

/-! ## Underflow (R129, R130) -/

/-- An overflow result is no subnormal and no zero (R128). -/
theorem expField_overflowResult_ne_zero (s : Bool) : expField F (overflowResult F rm s) ≠ 0 := by
  have hmask := F.expMask_eq
  have hbias := F.bias_pos
  have hlt := F.expMask_lt
  have hinf (s : Bool) : expField F (inf F s) ≠ 0 := by
    rw [inf, expField_assemble hlt (Nat.two_pow_pos _)]
    omega
  have hmaxFinite (s : Bool) : expField F (maxFinite F s) ≠ 0 := by
    rw [maxFinite, expField_assemble (by omega) (Nat.sub_lt (Nat.two_pow_pos _) Nat.one_pos)]
    omega
  cases rm <;> simp only [overflowResult]
  case rne => exact hinf s
  case rmm => exact hinf s
  case rtz => exact hmaxFinite s
  case rdn => split_ifs; exacts [hinf s, hmaxFinite s]
  case rup => split_ifs; exacts [hmaxFinite s, hinf s]

/-- A subnormal or zero result was rounded below bit M, without overflow. -/
theorem rounded_lt_of_expField_eq_zero (hx : x.num ≠ 0)
    (h : expField F (round t F rm x).1 = 0) :
    InRange F rm x ∧ (rounded F rm x).1 < 2 ^ F.fracBits := by
  by_cases hin : InRange F rm x
  · obtain ⟨m, q, hc, -, henc, hlow⟩ := exists_canonical_of_inRange hx hin
    rw [round_of_inRange hin, henc, expField_encodeMagnitude_eq_zero_iff hc] at h
    exact ⟨hin, hlow h⟩
  · rw [round_of_not_inRange hin] at h
    exact absurd h (expField_overflowResult_ne_zero _)

/-- A magnitude rounded below bit M is tiny under either policy: before rounding because it is below
`2^emin`, and after rounding because a rounding to a finer unit that reaches `2^emin` would have done so
at the quantum too. -/
theorem tinyResult_of_rounded_lt (hx : x.num ≠ 0) (h : (rounded F rm x).1 < 2 ^ F.fracBits) :
    tinyResult t F rm x = true := by
  have hlead := leadExp_lt_of_rounded_lt hx h
  cases t
  case beforeRounding =>
    have hlt : |x.toRat| < (2 : Rat) ^ F.emin :=
      (x.leadExp_bounds hx).2.trans_le (zpow_two_le_iff.2 (by omega))
    simp only [tinyResult, tiny, Bool.not_eq_true', Bool.eq_false_iff, Ne, atLeastPow_iff]
    rw [← x.abs_toRat]
    exact not_le.2 hlt
  case afterRounding =>
    simp only [tinyResult, tiny, Bool.not_eq_true', Bool.eq_false_iff, Ne, atLeastPow_iff]
    intro hreach
    have hfine : ((2 ^ (F.emin - (x.leadExp - F.fracBits)).toNat : Nat) : Rat) *
        (2 : Rat) ^ (x.leadExp - F.fracBits) = (2 : Rat) ^ F.emin := by
      rw [two_pow_mul_zpow]
      congr 1
      omega
    have hcoarse : ((2 ^ F.fracBits : Nat) : Rat) * (2 : Rat) ^ roundQuantum F x =
        (2 : Rat) ^ F.emin := by
      rw [two_pow_mul_zpow, roundQuantum]
      congr 1
      omega
    have hunit : (2 : Rat) ^ (x.leadExp - F.fracBits) < (2 : Rat) ^ roundQuantum F x := by
      rw [zpow_two_lt_iff, roundQuantum]
      omega
    rw [← hfine, mul_le_mul_iff_left₀ (by positivity), Nat.cast_le, le_roundAt_iff,
      ← x.abs_toRat] at hreach
    exact absurd
      (le_rounded_iff.2 (reachesMultiple_of_finer hunit (hfine.trans hcoarse.symm) hreach))
      (Nat.not_le.2 h)

end Round

/-! ## The statements about exact and underflowing results (R130, R132) -/

/-- Settles O35: a finite pattern is the encoding of its significand and quantum, which the rounding
step keeps. -/
theorem exactResultsAreUnaffected : Obligations.ExactResultsAreUnaffected := by
  intro t F rm x z hx hz hv
  have habs : |x.toRat| = significand F z * (2 : Rat) ^ quantum F z := by rw [← hv, abs_valueRat]
  have hne : valueRat F z ≠ 0 := hv ▸ Exact.toRat_ne_zero hx
  have hs : decide (x.num < 0) = sign F z := by
    rw [Bool.eq_iff_iff, decide_eq_true_eq, x.num_neg_iff, ← hv, valueRat_neg_iff hne]
  rw [round_of_canonical hx habs (canonical_of_isFinite hz), hs, encodeMagnitude_significand]

/-- UF comes only with inexactness, and so with NX. -/
theorem raises_NX_of_raises_UF : ∀ tiny inexact : Bool,
    raises (flagIf inexact NX ||| flagIf (tiny && inexact) UF) UF = true →
      raises (flagIf inexact NX ||| flagIf (tiny && inexact) UF) NX = true := by
  decide

/-- Settles O38: a result with exponent field 0 was rounded below bit M, where both policies call it
tiny; an overflow has no UF, and an exact result no flag at all by R132. -/
theorem inexactUnderflowSetsUfAndNx : Obligations.InexactUnderflowSetsUfAndNx := by
  intro t F rm x hx
  refine ⟨fun hclass hne => ?_, ?_, fun hfin hval => ?_⟩
  · obtain ⟨hin, hlow⟩ := rounded_lt_of_expField_eq_zero hx (expField_eq_zero_iff.2 hclass)
    rw [round_of_inRange hin, rounded_inexact hx hin hne, tinyResult_of_rounded_lt hx hlow]
    rfl
  · by_cases hin : InRange F rm x
    · rw [round_of_inRange hin]
      exact raises_NX_of_raises_UF _ _
    · rw [round_of_not_inRange hin]
      exact fun _ => (by decide : raises (OF ||| NX) NX = true)
  · rw [exactResultsAreUnaffected t F rm x _ hx hfin hval]

end Sys2Proof.Machine
end

section
/-! PROOFS. The adder core on finite operands and on one infinity: exact zero sums, and the identity of a
reduction (R133, R135, R141, R142). -/

namespace Sys2Proof.Machine

open Sys2Proof.Claims

section Adder

variable {P : Params} {F : Format} {rm : RoundingMode} {u v : BitVec F.width}

/-- On finite operands the adder core rounds the exact sum, and gives a zero by R133 where the sum is
zero. -/
theorem fAddCore_of_finite (hu : isFinite F u = true) (hv : isFinite F v = true) :
    fAddCore P F rm u v =
      if ((value F u).add (value F v)).isZero then
        (zero F (zeroSumSign rm (isZero F u && isZero F v) (sign F u) (sign F v)), noFlags)
      else round P.tininess F rm ((value F u).add (value F v)) := by
  simp [fAddCore, isNaN_eq_false_of_isFinite hu, isNaN_eq_false_of_isFinite hv,
    isInf_eq_false_of_isFinite hu, isInf_eq_false_of_isFinite hv]

theorem sum_isZero_iff :
    ((value F u).add (value F v)).isZero = true ↔ valueRat F u + valueRat F v = 0 := by
  rw [Exact.isZero_iff, Exact.toRat_add, valueRat, valueRat]

/-- R133: the zero of an exact zero sum. -/
theorem fAddCore_of_sum_zero (hu : isFinite F u = true) (hv : isFinite F v = true)
    (h : valueRat F u + valueRat F v = 0) :
    fAddCore P F rm u v =
      (zero F (zeroSumSign rm (isZero F u && isZero F v) (sign F u) (sign F v)), noFlags) := by
  rw [fAddCore_of_finite hu hv, if_pos (sum_isZero_iff.2 h)]

/-- A nonzero sum that the format holds is the result, with no flag (R132, R135). -/
theorem fAddCore_of_sum_eq {z : BitVec F.width} (hu : isFinite F u = true)
    (hv : isFinite F v = true) (hz : isFinite F z = true) (h0 : valueRat F z ≠ 0)
    (h : valueRat F u + valueRat F v = valueRat F z) : fAddCore P F rm u v = (z, noFlags) := by
  have hsum : ¬((value F u).add (value F v)).isZero = true := by
    rw [sum_isZero_iff, h]
    exact h0
  have hnum : ((value F u).add (value F v)).num ≠ 0 := by simpa [Exact.isZero] using hsum
  rw [fAddCore_of_finite hu hv, if_neg hsum]
  refine exactResultsAreUnaffected _ _ _ _ z hnum hz ?_
  rw [Exact.toRat_add, ← h, valueRat, valueRat]

/-- An infinity plus a finite pattern is the infinity (R135). -/
theorem fAddCore_of_inf_left (hu : isInf F u = true) (hn : isNaN F u = false)
    (hv : isFinite F v = true) : fAddCore P F rm u v = (u, noFlags) := by
  simp [fAddCore, hu, hn, isNaN_eq_false_of_isFinite hv, isInf_eq_false_of_isFinite hv]

/-- A finite pattern plus an infinity is the infinity (R135). -/
theorem fAddCore_of_inf_right (hu : isFinite F u = true) (hv : isInf F v = true)
    (hn : isNaN F v = false) : fAddCore P F rm u v = (v, noFlags) := by
  simp [fAddCore, hv, hn, isNaN_eq_false_of_isFinite hu, isInf_eq_false_of_isFinite hu]

/-- A NaN operand gives the NaN result, with NV for a signaling operand (R134, R135). -/
theorem fAddCore_of_nan_left (hu : isNaN F u = true) :
    fAddCore P F rm u v =
      (nanResult P.nanResult F u v, flagIf (isSNaN F u || isSNaN F v) NV) := by
  simp [fAddCore, hu]

/-! ## The identity (R141) -/

theorem isZero_identity : isZero F (identity F rm) = true := isZero_zero _

theorem isFinite_identity : isFinite F (identity F rm) = true := isFinite_zero _

theorem valueRat_identity : valueRat F (identity F rm) = 0 := valueRat_zero _

theorem sign_identity : sign F (identity F rm) = (rm != .rdn) := sign_zero _

/-- The identity's sign loses to a zero of the other sign in either order, and keeps its own (R133). -/
theorem zeroSumSign_identity (s : Bool) :
    zeroSumSign rm true s (rm != .rdn) = s ∧ zeroSumSign rm true (rm != .rdn) s = s := by
  cases rm <;> cases s <;> decide

/-- The identity changes no zero. -/
theorem fAddCore_identity_of_isZero (h : isZero F u = true) :
    fAddCore P F rm u (identity F rm) = (u, noFlags) ∧
    fAddCore P F rm (identity F rm) u = (u, noFlags) := by
  have hfin := isFinite_of_isZero h
  have hval := valueRat_eq_zero_iff.2 h
  obtain ⟨hright, hleft⟩ := zeroSumSign_identity (rm := rm) (sign F u)
  rw [fAddCore_of_sum_zero hfin isFinite_identity (by rw [hval, valueRat_identity, add_zero]),
    fAddCore_of_sum_zero isFinite_identity hfin (by rw [hval, valueRat_identity, add_zero]),
    h, isZero_identity, sign_identity, Bool.and_self, hright, hleft, zero_sign_of_isZero h]
  exact ⟨rfl, rfl⟩

/-- The identity changes no finite pattern other than a zero. -/
theorem fAddCore_identity_of_finite (hfin : isFinite F u = true) (h : valueRat F u ≠ 0) :
    fAddCore P F rm u (identity F rm) = (u, noFlags) ∧
    fAddCore P F rm (identity F rm) u = (u, noFlags) :=
  ⟨fAddCore_of_sum_eq hfin isFinite_identity hfin h (by rw [valueRat_identity, add_zero]),
    fAddCore_of_sum_eq isFinite_identity hfin hfin h (by rw [valueRat_identity, zero_add])⟩

/-- The identity changes no infinity. -/
theorem fAddCore_identity_of_inf (h : isInf F u = true) (hn : isNaN F u = false) :
    fAddCore P F rm u (identity F rm) = (u, noFlags) ∧
    fAddCore P F rm (identity F rm) u = (u, noFlags) :=
  ⟨fAddCore_of_inf_left h hn isFinite_identity, fAddCore_of_inf_right isFinite_identity h hn⟩

end Adder

/-! ## The statements about zero sums and the identity (R133, R142) -/

/-- Settles O41: an exact zero sum of finite operands is the zero that `zeroSumSign` names. -/
theorem zeroSumSignRule : Obligations.ZeroSumSignRule := by
  intro P F rm u v hu hv h
  rw [fAddCore_of_sum_zero hu hv h]
  refine ⟨fun hzu hzv hs => ?_, fun hn => ?_⟩
  · simp [zeroSumSign, hzu, hzv, hs]
  · have hsame : (isZero F u && isZero F v && sign F u == sign F v) = false := by
      simpa [and_assoc] using hn
    simp only [zeroSumSign, hsame]
    cases rm <;> rfl

/-- Settles O44: by the class of the operand, a zero, another finite pattern, an infinity or a NaN; the
identity itself is never signaling. -/
theorem identityIsTwoSided : Obligations.IdentityIsTwoSided := by
  intro P T rm x
  refine ⟨fun hn => ?_, fun hn => ?_⟩
  · by_cases hi : isInf T x = true
    · exact fAddCore_identity_of_inf hi hn
    · have hfin := isFinite_of_not_inf_not_nan (Bool.eq_false_of_not_eq_true hi) hn
      by_cases hz : isZero T x = true
      · exact fAddCore_identity_of_isZero hz
      · exact fAddCore_identity_of_finite hfin (mt valueRat_eq_zero_iff.1 hz)
  · have hid := isSNaN_eq_false (isNaN_eq_false_of_isFinite (isFinite_identity (F := T) (rm := rm)))
    rw [fAddCore_of_nan_left hn, hid, Bool.or_false]
    rfl

end Sys2Proof.Machine
end

section
/-! PROOFS. Widening and the class field (R136, R137). -/

namespace Sys2Proof.Machine

open Sys2Proof.Claims

/-! ## Widening (R136) -/

/-- The wider format has more precision and a wider exponent range, even for the narrower one's least
subnormal. -/
theorem wide_bounds {S T : Format} (h : S.wide = some T) :
    S.fracBits < T.fracBits ∧ T.emin ≤ S.emin - S.fracBits ∧ S.emax ≤ T.emax := by
  cases S <;> cases h <;> decide

/-- A nonzero magnitude of the narrower format, shifted up to the leading bit, is one of the wider. -/
theorem exists_canonical_wide {S T : Format} {m : Nat} {q : Int} (h : S.wide = some T)
    (hc : Canonical S m q) (hm : m ≠ 0) :
    ∃ m' q', Canonical T m' q' ∧ 2 ^ T.fracBits ≤ m' ∧
      (m : Rat) * (2 : Rat) ^ q = m' * (2 : Rat) ^ q' := by
  obtain ⟨hfrac, hemin, hemax⟩ := wide_bounds h
  obtain ⟨hlt, hmin, hmax, -⟩ := hc
  have hlead : m.log2 < S.fracBits + 1 := (Nat.log2_lt hm).2 hlt
  obtain ⟨k, hk⟩ := Nat.exists_eq_add_of_le (show m.log2 ≤ T.fracBits by omega)
  have hge : 2 ^ T.fracBits ≤ m * 2 ^ k := by
    rw [hk, pow_add]
    exact Nat.mul_le_mul_right _ (Nat.log2_self_le hm)
  have hlt' : m * 2 ^ k < 2 ^ (T.fracBits + 1) := by
    rw [hk, Nat.add_right_comm, pow_add]
    exact Nat.mul_lt_mul_of_pos_right Nat.lt_log2_self (Nat.two_pow_pos k)
  refine ⟨m * 2 ^ k, q - k, ⟨hlt', by omega, by omega, .inl hge⟩, hge, ?_⟩
  rw [Nat.cast_mul, mul_assoc, two_pow_mul_zpow, Int.sub_add_cancel]

section Widen

variable {S T : Format} {x : BitVec S.width}

theorem widen_of_isSNaN (h : isSNaN S x = true) : widen S T x = (T.canonicalNaN, NV) := if_pos h

theorem widen_of_isQNaN (h : isQNaN S x = true) : widen S T x = (T.canonicalNaN, noFlags) := by
  have hs : isSNaN S x = false := by
    simp only [isQNaN, Bool.and_eq_true] at h
    simp [isSNaN, h.2]
  simp [widen, hs, h]

theorem isNaN_eq_false_of_isInf (h : isInf S x = true) : isNaN S x = false := by
  simp only [isInf, Bool.and_eq_true, beq_iff_eq] at h
  simp [isNaN, h.2]

theorem widen_of_isInf (h : isInf S x = true) : widen S T x = (inf T (sign S x), noFlags) := by
  have hn := isNaN_eq_false_of_isInf h
  simp [widen, isSNaN_eq_false hn, isQNaN_eq_false hn, h]

theorem widen_of_isFinite (h : isFinite S x = true) :
    widen S T x =
      if isZero S x then (zero T (sign S x), noFlags)
      else ((round .beforeRounding T .rne (value S x)).1, noFlags) := by
  have hn := isNaN_eq_false_of_isFinite h
  simp [widen, isSNaN_eq_false hn, isQNaN_eq_false hn, isInf_eq_false_of_isFinite h]

/-- A nonzero finite pattern widens to a normal magnitude of the wider format with its sign and its
value. -/
theorem widen_of_nonzero (hw : S.wide = some T) (hfin : isFinite S x = true)
    (h0 : isZero S x = false) :
    ∃ m q, Canonical T m q ∧ 2 ^ T.fracBits ≤ m ∧ |valueRat S x| = m * (2 : Rat) ^ q ∧
      widen S T x = (encodeMagnitude T (sign S x) m q, noFlags) := by
  have hv : valueRat S x ≠ 0 := fun h => by simp [valueRat_eq_zero_iff.1 h] at h0
  have hsig : significand S x ≠ 0 := fun h => by simp [isZero_iff_significand.2 h] at h0
  have hnum : (value S x).num ≠ 0 := fun h => hv ((value S x).isZero_iff.1 (by simp [Exact.isZero, h]))
  have hs : decide ((value S x).num < 0) = sign S x := by
    rw [Bool.eq_iff_iff, decide_eq_true_eq, Exact.num_neg_iff]
    exact valueRat_neg_iff hv
  obtain ⟨m, q, hc, hge, hmag⟩ := exists_canonical_wide hw (canonical_of_isFinite hfin) hsig
  have habs : |valueRat S x| = m * (2 : Rat) ^ q := (abs_valueRat x).trans hmag
  refine ⟨m, q, hc, hge, habs, ?_⟩
  rw [widen_of_isFinite hfin, h0, round_of_canonical hnum habs hc, hs]
  rfl

end Widen

/-- Settles O45: a finite operand is a zero, or has a magnitude that the wider format holds as a normal
one. -/
theorem wideningIsExact : Obligations.WideningIsExact := by
  intro S T x hw
  refine ⟨widen_of_isSNaN, widen_of_isQNaN, widen_of_isInf, fun hfin => ?_⟩
  cases h0 : isZero S x
  case true =>
    have hz : isZero T (zero T (sign S x)) = true := isZero_zero _
    have hsub : isSubnormal T (zero T (sign S x)) = false := by
      simp only [isZero, Bool.and_eq_true, beq_iff_eq] at hz
      simp [isSubnormal, hz.2]
    rw [widen_of_isFinite hfin, if_pos h0]
    exact ⟨rfl, isFinite_zero _, hsub, sign_zero _,
      (valueRat_zero _).trans (valueRat_eq_zero_iff.2 h0).symm⟩
  case false =>
    obtain ⟨m, q, hc, hge, habs, hwiden⟩ := widen_of_nonzero hw hfin h0
    have hexp : expField T (encodeMagnitude T (sign S x) m q) ≠ 0 := by
      rw [Ne, expField_encodeMagnitude_eq_zero_iff hc]
      exact Nat.not_lt.2 hge
    rw [hwiden]
    refine ⟨rfl, isFinite_encodeMagnitude hc _, by simp [isSubnormal, hexp],
      sign_encodeMagnitude hc _, ?_⟩
    rw [valueRat_encodeMagnitude hc, ← habs, abs_valueRat, ← valueRat_eq]

/-! ## The class field (R137) -/

section Class

variable {F : Format} (x : BitVec F.width)

/-- R122: a pattern is an infinity, a NaN, a normal, a subnormal or a zero, and just one of them. -/
theorem kind_cases :
    (isInf F x, isNaN F x, isNormal F x, isSubnormal F x, isZero F x) ∈
      [(true, false, false, false, false), (false, true, false, false, false),
        (false, false, true, false, false), (false, false, false, true, false),
        (false, false, false, false, true)] := by
  have hmask : 0 < F.expMask := F.expMask_eq ▸ Nat.succ_pos _
  have hle := expField_le x
  rcases Nat.eq_zero_or_pos (expField F x) with h0 | hpos
  · by_cases hf : fracField F x = 0 <;>
      simp [isInf, isNaN, isNormal, isSubnormal, isZero, hf, h0, hmask.ne]
  · rcases hle.eq_or_lt with htop | hlt
    · by_cases hf : fracField F x = 0 <;>
        simp [isInf, isNaN, isNormal, isSubnormal, isZero, hf, htop, hmask.ne']
    · simp [isInf, isNaN, isNormal, isSubnormal, isZero, hpos, hpos.ne', hlt, hlt.ne]

/-- The class field is a power of two: the bit of the pattern's kind, and of its sign or its quiet
bit. -/
theorem class10_eq_twoPow : ∃ k, k < 10 ∧ class10 F x = BitVec.twoPow 10 k := by
  have hkind := kind_cases x
  simp only [List.mem_cons, Prod.mk.injEq, List.not_mem_nil, or_false] at hkind
  simp only [class10, isQNaN, isSNaN]
  rcases hkind with ⟨hi, hn, hm, hs, hz⟩ | ⟨hi, hn, hm, hs, hz⟩ | ⟨hi, hn, hm, hs, hz⟩ |
    ⟨hi, hn, hm, hs, hz⟩ | ⟨hi, hn, hm, hs, hz⟩ <;>
    simp only [hi, hn, hm, hs, hz, Bool.true_and, Bool.false_and]
  case inl =>
    cases sign F x
    exacts [⟨7, by decide, by decide⟩, ⟨0, by decide, by decide⟩]
  case inr.inl =>
    cases quietBit F x
    exacts [⟨8, by decide, by decide⟩, ⟨9, by decide, by decide⟩]
  case inr.inr.inl =>
    cases sign F x
    exacts [⟨6, by decide, by decide⟩, ⟨1, by decide, by decide⟩]
  case inr.inr.inr.inl =>
    cases sign F x
    exacts [⟨5, by decide, by decide⟩, ⟨2, by decide, by decide⟩]
  case inr.inr.inr.inr =>
    cases sign F x
    exacts [⟨4, by decide, by decide⟩, ⟨3, by decide, by decide⟩]

end Class

/-- Settles O46: the field is a power of two, and each bit is the one the concatenation places
there. -/
theorem classFieldIsOneHot : Obligations.ClassFieldIsOneHot := by
  intro F x
  obtain ⟨k, hk, hfield⟩ := class10_eq_twoPow x
  refine ⟨⟨k, hk, fun j => ?_⟩, ?_⟩
  · rw [hfield, BitVec.getLsbD_twoPow, decide_eq_true hk, Bool.true_and]
    exact decide_eq_decide.2 eq_comm
  · simp only [class10, BitVec.getLsbD_append]
    simp

end Sys2Proof.Machine
end

section
/-! PROOFS. What a reduction micro-op does with a closed sequence (R191, R192), and which operations
close one (R168, R199). -/

namespace Sys2Proof.Machine

open Sys2Proof.Claims

/-! ## The sequence a micro-op finds (R191, R192) -/

/-- A micro-op with `uop_idx = 0` opens its own sequence, whatever it finds. -/
theorem State.sequence_of_zero (s : State) (T rm) {u : UopIdx} (hu : u = 0#3) :
    s.sequence T rm u = .run (RedState.opened T rm) := by
  rcases s.sequence_cases T rm u with ⟨-, e⟩ | ⟨hne, -⟩ | ⟨hne, -⟩ | ⟨hne, -⟩ | ⟨hne, -⟩
  · exact e
  all_goals exact absurd hu hne

/-- A micro-op with another index finds no sequence to continue where none is open. -/
theorem State.sequence_of_closed {s : State} (hv : s.fadd.red.valid = false) (T rm) {u : UopIdx}
    (hu : u ≠ 0#3) : s.sequence T rm u = .refuse .noOpenSequence := by
  rcases s.sequence_cases T rm u with ⟨h0, -⟩ | ⟨-, -, e⟩ | ⟨-, ht, -⟩ | ⟨-, ht, -⟩ | ⟨-, ht, -⟩
  · exact absurd h0 hu
  · exact e
  all_goals exact absurd (hv.symm.trans ht) Bool.false_ne_true

/-! ## A micro-op follows its sequence -/

section MicroOps

variable {mk : RedCtl → Instr} {c : RedCtl} {T : Format} {s : State}

/-- A micro-op is refused for the reason its sequence is. -/
theorem exec_microOp_of_refuse {r : Refusal} (hm : MicroOp mk c T)
    (h : s.sequence T c.rm c.uop = .refuse r) : exec (mk c) s = .refused r := by
  rcases hm with ⟨rfl, rfl⟩ | ⟨rfl, rfl⟩ | ⟨rfl, hw⟩
  · simp only [exec, execFredsumFold, h]
  · simp only [exec, execFredsum, h]
  · simp only [exec, execFwredsum, hw, h]

/-- A micro-op whose sequence runs issues. -/
theorem exec_microOp_of_run {red : RedState} (hm : MicroOp mk c T)
    (h : s.sequence T c.rm c.uop = .run red) : ∃ t, exec (mk c) s = .next t := by
  rcases hm with ⟨rfl, rfl⟩ | ⟨rfl, rfl⟩ | ⟨rfl, hw⟩
  · simp only [exec, execFredsumFold, h, Host.Outcome.next.injEq, exists_eq']
  · simp only [exec, execFredsum, h, Host.Outcome.next.injEq, exists_eq']
  · simp only [exec, execFwredsum, hw, h, Host.Outcome.next.injEq, exists_eq']

end MicroOps

/-! ## The operations that close a sequence (R199) -/

@[simp] theorem State.issueOrdinary_red (s : State) (c : AddCtl) (g) :
    (s.issueOrdinary c g).fadd.red = s.fadd.red.closed := rfl

@[simp] theorem State.issueTerminal_red (s : State) (red : RedState) (T : Format) (sum) :
    (s.issueTerminal red T sum).fadd.red = red.consumed (sum.1.setWidth 64) s.cycle := rfl

/-- A `fredsum` that runs is a terminal step (R195). -/
theorem exec_fredsum_eq_next {c : RedCtl} {s t : State} (h : exec (.fredsum c) s = .next t) :
    ∃ red sum, t = s.issueTerminal red c.fmt sum := by
  simp only [exec, execFredsum] at h
  split at h <;> cases h
  exact ⟨_, _, rfl⟩

/-- An `fwredsum` that runs is a terminal step in the format twice as wide (R196). -/
theorem exec_fwredsum_eq_next {c : RedCtl} {s t : State} (h : exec (.fwredsum c) s = .next t) :
    ∃ T red sum, c.fmt.wide = some T ∧ t = s.issueTerminal red T sum := by
  simp only [exec, execFwredsum] at h
  split at h
  · cases h
  · next T hw =>
    split at h <;> cases h
    exact ⟨T, _, _, hw, rfl⟩

/-- An FADD-unit operation other than a fold step leaves no sequence open: an ordinary one closes the
sequence it finds, a terminal step consumes its own. -/
theorem exec_closes_sequence {i : Instr} {s t : State} (hu : i.unit = .fadd)
    (hfold : ∀ c, i ≠ .fredsumFold c) (h : exec i s = .next t) : t.fadd.red.valid = false := by
  cases i with
  | fadd c | fsub c | fmin c | fmax c | fclass c =>
    cases h
    rw [State.issueOrdinary_red, RedState.closed_valid]
  | fredsumFold c => exact absurd rfl (hfold c)
  | fredsum c =>
    obtain ⟨red, sum, rfl⟩ := exec_fredsum_eq_next h
    rw [State.issueTerminal_red, RedState.consumed_valid]
  | fwredsum c =>
    obtain ⟨T, red, sum, -, rfl⟩ := exec_fwredsum_eq_next h
    rw [State.issueTerminal_red, RedState.consumed_valid]
  | fmul c | fmadd c | fmsub c | fnmadd c | fnmsub c => cases hu
  | vdivu ew | vdiv ew => cases hu

/-- Settles O26: the operation leaves no sequence open, so a micro-op that would continue one finds
none, and one with `uop_idx = 0` opens its own. -/
theorem closedSequencesStayClosed : Obligations.ClosedSequencesStayClosed := by
  intro i s t hu hfold h
  have hclosed : t.fadd.red.valid = false := exec_closes_sequence hu hfold h
  exact ⟨hclosed, fun _ c T hm =>
    ⟨fun hne => exec_microOp_of_refuse hm (State.sequence_of_closed hclosed T c.rm hne),
      fun h0 => exec_microOp_of_run hm (t.sequence_of_zero T c.rm h0)⟩⟩

end Sys2Proof.Machine
end

section
/-! PROOFS. The lanes of the records the floating units issue, and their independence (R139, R229). -/

namespace Sys2Proof.Machine

/-! ## The record an issue appends -/

/-- Lane `k` of the record an FMA-unit issue appends is what the lane function gives for lane `k`. -/
theorem State.issueFma_record_lane {s : State} {F : Format} {g : Nat → BitVec F.width × LaneFlags}
    {rec : FmaRec} {k : Nat} (hk : k < F.lanes)
    (h : (s.issueFma F g).fma.pipe = s.fma.pipe ++ [rec]) :
    lane rec.r F.width k = (g k).1 ∧ lane rec.fl 5 k = (g k).2 := by
  rw [State.issueFma_fma] at h
  obtain rfl := List.singleton_inj.mp (List.append_cancel_left h)
  exact ⟨lane_packResults F g k hk, lane_packFlags F g k hk⟩

/-- Lane `k` of the record an ordinary FADD-unit issue appends is what the lane function gives for lane
`k`. -/
theorem State.issueOrdinary_record_lane {s : State} {c : AddCtl}
    {g : Nat → BitVec c.fmt.width × LaneFlags} {rec : FaddRec} {k : Nat} (hk : k < c.fmt.lanes)
    (h : (s.issueOrdinary c g).fadd.pipe = s.fadd.pipe ++ [rec]) :
    lane rec.r c.fmt.width k = (g k).1 ∧ lane rec.fl 5 k = (g k).2 := by
  rw [State.issueOrdinary, State.issueFadd_fadd] at h
  obtain rfl := List.singleton_inj.mp (List.append_cancel_left h)
  exact ⟨lane_packResults c.fmt g k hk, lane_packFlags c.fmt g k hk⟩

/-! ## What an operation issues -/

/-- Every FMA-unit operation issues the fused core on every lane, under negations and a use of the
addend that it alone fixes (R222 to R226). -/
theorem exec_eq_issueFma {mk : FmaCtl → Instr}
    (hmk : mk ∈ [Instr.fmul, Instr.fmadd, Instr.fmsub, Instr.fnmadd, Instr.fnmsub]) :
    ∃ negP negC useC, ∀ c s,
      exec (mk c) s = .next (s.issueFma c.fmt (s.fmaLane c negP negC useC)) := by
  simp only [List.mem_cons, List.not_mem_nil, or_false] at hmk
  obtain rfl | rfl | rfl | rfl | rfl := hmk
  · exact ⟨false, false, false, fun _ _ => rfl⟩
  · exact ⟨false, false, true, fun _ _ => rfl⟩
  · exact ⟨false, true, true, fun _ _ => rfl⟩
  · exact ⟨true, true, true, fun _ _ => rfl⟩
  · exact ⟨true, false, true, fun _ _ => rfl⟩

/-- Every ordinary FADD-unit operation issues, on every lane, one core of the parameters and of that
lane of the operands A and B (R162 to R166). -/
theorem exec_eq_issueOrdinary {mk : AddCtl → Instr}
    (hmk : mk ∈ [Instr.fadd, Instr.fsub, Instr.fmin, Instr.fmax, Instr.fclass]) (c : AddCtl) :
    ∃ core : Params → BitVec c.fmt.width → BitVec c.fmt.width → BitVec c.fmt.width × LaneFlags,
      ∀ s, exec (mk c) s =
        .next (s.issueOrdinary c fun i => core s.params (s.faddA c.fmt i) (s.faddB c.fmt i)) := by
  simp only [List.mem_cons, List.not_mem_nil, or_false] at hmk
  obtain rfl | rfl | rfl | rfl | rfl := hmk
  · exact ⟨fun P a b => fAddCore P c.fmt c.rm a b, fun _ => rfl⟩
  · exact ⟨fun P a b => fAddCore P c.fmt c.rm a (neg c.fmt b), fun _ => rfl⟩
  · exact ⟨fun _ a b => fMinCore c.fmt a b, fun _ => rfl⟩
  · exact ⟨fun _ a b => fMaxCore c.fmt a b, fun _ => rfl⟩
  · exact ⟨fun _ a _ => fClassCore c.fmt a, fun _ => rfl⟩

/-! ## Independence of the lanes -/

/-- The fused core on lane `k` reads the parameters and lane `k` of the three operands. -/
theorem State.fmaLane_congr {s s' : State} {c : FmaCtl} {k : Nat} (hP : s.params = s'.params)
    (ha : s.fmaA c.fmt k = s'.fmaA c.fmt k) (hb : s.fmaB c.fmt k = s'.fmaB c.fmt k)
    (hc : s.fmaC c.fmt k = s'.fmaC c.fmt k) (negP negC useC : Bool) :
    s.fmaLane c negP negC useC k = s'.fmaLane c negP negC useC k := by
  simp only [State.fmaLane, hP, ha, hb, hc]

/-- Settles O23: lane `k` of either unit's record is the operation's core on lane `k` of the operands,
and that is the same core in both states. -/
theorem lanesAreIndependent : Obligations.LanesAreIndependent := by
  intro s s' k hP
  constructor
  · intro c mk t t' rec rec' hmk hk ha hb hc ht ht' hrec hrec'
    obtain ⟨negP, negC, useC, hexec⟩ := exec_eq_issueFma hmk
    rw [hexec] at ht ht'
    cases ht
    cases ht'
    obtain ⟨hr, hfl⟩ := State.issueFma_record_lane hk hrec
    obtain ⟨hr', hfl'⟩ := State.issueFma_record_lane hk hrec'
    rw [hr, hfl, hr', hfl', State.fmaLane_congr hP ha hb hc]
    exact ⟨rfl, rfl⟩
  · intro c mk t t' rec rec' hmk hk ha hb ht ht' hrec hrec'
    obtain ⟨core, hexec⟩ := exec_eq_issueOrdinary hmk c
    rw [hexec] at ht ht'
    cases ht
    cases ht'
    have hA : s.faddA c.fmt k = s'.faddA c.fmt k := ha
    have hB : s.faddB c.fmt k = s'.faddB c.fmt k := hb
    obtain ⟨hr, hfl⟩ := State.issueOrdinary_record_lane hk hrec
    obtain ⟨hr', hfl'⟩ := State.issueOrdinary_record_lane hk hrec'
    rw [hr, hfl, hr', hfl', hP, hA, hB]
    exact ⟨rfl, rfl⟩

end Sys2Proof.Machine
end

section
/-! PROOFS. The divider: a lane with a nonzero divisor as the quotient and remainder of two words
(R251, R252, R254), the division law (R267), and the lanes of DivResult (R255). -/

namespace Sys2Proof.Machine

/-! ## A lane with a nonzero divisor -/

section Words
variable {w : Nat} {n d : BitVec w}

/-- Unsigned division of a lane is the division of words (R251). -/
theorem divLaneU_of_ne_zero (hd : d ≠ 0) :
    divLaneU n d = { q := n / d, r := n % d, z := false } := by
  have hr : n.toNat - d.toNat * (n.toNat / d.toNat) = n.toNat % d.toNat :=
    (Nat.mod_def n.toNat d.toNat).symm
  have hd0 : d.toNat ≠ 0 := by simpa using BitVec.toNat_ne.mp hd
  rw [divLaneU, if_neg hd0, hr, ← BitVec.toNat_udiv, ← BitVec.toNat_umod]
  simp only [BitVec.ofNat_toNat, BitVec.setWidth_eq]

theorem toInt_ne_zero (hd : d ≠ 0) : d.toInt ≠ 0 := by
  simpa using BitVec.toInt_ne.mpr hd

theorem ofInt_tdiv_eq_sdiv : BitVec.ofInt w (n.toInt.tdiv d.toInt) = n.sdiv d :=
  BitVec.eq_of_toInt_eq (by rw [BitVec.toInt_ofInt, BitVec.toInt_sdiv])

theorem ofInt_tmod_eq_srem : BitVec.ofInt w (n.toInt.tmod d.toInt) = n.srem d := by
  rw [← BitVec.toInt_srem, BitVec.ofInt_toInt]

/-- The overflow of `MIN / -1` wraps: its quotient is `MIN` again (R254). -/
theorem sdiv_eq_self_of_overflow (hn : n.toInt = -(2 : Int) ^ (w - 1)) (hd : d.toInt = -1) :
    n.sdiv d = n := by
  have hw : 0 < w := by
    rcases Nat.eq_zero_or_pos w with rfl | hw
    · rw [BitVec.toInt_zero_length] at hd
      omega
    · exact hw
  have hmin : n = BitVec.intMin w :=
    BitVec.eq_of_toInt_eq (hn.trans (BitVec.toInt_intMin_of_pos hw).symm)
  rw [← ofInt_tdiv_eq_sdiv, hd, Int.tdiv_neg, Int.tdiv_one, BitVec.ofInt_neg, BitVec.ofInt_toInt,
    hmin, BitVec.neg_intMin]

/-- A divisor of -1 leaves no remainder, in overflow too (R254). -/
theorem srem_eq_zero_of_neg_one (hd : d.toInt = -1) : n.srem d = 0 := by
  rw [← ofInt_tmod_eq_srem, hd, Int.tmod_neg, Int.tmod_one]
  rfl

/-- Signed division of a lane is the truncating division of words; the case of `MIN / -1` only
spells out what the words give there (R252, R254). -/
theorem divLaneS_of_ne_zero (hd : d ≠ 0) :
    divLaneS n d = { q := n.sdiv d, r := n.srem d, z := false } := by
  rw [divLaneS, if_neg (toInt_ne_zero hd)]
  split
  next hover =>
    obtain ⟨hn, hm⟩ := hover
    rw [sdiv_eq_self_of_overflow hn hm, srem_eq_zero_of_neg_one hm]
    rfl
  next => rw [← Int.tmod_def, ofInt_tdiv_eq_sdiv, ofInt_tmod_eq_srem]

/-! ## The division law of words -/

theorem mul_udiv_add_umod : d * (n / d) + n % d = n := by
  apply BitVec.eq_of_toNat_eq
  rw [BitVec.toNat_add, BitVec.toNat_mul, BitVec.toNat_udiv, BitVec.toNat_umod, Nat.mod_add_mod,
    Nat.div_add_mod, Nat.mod_eq_of_lt n.isLt]

theorem mul_sdiv_add_srem : d * n.sdiv d + n.srem d = n :=
  calc d * n.sdiv d + n.srem d
      = BitVec.ofInt w (d.toInt * n.toInt.tdiv d.toInt + n.toInt.tmod d.toInt) := by
        rw [BitVec.ofInt_add, BitVec.ofInt_mul, BitVec.ofInt_toInt, ofInt_tdiv_eq_sdiv,
          ofInt_tmod_eq_srem]
    _ = n := by rw [Int.mul_tdiv_add_tmod, BitVec.ofInt_toInt]

theorem abs_toInt_srem_lt (hd : d ≠ 0) : |(n.srem d).toInt| < |d.toInt| := by
  rw [BitVec.toInt_srem, Int.abs_eq_natAbs, Int.abs_eq_natAbs, Int.natAbs_tmod]
  exact Int.ofNat_lt.mpr (Nat.mod_lt _ (Int.natAbs_pos.mpr (toInt_ne_zero hd)))

end Words

/-! ## A request's lanes -/

theorem DivReq.lane_of_unsigned {q : DivReq} {i : Nat} (hs : q.signed = false) (hd : q.D i ≠ 0) :
    q.lane i = { q := q.N i / q.D i, r := q.N i % q.D i, z := false } := by
  rw [DivReq.lane, hs, if_neg Bool.false_ne_true, divLaneU_of_ne_zero hd]

theorem DivReq.lane_of_signed {q : DivReq} {i : Nat} (hs : q.signed = true) (hd : q.D i ≠ 0) :
    q.lane i = { q := (q.N i).sdiv (q.D i), r := (q.N i).srem (q.D i), z := false } := by
  rw [DivReq.lane, if_pos hs, divLaneS_of_ne_zero hd]

/-- Settles O55: in either mode the lane is the division of words, and words obey the law. -/
theorem divisionLaw : Obligations.DivisionLaw := by
  intro q i hd
  cases hs : q.signed with
  | false =>
    rw [DivReq.lane_of_unsigned hs hd]
    exact ⟨mul_udiv_add_umod.symm,
      fun _ => BitVec.umod_lt (q.N i) ((BitVec.pos_iff_ne_zero _).mpr hd), nofun⟩
  | true =>
    rw [DivReq.lane_of_signed hs hd]
    exact ⟨mul_sdiv_add_srem.symm, nofun, fun _ => abs_toInt_srem_lt hd⟩

/-! ## DivResult -/

/-- Bit `i` of a container is its lane `i` of width 1. -/
theorem getLsbD_eq_getLsbD_lane_one {n : Nat} (C : BitVec n) (i : Nat) :
    C.getLsbD i = (lane C 1 i).getLsbD 0 := by
  rw [getLsbD_lane, Nat.one_mul, Nat.add_zero, decide_eq_true Nat.one_pos, Bool.true_and]

theorem DivReq.lane_quotient {q : DivReq} {i : Nat} (hi : i < q.ew.lanes) :
    Machine.lane q.quotient q.ew.bits i = (q.lane i).q := by
  rw [DivReq.quotient, lane_packLanes _ _ (elem_lanes_fit q.ew), if_pos hi]

theorem DivReq.lane_remainder {q : DivReq} {i : Nat} (hi : i < q.ew.lanes) :
    Machine.lane q.remainder q.ew.bits i = (q.lane i).r := by
  rw [DivReq.remainder, lane_packLanes _ _ (elem_lanes_fit q.ew), if_pos hi]

/-- Every bit of the mask: the lane's divide-by-zero bit, or 0 from the lane count on (R255). -/
theorem DivReq.getLsbD_dzmask (q : DivReq) (i : Nat) :
    q.dzmask.getLsbD i = (decide (i < q.ew.lanes) && (q.lane i).z) := by
  rw [getLsbD_eq_getLsbD_lane_one, DivReq.dzmask, lane_packLanes _ _ (dz_lanes_fit q.ew)]
  by_cases hi : i < q.ew.lanes <;> simp [hi]

/-- Settles O56, from the lanes of a packed container. -/
theorem divResultPacking : Obligations.DivResultPacking := by
  intro q i
  constructor
  · intro hi
    refine ⟨DivReq.lane_quotient hi, DivReq.lane_remainder hi, ?_⟩
    rw [DivReq.getLsbD_dzmask, decide_eq_true hi, Bool.true_and]
  · intro hi
    rw [DivReq.getLsbD_dzmask, decide_eq_false hi.not_gt, Bool.false_and]

end Sys2Proof.Machine
end

section
/-! PROOFS. The hazard of a reduction sequence (R320), and the DIV-unit after a flush (R263, R319). -/

namespace Sys2Proof

theorem AddLatency.cycles_pos (l : AddLatency) : 0 < l.cycles := Nat.succ_pos _

end Sys2Proof

namespace Sys2Proof.Machine

open Sys2Proof.Claims

/-! ## The hazard (R320) -/

/-- The hazard with R320's condition read forwards in time. The latency is positive, so the truncated
difference of the model's test says the same for an issue cycle that is still to come. -/
theorem State.reductionTooClose_iff {s : State} :
    s.reductionTooClose = true ↔
      ∃ t', s.fadd.red.last = some t' ∧ s.cycle < t' + s.params.addLatency.cycles := by
  unfold State.reductionTooClose
  cases s.fadd.red.last with
  | none => simp
  | some t' =>
    have hpos := s.params.addLatency.cycles_pos
    simp only [decide_eq_true_eq, Option.some.injEq, exists_eq_left']
    omega

/-- A micro-op that would continue the open sequence of its own format is refused where it comes too
close to the one before it. -/
theorem State.sequence_of_tooClose {s : State} {T : Format} (hv : s.fadd.red.valid = true)
    (hT : s.fadd.red.T = T) (hc : s.reductionTooClose = true) (rm) {u : UopIdx} (hu : u ≠ 0#3) :
    s.sequence T rm u = .refuse .reductionHazard := by
  rcases s.sequence_cases T rm u with ⟨h0, -⟩ | ⟨-, hf, -⟩ | ⟨-, -, hne, -⟩ | ⟨-, -, -, -, e⟩ |
    ⟨-, -, -, hf, -⟩
  · exact absurd h0 hu
  · exact absurd (hv.symm.trans hf) nofun
  · exact absurd hT hne
  · exact e
  · exact absurd (hc.symm.trans hf) nofun

/-- Settles O25: the hazard is the sequence's only answer to a continuing micro-op too close to the one
before it, while one with `uop_idx = 0` opens its own sequence, which has no micro-op before it. -/
theorem reductionHazardIsRefused : Obligations.ReductionHazardIsRefused := by
  intro s mk c T hm
  refine ⟨fun hu hv hT t' hlast hclose => ?_, fun h0 => ?_⟩
  · have hc : s.reductionTooClose = true := State.reductionTooClose_iff.mpr ⟨t', hlast, hclose⟩
    exact exec_microOp_of_refuse hm (State.sequence_of_tooClose hv hT hc c.rm hu)
  · exact exec_microOp_of_run hm (s.sequence_of_zero T c.rm h0)

/-! ## The DIV-unit after a flush (R263, R319) -/

@[simp] theorem State.flushedDiv_st (s : State) : s.flushedDiv.st = .idle := rfl
@[simp] theorem State.flushedDiv_cnt (s : State) : s.flushedDiv.cnt = 0 := rfl

/-- A flush goes before every other transition of the DIV-unit, a captured request included (R265). -/
theorem State.nextDiv_of_flush {s : State} (hf : s.now.div.flush = true) (captured : DivUnit) :
    s.nextDiv captured = { s.flushedDiv with out := s.divOutputs } := by
  rw [State.nextDiv, if_pos hf]

/-- The DIV-unit a step leaves in a cycle with a flush, whatever it was doing (R263). -/
theorem step_div_of_flush {s t : State} (h : step s = .next t) (hf : s.now.div.flush = true) :
    t.div = { s.flushedDiv with out := s.divOutputs } := by
  obtain ⟨-, -, -, -, -, -, ⟨d, -, ht⟩⟩ := step_parts h
  rw [ht, State.nextDiv_of_flush hf]

/-- Settles O59: the unit the flush leaves is IDLE with count 0, and in IDLE it is ready exactly when
no flush is driven. -/
theorem flushTakesOneCycle : Obligations.FlushTakesOneCycle := by
  intro s t hf h
  have hdiv := step_div_of_flush h hf
  have hst : t.div.st = .idle := by rw [hdiv, State.flushedDiv_st]
  have hcnt : t.div.cnt = 0 := by rw [hdiv, State.flushedDiv_cnt]
  exact ⟨hst, hcnt, State.inReady_of_idle hst⟩

end Sys2Proof.Machine
end

section
/-! PROOFS. The decoder and the encoder undo each other (R90 to R106): the fields of an encoded word
are those it was put together from, and a word whose reserved bits are 0 is put together from its
fields. -/

namespace Sys2Proof.Machine

/-! ## Field codes (R94 to R96) -/

@[simp] theorem formatOfCode_formatCode (F : Format) : formatOfCode (formatCode F) = some F := by
  cases F <;> rfl

@[simp] theorem roundingOfCode_roundingCode (rm : RoundingMode) :
    roundingOfCode (roundingCode rm) = some rm := by cases rm <;> rfl

@[simp] theorem elemOfCode_elemCode (ew : ElemWidth) : elemOfCode (elemCode ew) = ew := by
  cases ew <;> rfl

@[simp] theorem elemCode_elemOfCode : ∀ c : BitVec 2, elemCode (elemOfCode c) = c := by decide

/-! ## The fields of an encoded word (R91 to R93) -/

/-- An ACW holds the fields it was put together from. -/
theorem acw_fields (op : BitVec 5) (F : Format) (rm : RoundingMode) (mask redmask : LaneMask)
    (widen isFold : Bool) (uop : UopIdx) :
    let w := acw op F rm mask redmask widen isFold uop
    acwReserved w = 0#9 ∧ wordOp w = op ∧ wordFmt w = formatCode F ∧ wordRm w = roundingCode rm ∧
    acwMask w = mask ∧ acwRedmask w = redmask ∧ acwWiden w = widen ∧ acwIsFold w = isFold ∧
    acwUop w = uop := by
  intro w
  have hbit : ∀ b, w.getLsbD b = (0#9 ++ uop ++ BitVec.ofBool isFold ++ BitVec.ofBool widen ++
      redmask ++ mask ++ roundingCode rm ++ formatCode F ++ op).getLsbD b := fun _ => rfl
  simp only [BitVec.getLsbD_append] at hbit
  refine ⟨?reserved, ?op, ?fmt, ?rm, ?mask, ?redmask, ?widen, ?isFold, ?uop⟩
  case widen => rw [acwWiden, hbit]; simp
  case isFold => rw [acwIsFold, hbit]; simp
  all_goals
    apply BitVec.eq_of_getElem_eq
    intro b hb
    simp only [acwReserved, wordOp, wordFmt, wordRm, acwMask, acwRedmask, acwUop,
      BitVec.getElem_extractLsb', hbit]
    interval_cases b <;> simp

/-- An FCW holds the fields it was put together from. -/
theorem fcw_fields (op : BitVec 5) (c : FmaCtl) :
    fcwReserved (fcw op c) = 0#22 ∧ wordOp (fcw op c) = op ∧
    wordFmt (fcw op c) = formatCode c.fmt ∧ wordRm (fcw op c) = roundingCode c.rm := by
  have hbit : ∀ b, (fcw op c).getLsbD b =
      (0#22 ++ roundingCode c.rm ++ formatCode c.fmt ++ op).getLsbD b := fun _ => rfl
  simp only [BitVec.getLsbD_append] at hbit
  refine ⟨?_, ?_, ?_, ?_⟩
  all_goals
    apply BitVec.eq_of_getElem_eq
    intro b hb
    simp only [fcwReserved, wordOp, wordFmt, wordRm, BitVec.getElem_extractLsb', hbit]
    interval_cases b <;> simp

/-- A DCW holds the fields it was put together from. -/
theorem dcw_fields (signed : Bool) (ew : ElemWidth) :
    dcwReserved (dcw signed ew) = 0#29 ∧ dcwSigned (dcw signed ew) = signed ∧
    dcwEw (dcw signed ew) = elemCode ew := by
  cases signed <;> cases ew <;> decide

/-! ## Decoding an encoded word -/

/-- An ACW with no reserved bit set and valid `fmt` and `rm` codes is read by the opcode map. -/
theorem decodeAcw_of_fields {w : CtlWord} {F : Format} {rm : RoundingMode}
    (hr : acwReserved w = 0#9) (hF : wordFmt w = formatCode F) (hrm : wordRm w = roundingCode rm) :
    decodeAcw w = acwOperation w F rm := by
  simp [decodeAcw, withFormatAndRounding, hr, hF, hrm]

/-- The encoding of an ordinary FADD-unit operation is read back by the arm of its opcode. -/
theorem decodeAcw_acwOrdinary (op : BitVec 5) (c : AddCtl) (mk : AddCtl → Instr)
    (h : ∀ w F rm, wordOp w = op → acwOperation w F rm = ordinaryOf w mk F rm) :
    decodeAcw (acwOrdinary op c) = .instr (mk c) := by
  obtain ⟨hr, hop, hF, hrm, hmask, hred, hwiden, hfold, huop⟩ :=
    acw_fields op c.fmt c.rm c.mask c.redmask false c.isFold c.uop
  rw [acwOrdinary, decodeAcw_of_fields hr hF hrm, h _ _ _ hop, ordinaryOf, hwiden,
    if_neg Bool.false_ne_true, addCtlOf, hmask, hred, hfold, huop]

/-- The encoding of a reduction micro-op is read back through its `is_fold` and `widen` bits. -/
theorem decodeAcw_acwReduction (isFold widen : Bool) (c : RedCtl) :
    decodeAcw (acwReduction isFold widen c) =
      match isFold, widen with
      | true, false => .instr (.fredsumFold c)
      | false, false => .instr (.fredsum c)
      | true, true => .reject .widenedFold
      | false, true => if c.fmt = .f64 then .reject .widenedF64 else .instr (.fwredsum c) := by
  obtain ⟨hr, hop, hF, hrm, hmask, hred, hwiden, hfold, huop⟩ :=
    acw_fields 0x05#5 c.fmt c.rm c.mask c.redmask widen isFold c.uop
  rw [acwReduction, decodeAcw_of_fields hr hF hrm, acwOperation, hop]
  simp only [reductionOf, hfold, hwiden, redCtlOf, hmask, hred, huop]
  rfl

/-- The encoding of an FMA-unit operation is read back by the arm of its opcode. -/
theorem decodeFcw_fcw (op : BitVec 5) (c : FmaCtl) (mk : FmaCtl → Instr)
    (h : ∀ w F rm, wordOp w = op → fcwOperation w F rm = .instr (mk ⟨F, rm⟩)) :
    decodeFcw (fcw op c) = .instr (mk c) := by
  obtain ⟨hr, hop, hF, hrm⟩ := fcw_fields op c
  simp [decodeFcw, withFormatAndRounding, hr, hF, hrm, h _ _ _ hop]

/-- The encoding of a DIV-unit operation is read back through its `signed` bit. -/
theorem decodeDcw_dcw (signed : Bool) (ew : ElemWidth) :
    decodeDcw (dcw signed ew) = .instr (if signed then .vdiv ew else .vdivu ew) := by
  obtain ⟨hr, hs, hew⟩ := dcw_fields signed ew
  cases signed <;> simp [decodeDcw, hr, hs, hew]

/-- Settles O2: operation by operation, the word's fields are the operation's. -/
theorem decodeEncodeRoundTrip : Obligations.DecodeEncodeRoundTrip := by
  intro i hwf
  cases i with
  | fadd c | fsub c | fmin c | fmax c | fclass c =>
    exact decodeAcw_acwOrdinary _ c _ fun w F rm hop => by simp [acwOperation, hop]
  | fredsumFold c => exact decodeAcw_acwReduction true false c
  | fredsum c => exact decodeAcw_acwReduction false false c
  | fwredsum c =>
    have hne : c.fmt ≠ .f64 := by simpa [Instr.wf] using hwf
    exact (decodeAcw_acwReduction false true c).trans (if_neg hne)
  | fmul c | fmadd c | fmsub c | fnmadd c | fnmsub c =>
    exact decodeFcw_fcw _ c _ fun w F rm hop => by simp [fcwOperation, hop]
  | vdivu ew => exact decodeDcw_dcw false ew
  | vdiv ew => exact decodeDcw_dcw true ew

/-! ## Encoding a decoded word -/

/-- An ACW with no reserved bit set is put together from its fields. -/
theorem acw_of_fields {w : CtlWord} {F : Format} {rm : RoundingMode} (hr : acwReserved w = 0#9)
    (hF : wordFmt w = formatCode F) (hrm : wordRm w = roundingCode rm) :
    acw (wordOp w) F rm (acwMask w) (acwRedmask w) (acwWiden w) (acwIsFold w) (acwUop w) = w := by
  rw [acw, ← hr, ← hF, ← hrm]
  unfold acwReserved wordOp wordFmt wordRm acwMask acwRedmask acwWiden acwIsFold acwUop
  ext b hb
  simp only [BitVec.getElem_append]
  interval_cases b <;> simp

/-- An FCW with no reserved bit set is put together from its fields. -/
theorem fcw_of_fields {w : CtlWord} {c : FmaCtl} (hr : fcwReserved w = 0#22)
    (hF : wordFmt w = formatCode c.fmt) (hrm : wordRm w = roundingCode c.rm) :
    fcw (wordOp w) c = w := by
  rw [fcw, ← hr, ← hF, ← hrm]
  unfold fcwReserved wordOp wordFmt wordRm
  ext b hb
  simp only [BitVec.getElem_append]
  interval_cases b <;> simp

/-- A DCW with no reserved bit set is put together from its fields. -/
theorem dcw_of_fields {w : CtlWord} (hr : dcwReserved w = 0#29) :
    dcw (dcwSigned w) (elemOfCode (dcwEw w)) = w := by
  rw [dcw, ← hr, elemCode_elemOfCode]
  unfold dcwReserved dcwSigned dcwEw
  ext b hb
  simp only [BitVec.getElem_append]
  interval_cases b <;> simp

section Decoded

variable {w : CtlWord} {F : Format} {rm : RoundingMode} {i : Instr}

theorem ordinaryOf_inv {mk : AddCtl → Instr} (h : ordinaryOf w mk F rm = .instr i) :
    acwWiden w = false ∧ i = mk (addCtlOf w F rm) := by
  unfold ordinaryOf at h
  split at h <;> cases h
  exact ⟨Bool.eq_false_of_not_eq_true ‹_›, rfl⟩

/-- What the FADD-unit opcode map answers is well formed, and its encoding is the word's fields put
together. -/
theorem acwOperation_inv (h : acwOperation w F rm = .instr i) :
    i.wf = true ∧
    encode i =
      acw (wordOp w) F rm (acwMask w) (acwRedmask w) (acwWiden w) (acwIsFold w) (acwUop w) := by
  unfold acwOperation at h
  split_ifs at h with h0 h1 h2 h3 h4 h5
  · obtain ⟨hw, rfl⟩ := ordinaryOf_inv h; exact ⟨rfl, by rw [h0, hw]; rfl⟩
  · obtain ⟨hw, rfl⟩ := ordinaryOf_inv h; exact ⟨rfl, by rw [h1, hw]; rfl⟩
  · obtain ⟨hw, rfl⟩ := ordinaryOf_inv h; exact ⟨rfl, by rw [h2, hw]; rfl⟩
  · obtain ⟨hw, rfl⟩ := ordinaryOf_inv h; exact ⟨rfl, by rw [h3, hw]; rfl⟩
  · obtain ⟨hw, rfl⟩ := ordinaryOf_inv h; exact ⟨rfl, by rw [h4, hw]; rfl⟩
  · rw [h5]
    unfold reductionOf at h
    split at h
    case h_1 hf hw => cases h; exact ⟨rfl, by rw [hf, hw]; rfl⟩
    case h_2 hf hw => cases h; exact ⟨rfl, by rw [hf, hw]; rfl⟩
    case h_3 => cases h
    case h_4 hf hw =>
      split_ifs at h with hF
      cases h
      exact ⟨decide_eq_true hF, by rw [hf, hw]; rfl⟩

/-- What the FMA-unit opcode map answers is well formed, and its encoding is the word's fields put
together. -/
theorem fcwOperation_inv (h : fcwOperation w F rm = .instr i) :
    i.wf = true ∧ encode i = fcw (wordOp w) ⟨F, rm⟩ := by
  unfold fcwOperation at h
  split_ifs at h with h0 h1 h2 h3 h4 <;> cases h
  · exact ⟨rfl, by rw [h0]; rfl⟩
  · exact ⟨rfl, by rw [h1]; rfl⟩
  · exact ⟨rfl, by rw [h2]; rfl⟩
  · exact ⟨rfl, by rw [h3]; rfl⟩
  · exact ⟨rfl, by rw [h4]; rfl⟩

end Decoded

/-- Settles O3: the opcode map answers an operation whose encoding is the word's fields put
together, and a word with no reserved bit set is just that. -/
theorem decodedWordIsItsEncoding : Obligations.DecodedWordIsItsEncoding := by
  intro u w i h
  refine ⟨decode_unit h, ?_⟩
  cases u with
  | fadd =>
    simp only [decode, decodeAcw] at h
    split at h
    · cases h
    · obtain ⟨F, rm, hF, hrm, hop⟩ := withFormatAndRounding_eq_instr h
      obtain ⟨hwf, henc⟩ := acwOperation_inv hop
      exact ⟨hwf, henc.trans (acw_of_fields (not_not.1 ‹_›) hF hrm)⟩
  | fma =>
    simp only [decode, decodeFcw] at h
    split at h
    · cases h
    · obtain ⟨F, rm, hF, hrm, hop⟩ := withFormatAndRounding_eq_instr h
      obtain ⟨hwf, henc⟩ := fcwOperation_inv hop
      exact ⟨hwf, henc.trans (fcw_of_fields (not_not.1 ‹_›) hF hrm)⟩
  | div =>
    simp only [decode, decodeDcw] at h
    split_ifs at h with hr hs <;> cases h
    · exact ⟨rfl, by rw [encode, ← hs]; exact dcw_of_fields (not_not.1 hr)⟩
    · rw [Bool.not_eq_true] at hs
      exact ⟨rfl, by rw [encode, ← hs]; exact dcw_of_fields (not_not.1 hr)⟩

/-- Settles O1: every word of 95_test_vectors.md section 2.7 is a concrete word, which the decoder
evaluates on. -/
theorem controlWordExamples : Obligations.ControlWordExamples := by
  unfold Obligations.ControlWordExamples
  decide

end Sys2Proof.Machine
end

section
/-! PROOFS. Every step keeps the invariant (R77, R194, R259, R264, R316): what each unit issues in a
cycle, the issue cycles of a pipeline, an open reduction sequence, and the divider. -/

namespace Sys2Proof

theorem DivTiming.one_le_cycles (d : DivTiming) (ew : ElemWidth) : 1 ≤ d.cycles ew := by
  cases ew <;> simp only [DivTiming.cycles] <;> omega

end Sys2Proof

namespace Sys2Proof.Machine

/-! ## What each unit issues in a cycle -/

/-- The FADD-unit issues nothing, or appends one record of this cycle and sets `fadd.red`. -/
theorem Issued.fadd_cases {s : State} {f : FaddUnit} (h : Issued .fadd State.fadd s f) :
    f = s.fadd ∨
    ∃ F r fl we red, f = (s.issueFadd F r fl we red).fadd ∧
      (red = s.fadd.red.closed ∨
       (∃ T rm u red0, s.sequence T rm u = .run red0 ∧ red = red0.folded s.cycle) ∨
       (∃ T rm u red0, s.sequence T rm u = .run red0 ∧ red = red0.consumed r s.cycle)) := by
  rcases h with ⟨-, hp⟩ | ⟨-, i, t, -, hu, he, hp⟩
  · exact .inl hp
  · obtain ⟨F, r, fl, we, red, rfl, hred⟩ := exec_fadd_cases hu he
    exact .inr ⟨F, r, fl, we, red, hp, hred⟩

/-- The FMA-unit issues nothing, or appends one record of this cycle. -/
theorem Issued.fma_cases {s : State} {m : FmaUnit} (h : Issued .fma State.fma s m) :
    m = s.fma ∨ ∃ F g, m = (s.issueFma F g).fma := by
  rcases h with ⟨-, hp⟩ | ⟨-, i, t, -, hu, he, hp⟩
  · exact .inl hp
  · obtain ⟨F, g, rfl⟩ := exec_fma_cases hu he
    exact .inr ⟨F, g, hp⟩

/-- The operation a DCW spells (R93, R99). -/
theorem decode_div_eq_instr {w : CtlWord} {i : Instr} (h : decode .div w = .instr i) :
    i = if dcwSigned w then .vdiv (elemOfCode (dcwEw w)) else .vdivu (elemOfCode (dcwEw w)) := by
  simp only [decode, decodeDcw] at h
  split_ifs at h ⊢ <;> cases h <;> rfl

/-- The DIV-unit after the request on the ports was captured (R256). -/
def State.capturedDiv (s : State) : DivUnit :=
  (s.captureRequest (elemOfCode (dcwEw s.now.div.dcw)) (dcwSigned s.now.div.dcw)).div

/-- The DIV-unit captures the request on its ports where it accepts it, and else issues nothing. -/
theorem Issued.div_cases {s : State} {d : DivUnit} (h : Issued .div State.div s d) :
    (s.accepts = false ∧ d = s.div) ∨ (s.accepts = true ∧ d = s.capturedDiv) := by
  rcases h with ⟨hf, hp⟩ | ⟨hf, i, t, hd, hu, he, hp⟩
  · exact .inl ⟨hf, hp⟩
  · have hready : s.inReady = true := (Bool.and_eq_true_iff.1 hf).2
    have hi := decode_div_eq_instr hd
    refine .inr ⟨hf, hp.trans ?_⟩
    rw [State.capturedDiv]
    cases hs : dcwSigned s.now.div.dcw <;>
      simp only [State.ctlWord, hs, Bool.false_eq_true, if_true, if_false] at hi <;>
      subst hi <;> cases he <;> simp only [State.presentRequest, hready, if_true]

/-! ## The issue cycles of a pipeline -/

section InFlight

variable {L t : Nat}

/-- The cycle ends: a record that is due leaves, and only the oldest can be due (R161, R230). -/
theorem InFlight.endCycle {issues rest : List Nat} (hsorted : issues.Pairwise (· < ·))
    (hbound : ∀ k ∈ issues, k ≤ t ∧ t ≤ k + L)
    (h : (∃ k, issues = k :: rest ∧ k + L = t) ∨
      ((∀ k ∈ issues.head?, k + L ≠ t) ∧ rest = issues)) : InFlight L (t + 1) rest := by
  rcases h with ⟨k, rfl, hdue⟩ | ⟨hnot, rfl⟩
  · obtain ⟨hlater, hsorted⟩ := List.pairwise_cons.1 hsorted
    refine ⟨hsorted, fun j hj => ?_⟩
    have hle := (hbound j (List.mem_cons_of_mem k hj)).1
    have hlt := hlater j hj
    omega
  · refine ⟨hsorted, fun j hj => ?_⟩
    cases rest with
    | nil => cases hj
    | cons k rest =>
      have hk := hbound k List.mem_cons_self
      have hne := hnot k rfl
      have hle := (hbound j hj).1
      rcases List.mem_cons.1 hj with rfl | hmem
      · omega
      · have hlt := (List.pairwise_cons.1 hsorted).1 j hmem
        omega

/-- The issue cycles of a pipeline before this cycle's completion, with or without a record of this
cycle. -/
theorem InFlight.issue {issues issues' : List Nat} (h : InFlight L t issues)
    (h' : issues' = issues ∨ issues' = issues ++ [t]) :
    issues'.Pairwise (· < ·) ∧ ∀ k ∈ issues', k ≤ t ∧ t ≤ k + L := by
  obtain ⟨hsorted, hbound⟩ := h
  have hweak : ∀ k ∈ issues, k ≤ t ∧ t ≤ k + L := fun k hk => by
    have := hbound k hk
    omega
  rcases h' with rfl | rfl
  · exact ⟨hsorted, hweak⟩
  · refine ⟨List.pairwise_append.2 ⟨hsorted, List.pairwise_singleton _ _, fun k hk j hj => ?_⟩,
      fun k hk => ?_⟩
    · rw [List.mem_singleton.1 hj]
      exact (hbound k hk).1
    · rcases List.mem_append.1 hk with hk | hk
      · exact hweak k hk
      · rw [List.mem_singleton.1 hk]
        omega

/-- As many records at most as there are cycles of latency (R316). -/
theorem InFlight.length_le {issues : List Nat} (h : InFlight L t issues) : issues.length ≤ L := by
  obtain ⟨hsorted, hbound⟩ := h
  have hsub : issues.toFinset ⊆ Finset.Ico (t - L) t := fun k hk => by
    have := hbound k (List.mem_toFinset.1 hk)
    rw [Finset.mem_Ico]
    omega
  have hcard := Finset.card_le_card hsub
  rw [List.toFinset_card_of_nodup (hsorted.imp ne_of_lt), Nat.card_Ico] at hcard
  omega

end InFlight

/-- The FADD-unit's completion, on the issue cycles of its pipeline. -/
theorem FaddUnit.complete_issues (u : FaddUnit) (L t : Nat) :
    (∃ k, u.pipe.map FaddRec.issue = k :: (u.complete L t).pipe.map FaddRec.issue ∧ k + L = t) ∨
    ((∀ k ∈ (u.pipe.map FaddRec.issue).head?, k + L ≠ t) ∧
      (u.complete L t).pipe.map FaddRec.issue = u.pipe.map FaddRec.issue) := by
  rcases u.complete_cases L t with ⟨rec, rest, hp, hdue, e⟩ | ⟨hnot, e⟩ <;> rw [e]
  · exact .inl ⟨rec.issue, by rw [hp]; rfl, hdue⟩
  · exact .inr ⟨by simpa using hnot, rfl⟩

/-- The FMA-unit's completion, on the issue cycles of its pipeline. -/
theorem FmaUnit.complete_issues (u : FmaUnit) (L t : Nat) :
    (∃ k, u.pipe.map FmaRec.issue = k :: (u.complete L t).pipe.map FmaRec.issue ∧ k + L = t) ∨
    ((∀ k ∈ (u.pipe.map FmaRec.issue).head?, k + L ≠ t) ∧
      (u.complete L t).pipe.map FmaRec.issue = u.pipe.map FmaRec.issue) := by
  rcases u.complete_cases L t with ⟨rec, rest, hp, hdue, e⟩ | ⟨hnot, e⟩ <;> rw [e]
  · exact .inl ⟨rec.issue, by rw [hp]; rfl, hdue⟩
  · exact .inr ⟨by simpa using hnot, rfl⟩

theorem Issued.fadd_issues {s : State} {f : FaddUnit} (h : Issued .fadd State.fadd s f) :
    f.pipe.map FaddRec.issue = s.fadd.pipe.map FaddRec.issue ∨
    f.pipe.map FaddRec.issue = s.fadd.pipe.map FaddRec.issue ++ [s.cycle] := by
  rcases h.fadd_cases with rfl | ⟨F, r, fl, we, red, rfl, -⟩
  · exact .inl rfl
  · exact .inr (by simp)

theorem Issued.fma_issues {s : State} {m : FmaUnit} (h : Issued .fma State.fma s m) :
    m.pipe.map FmaRec.issue = s.fma.pipe.map FmaRec.issue ∨
    m.pipe.map FmaRec.issue = s.fma.pipe.map FmaRec.issue ++ [s.cycle] := by
  rcases h.fma_cases with rfl | ⟨F, g, rfl⟩
  · exact .inl rfl
  · exact .inr (by simp)

/-! ## The reduction sequence -/

theorem RedState.Sound.mono {red : RedState} {t t' : Nat} (h : red.Sound t) (hle : t ≤ t') :
    red.Sound t' := fun hv =>
  have ⟨hacc, k, hlast, hk⟩ := h hv
  ⟨hacc, k, hlast, hk.trans_le hle⟩

theorem RedState.sound_of_closed {red : RedState} {t : Nat} (h : red.valid = false) : red.Sound t :=
  fun hv => absurd (h.symm.trans hv) Bool.false_ne_true

/-- The sequence a micro-op runs in holds an identity of its format: it was opened with one, and no
fold step changes it (R191, R194). -/
theorem State.sequence_acc {s : State} {T rm u red0} (hs : s.fadd.red.Sound s.cycle)
    (h : s.sequence T rm u = .run red0) :
    red0.acc = (zero red0.T true).setWidth 64 ∨ red0.acc = (zero red0.T false).setWidth 64 := by
  rcases s.sequence_cases T rm u with ⟨-, e⟩ | ⟨-, -, e⟩ | ⟨-, -, -, e⟩ | ⟨-, -, -, -, e⟩ |
    ⟨-, hv, -, -, e⟩ <;> rw [e] at h <;> cases h
  · rw [RedState.opened_acc, RedState.opened_T, identity]
    cases rm != .rdn
    exacts [.inr rfl, .inl rfl]
  · exact (hs hv).1

/-- An issue leaves a sound sequence: closed, consumed, or continued by a fold step. -/
theorem Issued.red_sound {s : State} {f : FaddUnit} (h : Issued .fadd State.fadd s f)
    (hs : s.fadd.red.Sound s.cycle) : f.red.Sound (s.cycle + 1) := by
  rcases h.fadd_cases with rfl | ⟨F, r, fl, we, red, rfl, hred⟩
  · exact hs.mono (Nat.le_succ _)
  rw [State.issueFadd_fadd]
  rcases hred with rfl | ⟨T, rm, u, red0, hseq, rfl⟩ | ⟨T, rm, u, red0, -, rfl⟩
  · exact RedState.sound_of_closed rfl
  · have hacc := State.sequence_acc hs hseq
    exact fun _ => ⟨hacc, s.cycle, rfl, Nat.lt_succ_self _⟩
  · exact RedState.sound_of_closed rfl

/-! ## The divider -/

section Divider

variable {u : DivUnit} {T : DivTiming}

/-- A unit in IDLE with count 0 is sound, whatever its registers hold. -/
theorem DivUnit.sound_of_idle (hst : u.st = .idle) (hcnt : u.cnt = 0) : u.Sound T := by
  simp [DivUnit.Sound, hst, hcnt]

theorem State.capturedDiv_sound (s : State) : s.capturedDiv.Sound s.params.divTiming := by
  exact ⟨fun _ => ⟨s.params.divTiming.one_le_cycles _, le_refl _⟩, fun h => absurd rfl h, nofun⟩

theorem DivUnit.busyCycle_sound (h : u.Sound T) (hst : u.st = .busy) : u.busyCycle.Sound T := by
  obtain ⟨hlo, hhi⟩ := h.1 hst
  unfold DivUnit.busyCycle
  split_ifs with hcnt
  · refine ⟨fun _ => ⟨?_, ?_⟩, fun hne => absurd hst hne, fun hd => nomatch hst.symm.trans hd⟩
    · exact Nat.le_sub_one_of_lt hcnt
    · exact (Nat.sub_le _ _).trans hhi
  · exact ⟨nofun, fun _ => rfl, fun _ => ⟨rfl, rfl, rfl⟩⟩

theorem DivUnit.advance_sound (h : u.Sound T) (outReady : Bool) : (u.advance outReady).Sound T := by
  unfold DivUnit.advance
  split
  case h_1 => exact h
  case h_2 hst => exact DivUnit.busyCycle_sound h hst
  case h_3 hst =>
    split_ifs
    · exact DivUnit.sound_of_idle rfl (h.2.1 (by rw [hst]; decide))
    · exact h

/-- The transition of R265, with the request captured in this cycle. -/
theorem State.nextDiv_cases {s : State} {d : DivUnit} (h : Issued .div State.div s d) :
    (s.now.div.flush = true ∧ s.nextDiv d = { s.flushedDiv with out := s.divOutputs }) ∨
    (s.now.div.flush = false ∧ s.accepts = true ∧
      s.nextDiv d = { s.capturedDiv with out := s.divOutputs }) ∨
    (s.now.div.flush = false ∧ s.accepts = false ∧
      s.nextDiv d = { s.div.advance s.now.div.outReady with out := s.divOutputs }) := by
  cases hf : s.now.div.flush
  · rcases h.div_cases with ⟨ha, -⟩ | ⟨ha, rfl⟩
    · exact .inr (.inr ⟨rfl, ha, by simp [State.nextDiv, hf, ha]⟩)
    · exact .inr (.inl ⟨rfl, ha, by simp [State.nextDiv, hf, ha]⟩)
  · exact .inl ⟨rfl, State.nextDiv_of_flush hf d⟩

theorem State.nextDiv_sound {s : State} {d : DivUnit} (hs : s.div.Sound s.params.divTiming)
    (h : Issued .div State.div s d) : (s.nextDiv d).Sound s.params.divTiming := by
  rcases State.nextDiv_cases h with ⟨-, e⟩ | ⟨-, -, e⟩ | ⟨-, -, e⟩ <;> rw [e]
  · exact DivUnit.sound_of_idle rfl rfl
  · exact s.capturedDiv_sound
  · exact DivUnit.advance_sound hs _

end Divider

/-! ## The statements about the invariant -/

/-- Settles O11: unit by unit, the issue and then the end of the cycle keep each part of the
invariant. -/
theorem stepKeepsInvariant : Obligations.StepKeepsInvariant := by
  intro s t hs h
  obtain ⟨hP, hc, -, -, ⟨f, hf, hfadd⟩, ⟨m, hm, hfma⟩, ⟨d, hd, hdiv⟩⟩ := step_parts h
  obtain ⟨hfsorted, hfbound⟩ := hs.faddInFlight.issue hf.fadd_issues
  obtain ⟨hmsorted, hmbound⟩ := hs.fmaInFlight.issue hm.fma_issues
  refine ⟨?_, ?_, ?_, ?_⟩
  · rw [hP, hc, hfadd]
    exact InFlight.endCycle hfsorted hfbound (f.complete_issues _ _)
  · rw [hc, hfma]
    exact InFlight.endCycle hmsorted hmbound (m.complete_issues _ _)
  · rw [hc, hfadd, FaddUnit.complete_red]
    exact hf.red_sound hs.redSound
  · rw [hP, hdiv]
    exact State.nextDiv_sound hs.divSound hd

/-- Settles O13: as many records as cycles of latency, by their issue cycles. -/
theorem pipelinesAreBounded : Obligations.PipelinesAreBounded := by
  intro s hs
  have hfadd := hs.faddInFlight.length_le
  have hfma := hs.fmaInFlight.length_le
  rw [List.length_map] at hfadd hfma
  exact ⟨hfadd, hfma⟩

theorem inFlight_nil (L t : Nat) : InFlight L t [] := ⟨List.Pairwise.nil, nofun⟩

theorem lane_zero (n w i : Nat) : lane (0#n) w i = 0#w := by simp [lane]

/-- Settles O10: the pipelines are empty, no sequence is open, the divider is IDLE, and the flag
registers hold no flag. -/
theorem resetMeetsInvariant : Obligations.ResetMeetsInvariant := by
  have hfadd : ∀ i, i < 4 → FaddLegal (lane State.reset.fadd.fflags 5 i) := fun i _ => by
    rw [show State.reset.fadd.fflags = 0#20 from rfl, lane_zero]
    unfold FaddLegal
    decide
  have hfma : ∀ i, i < 4 → FmaLegal (lane State.reset.fma.fflags 5 i) := fun i _ => by
    rw [show State.reset.fma.fflags = 0#20 from rfl, lane_zero]
    unfold FmaLegal
    decide
  exact ⟨⟨inFlight_nil _ _, inFlight_nil _ _, RedState.sound_of_closed rfl,
    DivUnit.sound_of_idle rfl rfl⟩, ⟨hfadd, nofun⟩, ⟨hfma, nofun⟩⟩

/-- Settles O6: the parts of a step that no unit owns. -/
theorem stepAdvancesTheClock : Obligations.StepAdvancesTheClock := by
  intro s t h
  obtain ⟨hP, hc, hdraws, hstim, -⟩ := step_parts h
  exact ⟨hc, hdraws, hstim, hP⟩

end Sys2Proof.Machine
end

section
/-! PROOFS. What a step is for one active unit, and that the units share no state (R8, R79). -/

namespace Sys2Proof.Machine

/-! ## A cycle with one active unit -/

theorem issue_of_not_fetches {u : UnitId} {s : State} (h : s.fetches u = false) :
    issue u s = .next s := issue_eq_next.2 (.inl ⟨h, rfl⟩)

theorem issue_of_decode {u : UnitId} {s : State} {i : Instr} (hf : s.fetches u = true)
    (hd : decode u (s.ctlWord u) = .instr i) : issue u s = exec i s := by
  simp [issue, hf, hd]

/-- A floating unit's issue takes no operation away from the units after it. -/
theorem exec_keeps_fetches {i : Instr} {s t : State} {u v : UnitId} (hi : i.unit = u)
    (hu : u ≠ .div) (h : exec i s = .next t) : t.fetches v = s.fetches v := by
  cases u with
  | fadd => obtain ⟨F, r, fl, we, red, rfl, -⟩ := exec_fadd_cases hi h; cases v <;> rfl
  | fma => obtain ⟨F, g, rfl⟩ := exec_fma_cases hi h; cases v <;> rfl
  | div => exact absurd rfl hu

/-- Settles O5: the two units that take nothing leave the state alone, before the active unit's
issue and after it. -/
theorem stepRunsTheDecodedOperation : Obligations.StepRunsTheDecodedOperation := by
  intro s u i hf hother hd _
  have hissue := issue_of_decode hf hd
  have hunit := decode_unit hd
  have hquiet : ∀ v, v ≠ u → issue v s = .next s := fun v hv => issue_of_not_fetches (hother v hv)
  have hafter : ∀ t v, u ≠ .div → v ≠ u → exec i s = .next t → issue v t = .next t :=
    fun t v hu hv ht => issue_of_not_fetches ((exec_keeps_fetches hunit hu ht).trans (hother v hv))
  simp only [step, oneCycle, issueAll]
  cases u with
  | fadd =>
    rw [hissue]
    cases he : exec i s with
    | next t =>
      simp [onNext, hafter t .fma (by decide) (by decide) he,
        hafter t .div (by decide) (by decide) he]
    | fault r => rfl
    | refused r => rfl
  | fma =>
    rw [hquiet .fadd (by decide)]
    simp only [onNext, hissue]
    cases he : exec i s with
    | next t => simp [hafter t .div (by decide) (by decide) he]
    | fault r => rfl
    | refused r => rfl
  | div =>
    rw [hquiet .fadd (by decide)]
    simp only [onNext, hquiet .fma (by decide), hissue]

/-! ## What an issue depends on -/

/-- `i` is a reduction micro-op with control fields `c` (R190). -/
def IsMicroOp (i : Instr) (c : RedCtl) : Prop :=
  i = .fredsumFold c ∨ i = .fredsum c ∨ i = .fwredsum c

/-- `t` is `s` after the issue of `i`, and in `s'` the operation issues the same record: an ordinary
operation closes the sequence it finds in each, a micro-op leaves the same one in both. -/
def IssuesAlike (i : Instr) (s s' t : State) : Prop :=
  ∃ F r fl we red red', t = s.issueFadd F r fl we red ∧
    exec i s' = .next (s'.issueFadd F r fl we red') ∧
    ((red = s.fadd.red.closed ∧ red' = s'.fadd.red.closed ∧ ∀ c, ¬IsMicroOp i c) ∨ red = red')

/-- A unit takes the same operation from the same ports. -/
theorem Issued.cases_of_same_ports {α : Type} {u : UnitId} {s s' : State}
    {part : State → α} {p p' : α}
    (h : Issued u part s p) (h' : Issued u part s' p') (hf : s.fetches u = s'.fetches u)
    (hw : s.ctlWord u = s'.ctlWord u) :
    (p = part s ∧ p' = part s') ∨
    ∃ i t t', i.unit = u ∧ exec i s = .next t ∧ exec i s' = .next t' ∧
      p = part t ∧ p' = part t' := by
  rcases h with ⟨hn, hp⟩ | ⟨hy, i, t, hd, hu, he, hp⟩ <;>
    rcases h' with ⟨hn', hp'⟩ | ⟨hy', i', t', hd', hu', he', hp'⟩
  · exact .inl ⟨hp, hp'⟩
  · simp [hf, hy'] at hn
  · simp [← hf, hy] at hn'
  · rw [← hw, hd] at hd'
    cases hd'
    exact .inr ⟨i, t, t', hu, he, he', hp, hp'⟩

section Depends

variable {s s' t : State} (hP : s.params = s'.params)
include hP

/-- An ordinary FADD-unit operation reads the parameters and the unit's ports (R160). -/
theorem exec_ordinary_congr {mk : AddCtl → Instr} {c : AddCtl}
    (hmk : mk ∈ [Instr.fadd, Instr.fsub, Instr.fmin, Instr.fmax, Instr.fclass])
    (hnow : s.now.fadd = s'.now.fadd) (hnot : ∀ c', ¬IsMicroOp (mk c) c')
    (h : exec (mk c) s = .next t) : IssuesAlike (mk c) s s' t := by
  obtain ⟨core, hexec⟩ := exec_eq_issueOrdinary hmk c
  rw [hexec] at h
  cases h
  refine ⟨_, _, _, _, _, _, rfl, ?_, .inl ⟨rfl, rfl, hnot⟩⟩
  simp only [hexec, State.faddA, State.faddB, ← hnow, ← hP]
  rfl

/-- A reduction micro-op reads the parameters, the unit's ports, the cycle number and the sequence
it finds (R194 to R196). -/
theorem exec_fadd_congr {i : Instr} (hi : i.unit = .fadd) (hcycle : s.cycle = s'.cycle)
    (hnow : s.now.fadd = s'.now.fadd)
    (hseq : ∀ c, IsMicroOp i c → ∀ T, s.sequence T c.rm c.uop = s'.sequence T c.rm c.uop)
    (h : exec i s = .next t) : IssuesAlike i s s' t := by
  cases i with
  | fadd c | fsub c | fmin c | fmax c | fclass c =>
    exact exec_ordinary_congr hP (by simp) hnow (by simp [IsMicroOp]) h
  | fredsumFold c =>
    have hlane : s'.foldLane c = s.foldLane c := by
      funext j
      simp only [State.foldLane, State.faddA, State.faddP, hnow, hP]
    simp only [exec, execFredsumFold] at h
    split at h <;> cases h
    next red e =>
      rw [hseq c (.inl rfl)] at e
      exact ⟨_, _, _, _, _, _, rfl,
        by simp only [exec, execFredsumFold, e, hlane, hcycle], .inr rfl⟩
  | fredsum c =>
    have hlane : s'.redLane c = s.redLane c := by
      funext j
      simp only [State.redLane, State.faddA, hnow]
    simp only [exec, execFredsum] at h
    split at h <;> cases h
    next red e =>
      rw [hseq c (.inr (.inl rfl))] at e
      exact ⟨_, _, _, _, _, _, rfl,
        by simp only [exec, execFredsum, e, hlane, hcycle, hP, State.issueTerminal], .inr rfl⟩
  | fwredsum c =>
    have hlane : s'.wideLane c = s.wideLane c := by
      funext T j
      simp only [State.wideLane, State.faddA, hnow]
    simp only [exec, execFwredsum] at h
    split at h
    · cases h
    next T hT =>
      split at h <;> cases h
      next red e =>
        rw [hseq c (.inr (.inr rfl))] at e
        exact ⟨_, _, _, _, _, _, rfl,
          by simp only [exec, execFwredsum, hT, e, hlane, hcycle, hP,
            State.issueTerminal], .inr rfl⟩
  | fmul c | fmadd c | fmsub c | fnmadd c | fnmsub c => cases hi
  | vdivu ew | vdiv ew => cases hi

/-- An FMA-unit operation reads the parameters and the unit's ports (R220). -/
theorem exec_fma_congr {i : Instr} (hi : i.unit = .fma) (hnow : s.now.fma = s'.now.fma)
    (h : exec i s = .next t) :
    ∃ F g, t = s.issueFma F g ∧ exec i s' = .next (s'.issueFma F g) := by
  have hlane : s'.fmaLane = s.fmaLane := by
    funext c negP negC useC k
    simp only [State.fmaLane, State.fmaA, State.fmaB, State.fmaC, hnow, hP]
  cases i with
  | fmul c => cases h; exact ⟨_, _, rfl, by rw [← hlane]; rfl⟩
  | fmadd c => cases h; exact ⟨_, _, rfl, by rw [← hlane]; rfl⟩
  | fmsub c => cases h; exact ⟨_, _, rfl, by rw [← hlane]; rfl⟩
  | fnmadd c => cases h; exact ⟨_, _, rfl, by rw [← hlane]; rfl⟩
  | fnmsub c => cases h; exact ⟨_, _, rfl, by rw [← hlane]; rfl⟩
  | fadd c | fsub c | fmin c | fmax c | fclass c => cases hi
  | fredsumFold c | fredsum c | fwredsum c => cases hi
  | vdivu ew | vdiv ew => cases hi

theorem Issued.fadd_eq {f f' : FaddUnit} (hcycle : s.cycle = s'.cycle) (hunit : s.fadd = s'.fadd)
    (hnow : s.now.fadd = s'.now.fadd) (h : Issued .fadd State.fadd s f)
    (h' : Issued .fadd State.fadd s' f') : f = f' := by
  have hclose : s.reductionTooClose = s'.reductionTooClose := by
    rw [State.reductionTooClose, State.reductionTooClose, hunit, hcycle, hP]
  have hseq : ∀ T rm u, s.sequence T rm u = s'.sequence T rm u := fun T rm u => by
    rw [State.sequence, State.sequence, hunit, hclose]
  rcases h.cases_of_same_ports h' (by simp only [State.fetches, hnow])
    (by simp only [State.ctlWord, hnow]) with ⟨rfl, rfl⟩ | ⟨i, t, t', hu, he, he', rfl, rfl⟩
  · exact hunit
  · obtain ⟨F, r, fl, we, red, red', rfl, e, hred⟩ :=
      exec_fadd_congr hP hu hcycle hnow (fun c _ T => hseq T c.rm c.uop) he
    cases he'.symm.trans e
    have hsame : red = red' := by
      rcases hred with ⟨rfl, rfl, -⟩ | rfl
      · rw [hunit]
      · rfl
    rw [State.issueFadd_fadd, State.issueFadd_fadd, hunit, hcycle, hsame]

theorem Issued.fma_eq {m m' : FmaUnit} (hcycle : s.cycle = s'.cycle) (hunit : s.fma = s'.fma)
    (hnow : s.now.fma = s'.now.fma) (h : Issued .fma State.fma s m)
    (h' : Issued .fma State.fma s' m') : m = m' := by
  rcases h.cases_of_same_ports h' (by simp only [State.fetches, hnow])
    (by simp only [State.ctlWord, hnow]) with ⟨rfl, rfl⟩ | ⟨i, t, t', hu, he, he', rfl, rfl⟩
  · exact hunit
  · obtain ⟨F, g, rfl, e⟩ := exec_fma_congr hP hu hnow he
    cases he'.symm.trans e
    rw [State.issueFma_fma, State.issueFma_fma, hunit, hcycle]

/-- The divider's transition reads the parameters, the unit, its ports and the draws (R265). -/
theorem State.nextDiv_eq {d d' : DivUnit} (hunit : s.div = s'.div) (hnow : s.now.div = s'.now.div)
    (hdraws : s.draws = s'.draws) (h : Issued .div State.div s d)
    (h' : Issued .div State.div s' d') : s.nextDiv d = s'.nextDiv d' := by
  have hready : s.inReady = s'.inReady := by simp only [State.inReady, hunit, hnow]
  have haccepts : s.accepts = s'.accepts := by simp only [State.accepts, hready, hnow]
  have hd : d = d' := by
    rcases h.div_cases with ⟨ha, rfl⟩ | ⟨ha, rfl⟩ <;>
      rcases h'.div_cases with ⟨ha', rfl⟩ | ⟨ha', rfl⟩
    · exact hunit
    · simp [haccepts, ha'] at ha
    · simp [← haccepts, ha] at ha'
    · simp only [State.capturedDiv, State.captureRequest, State.withDiv_div, hunit, hnow, hP]
  have hflushed : s.flushedDiv = s'.flushedDiv := by
    rw [State.flushedDiv, State.flushedDiv, hunit, hdraws]
  have hout : s.divOutputs = s'.divOutputs := by
    rw [State.divOutputs, State.divOutputs, State.divOutValid, State.divOutValid, hready,
      hunit, hdraws]
  rw [State.nextDiv, State.nextDiv, hnow, haccepts, hflushed, hout, hunit, hd]

end Depends

/-- Settles O7: unit by unit, the issue and the end of the cycle read the unit's own part and
ports. -/
theorem unitsShareNoState : Obligations.UnitsShareNoState := by
  intro s s' t t' h h' hP hcycle
  obtain ⟨-, -, -, -, ⟨f, hf, hfadd⟩, ⟨m, hm, hfma⟩, ⟨d, hd, hdiv⟩⟩ := step_parts h
  obtain ⟨-, -, -, -, ⟨f', hf', hfadd'⟩, ⟨m', hm', hfma'⟩, ⟨d', hd', hdiv'⟩⟩ := step_parts h'
  refine ⟨fun hunit hnow => ?_, fun hunit hnow => ?_, fun hunit hnow hdraws => ?_⟩
  · rw [hfadd, hfadd', hf.fadd_eq hP hcycle hunit hnow hf', hP, hcycle]
  · rw [hfma, hfma', hm.fma_eq hP hcycle hunit hnow hm', hcycle]
  · rw [hdiv, hdiv', State.nextDiv_eq hP hunit hnow hdraws hd hd']

end Sys2Proof.Machine
end

section
/-! PROOFS. What each operation issues: the ordinary FADD-unit operations (R162 to R168), the
FMA-unit's (R222 to R226), the reduction micro-ops where they may run (R190 to R200), and the
divider's requests (R256, R257, R266). -/

namespace Sys2Proof.Machine

open Sys2Proof.Claims

/-! ## Packed lanes -/

/-- The flag fields at and above the lane count are 0 (R160). -/
theorem lane_packFlags_of_le (F : Format) (g : Nat → BitVec F.width × LaneFlags) {i : Nat}
    (h : F.lanes ≤ i) : lane (packFlags F g) 5 i = 0#5 := by
  rw [packFlags, lane_packLanes _ _ (flagLanes_fit F), if_neg (Nat.not_lt.2 h)]

/-- A packed container depends on its lanes alone. -/
theorem packLanes_congr {n w k : Nat} {g g' : Nat → BitVec w} (h : ∀ i, i < k → g i = g' i) :
    packLanes n w k g = packLanes n w k g' :=
  List.foldl_ext _ _ _ fun C i hi => by rw [h i (List.mem_range.1 hi)]

/-! ## The ordinary operations -/

theorem issuesOrdinary_issueOrdinary (s : State) (c : AddCtl)
    (g : Nat → BitVec c.fmt.width × LaneFlags) :
    IssuesOrdinary s c g (.next (s.issueOrdinary c g)) :=
  ⟨_, rfl, rfl, rfl, rfl, fun i hi => ⟨lane_packResults _ g i hi, lane_packFlags _ g i hi⟩,
    fun _ hi => lane_packFlags_of_le _ g hi⟩

/-- Settles O14: each operation is the ordinary issue of its own lane function. -/
theorem faddFamilyIssues : Obligations.FaddFamilyIssues := fun s c =>
  ⟨issuesOrdinary_issueOrdinary s c _, issuesOrdinary_issueOrdinary s c _,
    issuesOrdinary_issueOrdinary s c _, issuesOrdinary_issueOrdinary s c _,
    issuesOrdinary_issueOrdinary s c _⟩

theorem issuesFma_issueFma (s : State) (c : FmaCtl) (g : Nat → BitVec c.fmt.width × LaneFlags) :
    IssuesFma s c g (.next (s.issueFma c.fmt g)) :=
  ⟨_, rfl, rfl, rfl, fun i hi => ⟨lane_packResults _ g i hi, lane_packFlags _ g i hi⟩,
    fun _ hi => lane_packFlags_of_le _ g hi⟩

/-- Settles O15: each operation is the issue of the fused core with its own signs. -/
theorem fmaFamilyIssues : Obligations.FmaFamilyIssues := fun s c =>
  ⟨issuesFma_issueFma s c _, issuesFma_issueFma s c _, issuesFma_issueFma s c _,
    issuesFma_issueFma s c _, issuesFma_issueFma s c _⟩

/-- Settles O21: the lanes of the negated operand are the negated lanes, so both operations issue
the same record. -/
theorem fsubIsFaddOfNegation : Obligations.FsubIsFaddOfNegation := by
  intro s t t' c h h'
  have hB : ∀ i, i < c.fmt.lanes →
      (withFaddB s (negLanes c.fmt s.now.fadd.b)).faddB c.fmt i = neg c.fmt (s.faddB c.fmt i) :=
    fun i hi => (lane_packLanes _ _ (lanes_fit c.fmt) i).trans (if_pos hi)
  have hlane : ∀ i, i < c.fmt.lanes →
      fAddCore s.params c.fmt c.rm (s.faddA c.fmt i) (neg c.fmt (s.faddB c.fmt i)) =
        fAddCore s.params c.fmt c.rm (s.faddA c.fmt i)
          ((withFaddB s (negLanes c.fmt s.now.fadd.b)).faddB c.fmt i) := fun i hi => by rw [hB i hi]
  cases h
  cases h'
  simp only [State.issueOrdinary, State.issueFadd_fadd, packResults, packFlags]
  rw [packLanes_congr fun i hi => congrArg Prod.fst (hlane i hi),
    packLanes_congr fun i hi => congrArg Prod.snd (hlane i hi)]
  rfl

/-! ## The sequence of a micro-op that may run (R191, R192, R320) -/

section MicroOps

variable {s : State} {T : Format} {u : UopIdx}

/-- A micro-op that may run finds an open sequence of its format, with the accumulator of R191 or
R192. -/
theorem State.sequence_of_mayRun (rm : RoundingMode) (h : MayRun s T u) :
    ∃ last, s.sequence T rm u =
      .run { valid := true, T := T, acc := accFound s T rm u, last := last } := by
  by_cases hu : u = 0#3
  · rw [s.sequence_of_zero T rm hu, accFound, if_pos hu]
    exact ⟨_, rfl⟩
  · obtain ⟨hv, hT, hlast⟩ := h.resolve_left hu
    have hfar : s.reductionTooClose = false := by
      rw [Bool.eq_false_iff, Ne, State.reductionTooClose_iff]
      rintro ⟨t', ht', hlt⟩
      have hge := hlast t' ht'
      have hpos := s.params.addLatency.cycles_pos
      omega
    refine ⟨s.fadd.red.last, ?_⟩
    rw [State.sequence, if_neg hu, if_neg (by simp [hv]), if_neg (not_not.2 hT), hfar,
      if_neg Bool.false_ne_true, accFound, if_neg hu, ← hv, ← hT]

/-- Settles O24: a closed sequence, or one of another format, is refused before anything else. -/
theorem continuingNeedsAnOpenSequence : Obligations.ContinuingNeedsAnOpenSequence := by
  intro s mk c T hm hu hred
  rcases s.sequence_cases T c.rm c.uop with ⟨h0, -⟩ | ⟨-, -, e⟩ | ⟨-, -, -, e⟩ |
    ⟨-, hv, hT, -⟩ | ⟨-, hv, hT, -⟩
  · exact absurd h0 hu
  · exact .inl (exec_microOp_of_refuse hm e)
  · exact .inr (exec_microOp_of_refuse hm e)
  all_goals
    rcases hred with hf | hne
    · exact absurd (hf.symm.trans hv) Bool.false_ne_true
    · exact absurd hT hne

/-- Settles O16: the record holds the lanes of `foldLane`, and the sequence is the one found. -/
theorem foldStepRuns : Obligations.FoldStepRuns := by
  intro s c hrun
  obtain ⟨last, hseq⟩ := State.sequence_of_mayRun c.rm hrun
  refine ⟨_, by simp only [exec, execFredsumFold, hseq]; rfl, rfl, rfl, rfl, fun j hj hsel => ?_,
    fun j hj hsel => ?_⟩
  · rw [lane_packResults _ _ _ hj, lane_packFlags _ _ _ hj, State.foldLane, if_pos hsel]
    rfl
  · rw [lane_packResults _ _ _ hj, lane_packFlags _ _ _ hj, State.foldLane,
      if_neg (Bool.eq_false_iff.1 hsel)]
    exact ⟨rfl, rfl⟩

end MicroOps

/-! ## Terminal steps (R195 to R198) -/

theorem orFlags_succ (n : Nat) (g : Nat → LaneFlags) : orFlags (n + 1) g = orFlags n g ||| g n := by
  rw [orFlags, List.range_succ, List.foldl_append]
  rfl

theorem orFlags_noFlags (n : Nat) : orFlags n (fun _ => noFlags) = noFlags := by
  induction n with
  | zero => rfl
  | succ n ih => rw [orFlags_succ, ih]; rfl

theorem noFlags_or (x : LaneFlags) : noFlags ||| x = x := BitVec.zero_or

/-- The tree of the model, with the flags that come with its entries, is the tree sum of R197. -/
theorem treeSum_eq (P : Params) (F T : Format) (rm : RoundingMode)
    (v : Nat → BitVec T.width × LaneFlags) :
    treeSum P T rm F.lanesLog2 v =
      ((tree P T rm F.lanesLog2 fun i => (v i).1).1,
        orFlags F.lanes (fun i => (v i).2) ||| (tree P T rm F.lanesLog2 fun i => (v i).1).2) := by
  have h1 (g : Nat → LaneFlags) : orFlags 1 g = g 0 := noFlags_or _
  have h2 (g : Nat → LaneFlags) : orFlags 2 g = g 0 ||| g 1 := by rw [orFlags_succ, h1]
  have h4 (g : Nat → LaneFlags) : orFlags 4 g = g 0 ||| g 1 ||| g 2 ||| g 3 := by
    rw [orFlags_succ, orFlags_succ, h2]
  cases F <;> simp [treeSum, Format.lanesLog2, Format.lanes, plus, tree, noFlags, h1, h2, h4]
  case f16 => ac_rfl

/-- What a terminal step commits: the identity where no lane is selected, else the accumulator plus
the tree sum of its entries with their flags (R195, R197, R200). -/
theorem terminalSum_eq (P : Params) (T : Format) (c : RedCtl) (acc : Pack64)
    (v : Nat → BitVec T.width × LaneFlags) :
    (SelectsNoLane c →
      terminalSum P T c.rm (selectsNone c) acc c.fmt.lanesLog2 (fun i => (v i).1)
        (orFlags c.fmt.lanes fun i => (v i).2) = (identity T c.rm, noFlags)) ∧
    (¬SelectsNoLane c →
      terminalSum P T c.rm (selectsNone c) acc c.fmt.lanesLog2 (fun i => (v i).1)
        (orFlags c.fmt.lanes fun i => (v i).2) =
      plus P T c.rm (acc.setWidth T.width, noFlags) (treeSum P T c.rm c.fmt.lanesLog2 v)) := by
  refine ⟨fun h => ?_, fun h => ?_⟩
  · rw [selectsNone_iff.2 h, terminalSum_none]
  · rw [Bool.eq_false_iff.2 (mt selectsNone_iff.1 h), terminalSum_some, plus, treeSum_eq,
      noFlags_or]

/-- A micro-op with accumulator format `T` that may run as a terminal step with these entries. -/
theorem issuesTerminal_of_eq {s : State} {c : RedCtl} {T : Format}
    {v : Nat → BitVec T.width × LaneFlags} {o : Host.Outcome State Fault Refusal}
    {last : Option Nat}
    (h : o = .next (s.issueTerminal
      { valid := true, T := T, acc := accFound s T c.rm c.uop, last := last } T
      (terminalSum s.params T c.rm (selectsNone c) (accFound s T c.rm c.uop) c.fmt.lanesLog2
        (fun i => (v i).1) (orFlags c.fmt.lanes fun i => (v i).2)))) :
    (SelectsNoLane c → IssuesTerminal s T (identity T c.rm, noFlags) o) ∧
    (¬SelectsNoLane c → IssuesTerminal s T
      (plus s.params T c.rm ((accFound s T c.rm c.uop).setWidth T.width, noFlags)
        (treeSum s.params T c.rm c.fmt.lanesLog2 v)) o) := by
  obtain ⟨hnone, hsome⟩ := terminalSum_eq s.params T c (accFound s T c.rm c.uop) v
  exact ⟨fun hsel => by rw [h, hnone hsel]; rfl, fun hsel => by rw [h, hsome hsel]; rfl⟩

/-- Settles O17: the entries of a `fredsum` come with no flag. -/
theorem terminalStepRuns : Obligations.TerminalStepRuns := by
  intro s c hrun
  obtain ⟨last, hseq⟩ := State.sequence_of_mayRun c.rm hrun
  have hres : (fun i => (if c.redmask.getLsbD i = true then
      (lane s.now.fadd.a c.fmt.width i, noFlags) else (identity c.fmt c.rm, noFlags)).1) =
      s.redLane c := by
    funext i
    rw [State.redLane, apply_ite Prod.fst]
    rfl
  have hfl : (fun i => (if c.redmask.getLsbD i = true then
      (lane s.now.fadd.a c.fmt.width i, noFlags) else (identity c.fmt c.rm, noFlags)).2) =
      fun _ => noFlags := by
    funext i
    rw [apply_ite Prod.snd, ite_self]
  refine issuesTerminal_of_eq (last := last) ?_
  simp only [exec, execFredsum, hseq, hres, hfl, orFlags_noFlags]

/-- Settles O18: the entries of an `fwredsum` are the widened lanes, with the flags of widening
them. -/
theorem widenedTerminalStepRuns : Obligations.WidenedTerminalStepRuns := by
  intro s c T hw hrun
  obtain ⟨last, hseq⟩ := State.sequence_of_mayRun c.rm hrun
  refine issuesTerminal_of_eq (last := last) (v := s.wideLane c T) ?_
  simp only [exec, execFwredsum, hw, hseq]

/-! ## Micro-ops with no lane selected (R200) -/

theorem identity_eq (T : Format) (rm : RoundingMode) :
    identity T rm = zero T (decide (rm ≠ .rdn)) := by
  cases rm <;> rfl

theorem packLanes_zero (n w k : Nat) : packLanes n w k (fun _ => 0#w) = 0#n := by
  induction k with
  | zero => rfl
  | succ k ih =>
    rw [packLanes, List.range_succ, List.foldl_append]
    refine (congrArg (setLane · k 0#w) ih).trans ?_
    simp [setLane]

/-- Settles O27: a fold step puts the identity in every lane, a terminal step commits it. -/
theorem emptyReductionMaskGivesIdentity : Obligations.EmptyReductionMaskGivesIdentity := by
  intro s mk c T hm hrun hsel
  have hzero : (noFlags : LaneFlags).setWidth 20 = 0#20 := by decide
  rcases hm with ⟨rfl, rfl⟩ | ⟨rfl, rfl⟩ | ⟨rfl, hw⟩
  · obtain ⟨last, hseq⟩ := State.sequence_of_mayRun c.rm hrun
    have hlane : ∀ i, i < c.fmt.lanes → s.foldLane c i = (identity c.fmt c.rm, noFlags) :=
      fun i hi => if_neg (by simp [hsel i hi])
    refine ⟨_, _, by simp only [exec, execFredsumFold, hseq]; rfl, rfl, rfl, ?_,
      fun _ i hi => ?_, fun hne => absurd rfl hne⟩
    · rw [packFlags, packLanes_congr fun i hi => congrArg Prod.snd (hlane i hi)]
      exact packLanes_zero _ _ _
    · rw [lane_packResults _ _ _ hi, hlane i hi, identity_eq]
  · have he := (terminalStepRuns s c hrun).1 hsel
    exact ⟨_, _, he, rfl, rfl, hzero, fun e => (nomatch congrFun e c), fun _ => by rw [identity_eq]⟩
  · have he := (widenedTerminalStepRuns s c T hw hrun).1 hsel
    exact ⟨_, _, he, rfl, rfl, hzero, fun e => (nomatch congrFun e c), fun _ => by rw [identity_eq]⟩

/-! ## Frames and determinism -/

/-- Settles O19: a request is captured just where `in_ready` is 1 (R257). -/
theorem divRequestIsCaptured : Obligations.DivRequestIsCaptured := by
  intro s ew
  refine ⟨fun hflush hst => ?_, fun hst => ?_⟩
  · have hready : s.inReady = true := by
      rcases hst with h | ⟨h, ho⟩ <;> simp [State.inReady, *]
    simp only [exec, execVdivu, execVdiv, State.presentRequest, hready, if_true]
    exact ⟨rfl, rfl⟩
  · have hready : s.inReady = false := by
      rcases hst with h | h | ⟨h, ho⟩ <;> simp [State.inReady, *]
    simp only [exec, execVdivu, execVdiv, State.presentRequest, hready, Bool.false_eq_true,
      if_false,
      and_self]

/-- A presented request changes `div.st`, `div.cnt` and `div.req` at most (R256, R266). -/
theorem State.presentRequest_frame (s : State) (ew : ElemWidth) (sg : Bool) :
    s.presentRequest ew sg = s.withDiv { s.div with
      st := (s.presentRequest ew sg).div.st
      cnt := (s.presentRequest ew sg).div.cnt
      req := (s.presentRequest ew sg).div.req } := by
  unfold State.presentRequest
  split <;> rfl

/-- A fold step that continues a sequence keeps its accumulator (R194). -/
theorem exec_fredsumFold_acc {c : RedCtl} {s t : State} (hu : c.uop ≠ 0#3)
    (h : exec (.fredsumFold c) s = .next t) : t.fadd.red.acc = s.fadd.red.acc := by
  simp only [exec, execFredsumFold] at h
  rcases s.sequence_cases c.fmt c.rm c.uop with ⟨h0, -⟩ | ⟨-, -, e⟩ | ⟨-, -, -, e⟩ |
    ⟨-, -, -, -, e⟩ | ⟨-, -, -, -, e⟩
  · exact absurd h0 hu
  all_goals
    rw [e] at h
    cases h
  rfl

/-- Settles O20: each unit's operations append one record, or capture one request, and write nothing
else but the sequence. -/
theorem execFrame : Obligations.ExecFrame := by
  intro i s t h
  refine ⟨fun hu => ?_, fun hu => ?_, fun hu => ?_, ?_, ?_⟩
  · obtain ⟨F, r, fl, we, red, rfl, -⟩ := exec_fadd_cases hu h
    exact ⟨rfl, _, rfl, rfl⟩
  · obtain ⟨F, g, rfl⟩ := exec_fma_cases hu h
    exact ⟨rfl, _, rfl, rfl⟩
  · obtain ⟨ew, sg, -, rfl⟩ := exec_div_cases hu h
    exact s.presentRequest_frame ew sg
  · rintro ⟨c, hc⟩
    simp only [List.mem_cons, List.not_mem_nil, or_false] at hc
    obtain rfl | rfl | rfl | rfl | rfl := hc <;> cases h <;> exact ⟨rfl, rfl, rfl⟩
  · rintro ⟨c, rfl, hu⟩
    exact exec_fredsumFold_acc hu h

/-- Settles O22: an operation that needs no open sequence finds the same one in both states. -/
theorem freshIssuesDependOnPortsOnly : Obligations.FreshIssuesDependOnPortsOnly := by
  intro i s s' t hfresh hP hcycle hnow h
  have hunit : i.unit = .fadd := by
    cases i with
    | fadd c | fsub c | fmin c | fmax c | fclass c => rfl
    | fredsumFold c | fredsum c | fwredsum c => rfl
    | fmul c | fmadd c | fmsub c | fnmadd c | fnmsub c => cases hfresh
    | vdivu ew | vdiv ew => cases hfresh
  have hseq : ∀ c, IsMicroOp i c → ∀ T, s.sequence T c.rm c.uop = s'.sequence T c.rm c.uop := by
    intro c hc T
    have h0 : c.uop = 0#3 := by
      rcases hc with rfl | rfl | rfl <;> simpa [startsAfresh] using hfresh
    rw [s.sequence_of_zero T c.rm h0, s'.sequence_of_zero T c.rm h0]
  obtain ⟨F, r, fl, we, red, red', rfl, he, hred⟩ := exec_fadd_congr hP hunit hcycle hnow hseq h
  refine ⟨_, _, he, rfl, by rw [State.issueFadd_fadd, hcycle], ?_, fun c hc => ?_⟩
  · rcases hred with ⟨rfl, rfl, -⟩ | rfl <;> rfl
  · rcases hred with ⟨-, -, hnot⟩ | rfl
    · exact absurd hc (hnot c)
    · rfl

end Sys2Proof.Machine
end

section
/-! PROOFS. Completions on time (R161, R230, R314, R315, R317), and runs of several cycles. -/

namespace Sys2Proof.Machine

/-! ## Runs -/

theorem runCycles_zero (s : State) : runCycles 0 s = .next s := rfl

/-- A run is its first step, then the rest. -/
theorem runCycles_succ (k : Nat) (s : State) :
    runCycles (k + 1) s = onNext (step s) (runCycles k) := by
  simp only [runCycles, Host.Core.run]
  rw [show Sys2Proof.core.step s = step s from rfl]
  cases step s <;> rfl

theorem runCycles_succ_eq_next {k : Nat} {s v : State} :
    runCycles (k + 1) s = .next v ↔ ∃ t, step s = .next t ∧ runCycles k t = .next v := by
  rw [runCycles_succ, onNext_eq_next]

/-- A run is all steps but the last, then the last. -/
theorem runCycles_succ_last {k : Nat} {s v : State} :
    runCycles (k + 1) s = .next v ↔ ∃ u, runCycles k s = .next u ∧ step u = .next v := by
  induction k generalizing s with
  | zero => simp [runCycles_succ_eq_next, runCycles_zero]
  | succ k ih =>
    rw [runCycles_succ_eq_next]
    simp only [ih, runCycles_succ_eq_next]
    constructor
    · rintro ⟨t, ht, u, hu, hv⟩
      exact ⟨u, ⟨t, ht, hu⟩, hv⟩
    · rintro ⟨u, ⟨t, ht, hu⟩, hv⟩
      exact ⟨t, ht, u, hu, hv⟩

/-- What holds at the start and every step keeps holds after any number of cycles. -/
theorem runCycles_induction {p : State → Prop} (hstep : ∀ s t, p s → step s = .next t → p t)
    {k : Nat} {s v : State} (hs : p s) (h : runCycles k s = .next v) : p v := by
  induction k generalizing s with
  | zero => cases h; exact hs
  | succ k ih =>
    obtain ⟨t, ht, hv⟩ := runCycles_succ_eq_next.1 h
    exact ih (hstep s t hs ht) hv

theorem runCycles_inv {k : Nat} {s v : State} (hs : s.Inv) (h : runCycles k s = .next v) : v.Inv :=
  runCycles_induction stepKeepsInvariant hs h

theorem runCycles_params {k : Nat} {s v : State} (h : runCycles k s = .next v) :
    v.params = s.params :=
  runCycles_induction (p := fun u => u.params = s.params)
    (fun _ _ hu ht => (step_parts ht).1.trans hu) rfl h

theorem runCycles_cycle {k : Nat} {s v : State} (h : runCycles k s = .next v) :
    v.cycle = s.cycle + k := by
  induction k generalizing s with
  | zero => cases h; rfl
  | succ k ih =>
    obtain ⟨t, ht, hv⟩ := runCycles_succ_eq_next.1 h
    obtain ⟨-, hc, -⟩ := step_parts ht
    rw [ih hv, hc]
    omega

/-! ## The oldest record -/

/-- A record that is due is the oldest of its pipeline, and no other record equals it. -/
theorem InFlight.due_is_oldest {α : Type} {issue : α → Nat} {L t : Nat} {pipe : List α} {rec : α}
    (h : InFlight L t (pipe.map issue)) (hmem : rec ∈ pipe) (hdue : issue rec + L = t) :
    ∃ rest, pipe = rec :: rest ∧ rec ∉ rest := by
  obtain ⟨hsorted, hbound⟩ := h
  cases pipe with
  | nil => cases hmem
  | cons head rest =>
    rw [List.map_cons] at hsorted hbound
    have hlater := (List.pairwise_cons.1 hsorted).1
    have hhead := (hbound (issue head) List.mem_cons_self).2
    have hnot : rec ∉ rest := fun hr => by
      have := hlater (issue rec) (List.mem_map_of_mem hr)
      omega
    rcases List.mem_cons.1 hmem with rfl | hr
    · exact ⟨rest, rfl, hnot⟩
    · exact absurd hr hnot

/-- A record younger than the latency stays in `fadd.pipe` (R161). -/
theorem FaddUnit.mem_complete_of_not_due {u : FaddUnit} {L t : Nat} {rec : FaddRec}
    (hmem : rec ∈ u.pipe) (hnot : rec.issue + L ≠ t) : rec ∈ (u.complete L t).pipe := by
  rcases u.complete_cases L t with ⟨head, rest, hp, hdue, e⟩ | ⟨-, e⟩ <;> rw [e]
  · rw [hp] at hmem
    rcases List.mem_cons.1 hmem with rfl | hr
    · exact absurd hdue hnot
    · exact hr
  · exact hmem

/-- A record younger than the latency stays in `fma.pipe` (R230). -/
theorem FmaUnit.mem_complete_of_not_due {u : FmaUnit} {L t : Nat} {rec : FmaRec}
    (hmem : rec ∈ u.pipe) (hnot : rec.issue + L ≠ t) : rec ∈ (u.complete L t).pipe := by
  rcases u.complete_cases L t with ⟨head, rest, hp, hdue, e⟩ | ⟨-, e⟩ <;> rw [e]
  · rw [hp] at hmem
    rcases List.mem_cons.1 hmem with rfl | hr
    · exact absurd hdue hnot
    · exact hr
  · exact hmem

/-- What an issue leaves of the FADD-unit: the result registers, and the pipeline but for at most
one record of this cycle. -/
theorem Issued.fadd_frame {s : State} {f : FaddUnit} (h : Issued .fadd State.fadd s f) :
    f.result = s.fadd.result ∧ f.fflags = s.fadd.fflags ∧
    ∃ new : List FaddRec, f.pipe = s.fadd.pipe ++ new ∧ ∀ rec ∈ new, rec.issue = s.cycle := by
  rcases h.fadd_cases with rfl | ⟨F, r, fl, we, red, rfl, -⟩
  · exact ⟨rfl, rfl, [], by simp, by simp⟩
  · exact ⟨rfl, rfl, [_], rfl, by simp⟩

/-- What an issue leaves of the FMA-unit. -/
theorem Issued.fma_frame {s : State} {m : FmaUnit} (h : Issued .fma State.fma s m) :
    m.result = s.fma.result ∧ m.fflags = s.fma.fflags ∧
    ∃ new : List FmaRec, m.pipe = s.fma.pipe ++ new ∧ ∀ rec ∈ new, rec.issue = s.cycle := by
  rcases h.fma_cases with rfl | ⟨F, g, rfl⟩
  · exact ⟨rfl, rfl, [], by simp, by simp⟩
  · exact ⟨rfl, rfl, [_], rfl, by simp⟩

/-- A record of this cycle is not due: the oldest record is due after an issue just where it was
before. -/
theorem head_due_iff {α : Type} {issue : α → Nat} {L t : Nat} {pipe new : List α} (hL : 0 < L)
    (hnew : ∀ rec ∈ new, issue rec = t) :
    (∃ rec ∈ (pipe ++ new).head?, issue rec + L = t) ↔ ∃ rec ∈ pipe.head?, issue rec + L = t := by
  cases pipe with
  | cons rec rest => rfl
  | nil =>
    rw [List.nil_append]
    refine iff_of_false ?_ (by simp)
    rintro ⟨rec, hrec, hdue⟩
    have := hnew rec (List.mem_of_mem_head? hrec)
    omega

/-- Completion with nothing due (R317). -/
theorem FaddUnit.complete_of_not_due {u : FaddUnit} {L t : Nat}
    (h : ∀ rec ∈ u.pipe.head?, rec.issue + L ≠ t) :
    u.complete L t = { u with outValid := false } := by
  rcases u.complete_cases L t with ⟨rec, rest, hp, hdue, -⟩ | ⟨-, e⟩
  · exact absurd hdue (h rec (by rw [hp]; rfl))
  · exact e

/-- Completion with a record due (R317). -/
theorem FaddUnit.outValid_complete_of_due {u : FaddUnit} {L t : Nat}
    (h : ∃ rec ∈ u.pipe.head?, rec.issue + L = t) : (u.complete L t).outValid = true := by
  obtain ⟨rec, hrec, hdue⟩ := h
  rcases u.complete_cases L t with ⟨_, _, _, _, e⟩ | ⟨hnot, -⟩
  · rw [e]
  · exact absurd hdue (hnot rec hrec)

/-- Completion with nothing due (R317). -/
theorem FmaUnit.complete_of_not_due {u : FmaUnit} {L t : Nat}
    (h : ∀ rec ∈ u.pipe.head?, rec.issue + L ≠ t) :
    u.complete L t = { u with outValid := false } := by
  rcases u.complete_cases L t with ⟨rec, rest, hp, hdue, -⟩ | ⟨-, e⟩
  · exact absurd hdue (h rec (by rw [hp]; rfl))
  · exact e

/-- Completion with a record due (R317). -/
theorem FmaUnit.outValid_complete_of_due {u : FmaUnit} {L t : Nat}
    (h : ∃ rec ∈ u.pipe.head?, rec.issue + L = t) : (u.complete L t).outValid = true := by
  obtain ⟨rec, hrec, hdue⟩ := h
  rcases u.complete_cases L t with ⟨_, _, _, _, e⟩ | ⟨hnot, -⟩
  · rw [e]
  · exact absurd hdue (hnot rec hrec)

/-! ## The statements about completions -/

/-- Settles O30: a record issued in this cycle is not due, so what completion does follows from the
pipeline at the start of the cycle. -/
theorem resultsHoldBetweenCompletions : Obligations.ResultsHoldBetweenCompletions := by
  intro s t h
  obtain ⟨-, -, -, -, ⟨f, hf, hfadd⟩, ⟨m, hm, hfma⟩, -⟩ := step_parts h
  obtain ⟨hfr, hffl, fnew, hfpipe, hfnew⟩ := hf.fadd_frame
  obtain ⟨hmr, hmfl, mnew, hmpipe, hmnew⟩ := hm.fma_frame
  have hfdue := head_due_iff (pipe := s.fadd.pipe) s.params.addLatency.cycles_pos hfnew
  have hmdue := head_due_iff (pipe := s.fma.pipe) (L := fmaLatency) (by decide) hmnew
  rw [← hfpipe] at hfdue
  rw [← hmpipe] at hmdue
  rw [hfadd, hfma]
  refine ⟨fun hnot => ?_, fun hdue => ?_, fun hnot => ?_, fun hdue => ?_⟩
  · rw [f.complete_of_not_due fun rec hr hd =>
      have ⟨rec', hr', hd'⟩ := hfdue.1 ⟨rec, hr, hd⟩
      hnot rec' hr' hd']
    exact ⟨hfr, hffl, rfl⟩
  · exact f.outValid_complete_of_due (hfdue.2 hdue)
  · rw [m.complete_of_not_due fun rec hr hd =>
      have ⟨rec', hr', hd'⟩ := hmdue.1 ⟨rec, hr, hd⟩
      hnot rec' hr' hd']
    exact ⟨hmr, hmfl, rfl⟩
  · exact m.outValid_complete_of_due (hmdue.2 hdue)

/-- The cycle in which a record of the FADD-unit is due writes it (R161). -/
theorem step_completes_fadd {u v : State} {rec : FaddRec} (hu : u.Inv) (hmem : rec ∈ u.fadd.pipe)
    (hdue : rec.issue + u.params.addLatency.cycles = u.cycle) (h : step u = .next v) :
    v.fadd.outValid = true ∧ rec ∉ v.fadd.pipe ∧
    v.fadd.result =
      writeLanes rec.fmt.width rec.fmt.lanes rec.we.getLsbD rec.r u.fadd.result ∧
    v.fadd.fflags = writeLanes 5 rec.fmt.lanes rec.we.getLsbD rec.fl 0#20 := by
  obtain ⟨-, -, -, -, ⟨f, hf, hfadd⟩, -⟩ := step_parts h
  obtain ⟨hr, -, new, hpipe, hnew⟩ := hf.fadd_frame
  obtain ⟨rest, hp, hnot⟩ := hu.faddInFlight.due_is_oldest hmem hdue
  have hpos := u.params.addLatency.cycles_pos
  have hfresh : rec ∉ new := fun hin => by
    have := hnew rec hin
    omega
  rw [hp, List.cons_append] at hpipe
  rw [hfadd, FaddUnit.complete, hpipe]
  simp only [hdue, if_true, hr, true_and, and_true]
  simp [hnot, hfresh]

/-- The cycle in which a record of the FMA-unit is due writes it (R230). -/
theorem step_completes_fma {u v : State} {rec : FmaRec} (hu : u.Inv) (hmem : rec ∈ u.fma.pipe)
    (hdue : rec.issue + fmaLatency = u.cycle) (h : step u = .next v) :
    v.fma.outValid = true ∧ rec ∉ v.fma.pipe ∧
    v.fma.result =
      writeLanes rec.fmt.width rec.fmt.lanes (fun _ => true) rec.r u.fma.result ∧
    v.fma.fflags = writeLanes 5 rec.fmt.lanes (fun _ => true) rec.fl 0#20 := by
  obtain ⟨-, -, -, -, -, ⟨m, hm, hfma⟩, -⟩ := step_parts h
  obtain ⟨hr, -, new, hpipe, hnew⟩ := hm.fma_frame
  obtain ⟨rest, hp, hnot⟩ := hu.fmaInFlight.due_is_oldest hmem hdue
  have hpos : 0 < fmaLatency := by decide
  have hfresh : rec ∉ new := fun hin => by
    have := hnew rec hin
    omega
  rw [hp, List.cons_append] at hpipe
  rw [hfma, FmaUnit.complete, hpipe]
  simp only [hdue, if_true, hr, true_and, and_true]
  simp [hnot, hfresh]

/-- A record stays in `fadd.pipe` until it is due. -/
theorem runCycles_mem_fadd {k : Nat} {s u : State} {rec : FaddRec} (hmem : rec ∈ s.fadd.pipe)
    (hk : s.cycle + k ≤ rec.issue + s.params.addLatency.cycles) (h : runCycles k s = .next u) :
    rec ∈ u.fadd.pipe := by
  induction k generalizing s with
  | zero => cases h; exact hmem
  | succ k ih =>
    obtain ⟨t, ht, hu⟩ := runCycles_succ_eq_next.1 h
    obtain ⟨hP, hc, -, -, ⟨f, hf, hfadd⟩, -⟩ := step_parts ht
    obtain ⟨-, -, new, hpipe, -⟩ := hf.fadd_frame
    have hin : rec ∈ f.pipe := by
      rw [hpipe]
      exact List.mem_append_left _ hmem
    refine ih ?_ (by rw [hc, hP]; omega) hu
    rw [hfadd]
    exact FaddUnit.mem_complete_of_not_due hin (by omega)

/-- A record stays in `fma.pipe` until it is due. -/
theorem runCycles_mem_fma {k : Nat} {s u : State} {rec : FmaRec} (hmem : rec ∈ s.fma.pipe)
    (hk : s.cycle + k ≤ rec.issue + fmaLatency) (h : runCycles k s = .next u) :
    rec ∈ u.fma.pipe := by
  induction k generalizing s with
  | zero => cases h; exact hmem
  | succ k ih =>
    obtain ⟨t, ht, hu⟩ := runCycles_succ_eq_next.1 h
    obtain ⟨-, hc, -, -, -, ⟨m, hm, hfma⟩, -⟩ := step_parts ht
    obtain ⟨-, -, new, hpipe, -⟩ := hm.fma_frame
    have hin : rec ∈ m.pipe := by
      rw [hpipe]
      exact List.mem_append_left _ hmem
    refine ih ?_ (by rw [hc]; omega) hu
    rw [hfma]
    exact FmaUnit.mem_complete_of_not_due hin (by omega)

/-- Settles O28: until its cycle the record stays in flight, and in that cycle it is the oldest. -/
theorem faddRecordCompletesOnTime : Obligations.FaddRecordCompletesOnTime := by
  intro s u v rec k hs hmem hk hu hv
  obtain ⟨u', hu', hstep⟩ := runCycles_succ_last.1 hv
  cases hu.symm.trans hu'
  have hdue : rec.issue + u.params.addLatency.cycles = u.cycle := by
    rw [runCycles_params hu, runCycles_cycle hu, hk]
  obtain ⟨hvalid, hnot, hresult, hflags⟩ :=
    step_completes_fadd (runCycles_inv hs hu) (runCycles_mem_fadd hmem hk.le hu) hdue hstep
  refine ⟨hvalid, hnot, fun i hi => ?_, fun i hi => ?_⟩
  · rw [hresult, hflags, lane_writeLanes _ _ _ _ (lanes_fit rec.fmt),
      lane_writeLanes _ _ _ _ (flagLanes_fit rec.fmt), lane_zero]
    simp [hi]
  · rw [hflags, lane_writeLanes _ _ _ _ (flagLanes_fit rec.fmt), lane_zero,
      if_neg fun h => Nat.not_lt.2 hi h.1]

/-- Settles O29: as O28, with every lane written. -/
theorem fmaRecordCompletesOnTime : Obligations.FmaRecordCompletesOnTime := by
  intro s v rec k hs hmem hk hv
  obtain ⟨u, hu, hstep⟩ := runCycles_succ_last.1 hv
  have hdue : rec.issue + fmaLatency = u.cycle := by rw [runCycles_cycle hu, hk, fmaLatency]
  obtain ⟨hvalid, hnot, hresult, hflags⟩ :=
    step_completes_fma (runCycles_inv hs hu) (runCycles_mem_fma hmem hk.le hu) hdue hstep
  refine ⟨hvalid, hnot, fun i hi => ?_, fun i hi => ?_⟩
  · rw [hresult, hflags, lane_writeLanes _ _ _ _ (lanes_fit rec.fmt),
      lane_writeLanes _ _ _ _ (flagLanes_fit rec.fmt), if_pos ⟨hi, rfl⟩, if_pos ⟨hi, rfl⟩]
    exact ⟨rfl, rfl⟩
  · rw [hflags, lane_writeLanes _ _ _ _ (flagLanes_fit rec.fmt), lane_zero,
      if_neg fun h => Nat.not_lt.2 hi h.1]

end Sys2Proof.Machine
end

section
/-! PROOFS. The divider: the lanes of a division (R251 to R254), its next-state table (R265), the
length of BUSY (R259, R262, R318), and what follows a flush (R263, R264). -/

namespace Sys2Proof.Machine

open Sys2Proof.Claims

/-! ## Lanes -/

/-- Settles O53: a zero divisor, or the division of words. -/
theorem unsignedLaneDivision : Obligations.UnsignedLaneDivision := by
  intro q i hs
  refine ⟨fun hd => ?_, fun hd => ?_⟩
  · rw [DivReq.lane, hs, if_neg Bool.false_ne_true, divLaneU, if_pos hd]
    exact ⟨BitVec.toNat_allOnes, rfl, rfl⟩
  · have hne : q.D i ≠ 0 := fun h => hd (by rw [h]; rfl)
    rw [DivReq.lane_of_unsigned hs hne]
    exact ⟨BitVec.toNat_udiv, BitVec.toNat_umod, rfl⟩

/-- Settles O54: a zero divisor, or the truncating division of words, which overflows for `MIN / -1`
alone. -/
theorem signedLaneDivision : Obligations.SignedLaneDivision := by
  intro q i hs
  have hne : (q.D i).toInt ≠ 0 → q.D i ≠ 0 := fun hd h => hd (by rw [h]; exact BitVec.toInt_zero)
  refine ⟨fun hd => ?_, fun hn hd => ?_, fun hd hover => ?_⟩
  · rw [DivReq.lane, if_pos hs, divLaneS, if_pos hd]
    exact ⟨BitVec.toNat_allOnes, rfl, rfl⟩
  · rw [DivReq.lane_of_signed hs (hne (by rw [hd]; decide))]
    exact ⟨sdiv_eq_self_of_overflow hn hd,
      by rw [srem_eq_zero_of_neg_one hd]; exact BitVec.toInt_zero, rfl⟩
  · have hw : 0 < q.ew.bits := by cases q.ew <;> decide
    have hfits : q.N i ≠ BitVec.intMin q.ew.bits ∨ q.D i ≠ -1#q.ew.bits := by
      rw [← not_and_or]
      rintro ⟨hn, hm⟩
      refine hover ⟨by rw [hn, BitVec.toInt_intMin_of_pos hw], ?_⟩
      rw [hm]
      cases q.ew <;> rfl
    rw [DivReq.lane_of_signed hs (hne hd)]
    exact ⟨BitVec.toInt_sdiv_of_ne_or_ne _ _ hfits, BitVec.toInt_srem _ _, rfl⟩

/-! ## One cycle of the divider (R265) -/

/-- Everything a step does to the divider. -/
theorem step_div_cases {s t : State} (h : step s = .next t) :
    (s.now.div.flush = true ∧ t.div = { s.flushedDiv with out := s.divOutputs }) ∨
    (s.now.div.flush = false ∧ s.accepts = true ∧
      t.div = { s.capturedDiv with out := s.divOutputs }) ∨
    (s.now.div.flush = false ∧ s.accepts = false ∧
      t.div = { s.div.advance s.now.div.outReady with out := s.divOutputs }) := by
  obtain ⟨-, -, -, -, -, -, ⟨d, hd, ht⟩⟩ := step_parts h
  rw [ht]
  exact State.nextDiv_cases hd

/-- The outputs of a cycle are those of the state it begins in (R257, R258). -/
theorem step_div_out {s t : State} (h : step s = .next t) : t.div.out = s.divOutputs := by
  rcases step_div_cases h with ⟨-, e⟩ | ⟨-, -, e⟩ | ⟨-, -, e⟩ <;> rw [e]

/-- A cycle that accepts a request captures it (R256). -/
theorem step_div_of_accepts {s t : State} (h : step s = .next t) (hf : s.now.div.flush = false)
    (ha : s.accepts = true) : t.div = { s.capturedDiv with out := s.divOutputs } := by
  rcases step_div_cases h with ⟨hf', -⟩ | ⟨-, -, e⟩ | ⟨-, ha', -⟩
  · simp [hf] at hf'
  · exact e
  · simp [ha] at ha'

/-- A cycle with neither a flush nor an acceptance (R259 to R261). -/
theorem step_div_of_not_accepts {s t : State} (h : step s = .next t) (hf : s.now.div.flush = false)
    (ha : s.accepts = false) :
    t.div = { s.div.advance s.now.div.outReady with out := s.divOutputs } := by
  rcases step_div_cases h with ⟨hf', -⟩ | ⟨-, ha', -⟩ | ⟨-, -, e⟩
  · simp [hf] at hf'
  · simp [ha] at ha'
  · exact e

theorem State.accepts_eq_false_of_busy {s : State} (h : s.div.st = .busy) : s.accepts = false := by
  simp [State.accepts, State.inReady, h]

theorem State.accepts_eq_false_of_not_inValid {s : State} (h : s.now.div.inValid = false) :
    s.accepts = false := by
  simp [State.accepts, h]

/-- No request is accepted in a cycle with a flush (R257). -/
theorem State.flush_eq_false_of_accepts {s : State} (h : s.accepts = true) :
    s.now.div.flush = false := by
  simp only [State.accepts, State.inReady, Bool.and_eq_true, Bool.not_eq_true'] at h
  exact h.2.2

/-- Settles O57: row by row, whether the request is accepted decides between capture and advance. -/
theorem divNextStateTable : Obligations.DivNextStateTable := by
  intro s t h
  have hout := step_div_out h
  have hready : t.div.out.inReady = s.inReady := by rw [hout]; rfl
  have hvalid : t.div.out.outValid = (s.div.st == .done) := by rw [hout]; rfl
  have hcaptured : s.now.div.flush = false → s.accepts = true → Captured s t := fun hf ha => by
    rw [Captured, step_div_of_accepts h hf ha]
    exact ⟨rfl, rfl, rfl, rfl, rfl, rfl⟩
  have hadvance : s.now.div.flush = false → s.accepts = false →
      t.div = { s.div.advance s.now.div.outReady with out := t.div.out } := fun hf ha => by
    rw [hout]
    exact step_div_of_not_accepts h hf ha
  rw [hready, hvalid]
  refine ⟨by simp, fun hst => ?_, fun hf => ?_, fun hf => ⟨fun hst hv => ?_, fun hst hv => ?_,
    fun hst hcnt => ?_, fun hst hcnt => ?_, fun hst ho => ?_, fun hst ho hv => ?_,
    fun hst ho hv => ?_⟩⟩
  · rw [hout]
    simp [State.divOutputs, State.divOutValid, hst]
  · rw [step_div_of_flush h hf]
    exact ⟨rfl, rfl, by simp [State.inReady, hf], rfl⟩
  all_goals simp only [State.inReady, hst, hf]
  · have e := hadvance hf (State.accepts_eq_false_of_not_inValid hv)
    exact ⟨by simpa [DivUnit.advance, hst] using e, rfl, rfl⟩
  · exact ⟨hcaptured hf (by simp [State.accepts, State.inReady, *]), rfl, rfl⟩
  · have e := hadvance hf (State.accepts_eq_false_of_busy hst)
    exact ⟨by simpa [DivUnit.advance, DivUnit.busyCycle, hst, hcnt] using e, rfl, rfl⟩
  · have e := hadvance hf (State.accepts_eq_false_of_busy hst)
    exact ⟨by simpa [DivUnit.advance, DivUnit.busyCycle, hst, hcnt] using e, rfl, rfl⟩
  · have e := hadvance hf (by simp [State.accepts, State.inReady, *])
    exact ⟨by simpa [DivUnit.advance, hst, ho] using e, by simp [ho], rfl⟩
  · have e := hadvance hf (State.accepts_eq_false_of_not_inValid hv)
    exact ⟨by simpa [DivUnit.advance, hst, ho] using e, by simp [ho], rfl⟩
  · exact ⟨hcaptured hf (by simp [State.accepts, State.inReady, *]), by simp [ho], rfl⟩

/-! ## Several cycles of the divider -/

/-- The ports of a later cycle (R31, R108). -/
theorem runCycles_now {k : Nat} {s u : State} (h : runCycles k s = .next u) :
    u.now = s.portsAfter k := by
  have hstim : u.stim = s.stim.drop k := by
    induction k generalizing s with
    | zero => cases h; rfl
    | succ k ih =>
      obtain ⟨t, ht, hu⟩ := runCycles_succ_eq_next.1 h
      obtain ⟨-, -, -, hs, -⟩ := step_parts ht
      rw [ih hu, hs, List.drop_tail]
  rw [State.now, State.portsAfter, hstim, List.headD_eq_head?_getD, List.head?_drop,
    List.getD_eq_getElem?_getD]

/-- A BUSY cycle without a flush counts down, or finishes (R259). -/
theorem step_div_of_busy {s t : State} (h : step s = .next t) (hst : s.div.st = .busy)
    (hf : s.now.div.flush = false) : t.div = { s.div.busyCycle with out := s.divOutputs } := by
  rw [step_div_of_not_accepts h hf (State.accepts_eq_false_of_busy hst), DivUnit.advance, hst]

/-- The request on the ports (R256). -/
def State.portRequest (s : State) : DivReq :=
  { ew := elemOfCode (dcwEw s.now.div.dcw), signed := dcwSigned s.now.div.dcw
    dividend := s.now.div.dividend, divisor := s.now.div.divisor }

/-- The cycles of BUSY after a request is accepted, one after the other. -/
theorem runCycles_busy {s : State} (ha : s.accepts = true) {j : Nat} {u : State}
    (hflush : ∀ k, 1 ≤ k → k ≤ j → (s.portsAfter k).div.flush = false)
    (hj : j + 1 ≤ s.params.divTiming.cycles s.portRequest.ew) (h : runCycles (j + 1) s = .next u) :
    u.div.st = .busy ∧ u.div.req = s.portRequest ∧
      u.div.cnt + j = s.params.divTiming.cycles s.portRequest.ew := by
  induction j generalizing u with
  | zero =>
    obtain ⟨s', hs', hu⟩ := runCycles_succ_last.1 h
    cases hs'
    rw [step_div_of_accepts hu (State.flush_eq_false_of_accepts ha) ha]
    exact ⟨rfl, rfl, rfl⟩
  | succ j ih =>
    obtain ⟨v, hv, hu⟩ := runCycles_succ_last.1 h
    obtain ⟨hst, hreq, hcnt⟩ := ih (fun k h1 hk => hflush k h1 (by omega)) (by omega) hv
    have hf : v.now.div.flush = false := by
      rw [runCycles_now hv]
      exact hflush _ (by omega) (le_refl _)
    rw [step_div_of_busy hu hst hf, DivUnit.busyCycle, if_pos (by omega)]
    exact ⟨hst, hreq, by show v.div.cnt - 1 + (j + 1) = _; omega⟩

/-- Settles O58: the count reaches 1 in the last BUSY cycle, whose end computes the result. -/
theorem divisionTakesItsBusyCycles : Obligations.DivisionTakesItsBusyCycles := by
  intro s q ha hq hflush
  obtain rfl : q = s.portRequest := hq
  refine ⟨fun j u h1 hj hu => ?_, fun v hv => ?_⟩
  · obtain ⟨j, rfl⟩ := Nat.exists_eq_add_of_le' h1
    obtain ⟨hst, hreq, -⟩ :=
      runCycles_busy ha (fun k h1 hk => hflush k h1 (by omega)) hj hu
    exact ⟨hst, hreq⟩
  · obtain ⟨u, hu, hlast⟩ := runCycles_succ_last.1 hv
    have hpos := s.params.divTiming.one_le_cycles s.portRequest.ew
    obtain ⟨j, hj⟩ := Nat.exists_eq_add_of_le' hpos
    have hf : u.now.div.flush = false := by
      rw [runCycles_now hu]
      exact hflush _ hpos (le_refl _)
    rw [hj] at hu
    obtain ⟨hst, hreq, hcnt⟩ :=
      runCycles_busy ha (fun k h1 hk => hflush k h1 (by omega)) hj.ge hu
    rw [step_div_of_busy hlast hst hf, DivUnit.busyCycle, if_neg (by omega), hreq]
    exact ⟨rfl, rfl, rfl, rfl⟩

/-- In IDLE with count 0 and no request the divider stays so, flushed again or not. -/
theorem step_div_stays_idle {s t : State} (h : step s = .next t) (hst : s.div.st = .idle)
    (hcnt : s.div.cnt = 0) (hv : s.now.div.inValid = false) :
    t.div.st = .idle ∧ t.div.cnt = 0 := by
  cases hf : s.now.div.flush
  · rw [step_div_of_not_accepts h hf (State.accepts_eq_false_of_not_inValid hv),
      DivUnit.advance, hst]
    exact ⟨hst, hcnt⟩
  · rw [step_div_of_flush h hf]
    exact ⟨rfl, rfl⟩

/-- Settles O60: the flush leaves the unit in IDLE, which it leaves for a request alone. -/
theorem flushLeavesNothingToPresent : Obligations.FlushLeavesNothingToPresent := by
  intro k s t hf hquiet h
  induction k generalizing t with
  | zero =>
    obtain ⟨s', hs', ht⟩ := runCycles_succ_last.1 h
    cases hs'
    rw [step_div_of_flush ht hf]
    exact ⟨rfl, rfl⟩
  | succ k ih =>
    obtain ⟨u, hu, ht⟩ := runCycles_succ_last.1 h
    obtain ⟨hst, hcnt⟩ := ih u (fun j h1 hj => hquiet j h1 (by omega)) hu
    refine step_div_stays_idle ht hst hcnt ?_
    rw [runCycles_now hu]
    exact hquiet _ (by omega) (le_refl _)

/-- Settles O52: the increments of an allowed function are the differences of its values. -/
theorem latencyParametersAreTheOpenOnes : Obligations.LatencyParametersAreTheOpenOnes := by
  refine ⟨fun d => ?_, fun a b c e ha hab hbc hce hae => ?_, fun l => ?_,
    ⟨.two, rfl⟩, ⟨.three, rfl⟩⟩
  · simp only [DivTiming.cycles]
    omega
  · refine ⟨{ base := a - 1, inc16 := b - a, inc32 := c - b, inc64 := e - c }, ?_⟩
    simp only [DivTiming.cycles]
    omega
  · cases l
    exacts [.inl rfl, .inr rfl]

end Sys2Proof.Machine
end

section
/-! PROOFS. The end of a run (R323): the cycles after the last line, for the ports State holds and
for the lines of a stimulus. -/

namespace Sys2Proof.Machine

open Sys2Proof.Claims

theorem DivTiming.cycles_le_e64 (d : DivTiming) (ew : ElemWidth) : d.cycles ew ≤ d.cycles .e64 := by
  cases ew <;> simp only [DivTiming.cycles] <;> omega

/-! ## Pipelines without issues -/

/-- A pipeline whose records were all issued before cycle `t0` is empty `L` cycles later. -/
theorem InFlight.eq_nil {α : Type} {issue : α → Nat} {L t t0 : Nat} {pipe : List α}
    (h : InFlight L t (pipe.map issue)) (hold : ∀ rec ∈ pipe, issue rec < t0) (ht : t0 + L ≤ t) :
    pipe = [] := by
  rw [List.eq_nil_iff_forall_not_mem]
  intro rec hrec
  have hle := (h.2 _ (List.mem_map_of_mem hrec)).2
  have hlt := hold rec hrec
  omega

/-- The pipelines hold no record issued in cycle `t0` or later. -/
def State.IssuedBefore (s : State) (t0 : Nat) : Prop :=
  (∀ rec ∈ s.fadd.pipe, rec.issue < t0) ∧ (∀ rec ∈ s.fma.pipe, rec.issue < t0)

theorem State.Inv.issuedBefore {s : State} (hs : s.Inv) : s.IssuedBefore s.cycle :=
  ⟨fun _ hrec => (hs.faddInFlight.2 _ (List.mem_map_of_mem hrec)).1,
    fun _ hrec => (hs.fmaInFlight.2 _ (List.mem_map_of_mem hrec)).1⟩

/-- A cycle in which no floating unit starts puts nothing in flight (R36). -/
theorem step_issuedBefore {s t : State} {t0 : Nat} (h : step s = .next t) (hs : s.IssuedBefore t0)
    (hfadd : s.now.fadd.start = false) (hfma : s.now.fma.start = false) : t.IssuedBefore t0 := by
  obtain ⟨hf, hm⟩ := noStartIssuesNothing s t h
  exact ⟨fun rec hrec => hs.1 rec ((hf hfadd).2.2 rec hrec),
    fun rec hrec => hs.2 rec ((hm hfma).2 rec hrec)⟩

/-! ## The divider without flush and without a result taken -/

/-- `j` cycles into the cycles after the last line, with `held` for the request still to be
repeated: BUSY ends in time, and in IDLE no request is left from the second such cycle on. -/
def DivUnit.Settling (u : DivUnit) (bound j : Nat) (held : Option Action) : Prop :=
  (u.st = .busy → u.cnt + j ≤ bound) ∧ (u.st = .idle → j = 0 ∨ held = none)

/-- One such cycle: a held request is accepted in IDLE, and is of no account otherwise. -/
theorem step_settling {s t : State} {bound j : Nat} {held : Option Action} (h : step s = .next t)
    (hbound : held ≠ none → s.params.divTiming.cycles .e64 + 1 ≤ bound)
    (hs : s.div.Settling bound j held) (hflush : s.now.div.flush = false)
    (hready : s.now.div.outReady = false) (hvalid : s.now.div.inValid = held.isSome) :
    t.div.Settling bound (j + 1) (heldAfter s) := by
  obtain ⟨hbusy, hidle⟩ := hs
  cases ha : s.accepts
  case true =>
    have hst : s.div.st = .idle := by
      cases hd : s.div.st <;> simp [State.accepts, State.inReady, hd, hready] at ha ⊢
    rw [step_div_of_accepts h hflush ha]
    refine ⟨fun _ => ?_, nofun⟩
    have hle := DivTiming.cycles_le_e64 s.params.divTiming (elemOfCode (dcwEw s.now.div.dcw))
    have hheld : held ≠ none := fun hn => by simp [State.accepts, hvalid, hn] at ha
    have hj := (hidle hst).resolve_right hheld
    have hlate := hbound hheld
    show s.params.divTiming.cycles _ + (j + 1) ≤ bound
    omega
  case false =>
    have hheld : s.div.st = .idle → heldAfter s = none := fun hst => by
      have hnone : s.now.div.inValid = false := by
        simpa [State.accepts, State.inReady, hst, hflush] using ha
      simp [heldAfter, hnone]
    rw [step_div_of_not_accepts h hflush ha]
    cases hst : s.div.st with
    | idle =>
      simp only [DivUnit.advance, hst]
      exact ⟨nofun, fun _ => .inr (hheld hst)⟩
    | busy =>
      simp only [DivUnit.advance, hst, DivUnit.busyCycle]
      have hle := hbusy hst
      split_ifs with hcnt
      · exact ⟨fun _ => by show s.div.cnt - 1 + (j + 1) ≤ bound; omega, by simp⟩
      · exact ⟨nofun, nofun⟩
    | done =>
      simp only [DivUnit.advance, hst, hready, Bool.false_eq_true, if_false]
      exact ⟨by simp, by simp⟩

/-! ## The cycles after the last line -/

/-- The state `j` cycles after cycle `t0`, from which on no line drives the ports: nothing was
issued since, and the divider settles. -/
structure State.Ending (s : State) (P : Params) (t0 bound j : Nat)
    (held : Option Action) : Prop where
  inv : s.Inv
  params : s.params = P
  cycle : s.cycle = t0 + j
  issued : s.IssuedBefore t0
  settling : s.div.Settling bound j held

/-- At `t0` itself: whatever is in flight was issued before, and BUSY lasts at most
`DIV_CYCLES(64)`. -/
theorem State.Inv.ending {s : State} {bound : Nat} (hs : s.Inv)
    (hbound : s.params.divTiming.cycles .e64 ≤ bound) (held : Option Action) :
    s.Ending s.params s.cycle bound 0 held := by
  refine ⟨hs, rfl, rfl, hs.issuedBefore, fun hst => ?_, fun _ => .inl rfl⟩
  have hcnt := (hs.divSound.1 hst).2
  have hle := DivTiming.cycles_le_e64 s.params.divTiming s.div.req.ew
  omega

section Ending

variable {s t : State} {P : Params} {t0 bound j : Nat} {held : Option Action}

/-- One cycle without a line: the ports drive the held request and nothing else. -/
theorem State.Ending.step (hs : s.Ending P t0 bound j held)
    (hbound : held ≠ none → P.divTiming.cycles .e64 + 1 ≤ bound)
    (hfadd : s.now.fadd.start = false) (hfma : s.now.fma.start = false)
    (hflush : s.now.div.flush = false) (hready : s.now.div.outReady = false)
    (hvalid : s.now.div.inValid = held.isSome) (h : Machine.step s = .next t) :
    t.Ending P t0 bound (j + 1) (heldAfter s) := by
  obtain ⟨hP, hc, -⟩ := step_parts h
  refine ⟨stepKeepsInvariant s t hs.inv h, hP.trans hs.params, by rw [hc, hs.cycle]; rfl,
    step_issuedBefore h hs.issued hfadd hfma,
    step_settling h (by rwa [hs.params]) hs.settling hflush hready hvalid⟩

/-- After enough such cycles both pipelines are empty and the divider is not BUSY. -/
theorem State.Ending.settled (hs : s.Ending P t0 bound j held) (hadd : P.addLatency.cycles ≤ j)
    (hfma : fmaLatency ≤ j) (hj : bound ≤ j) : s.settled = true := by
  obtain ⟨hinv, rfl, hcycle, hissued, hsettling⟩ := hs
  refine State.settled_iff.2 ⟨hinv.faddInFlight.eq_nil hissued.1 (by omega),
    hinv.fmaInFlight.eq_nil hissued.2 (by omega), fun hst => ?_⟩
  have hle := hsettling.1 hst
  have hpos := (hinv.divSound.1 hst).1
  omega

end Ending

/-! ## A stimulus that is over (R323) -/

/-- A cycle in which no unit takes an operation is not refused. -/
theorem step_of_not_fetches {s : State} (h : ∀ u, s.fetches u = false) :
    step s = .next (s.endCycle s) :=
  step_eq_next.2 ⟨s, s, s, issue_of_not_fetches (h _), issue_of_not_fetches (h _),
    issue_of_not_fetches (h _), rfl⟩

theorem State.now_of_stim_nil {s : State} (h : s.stim = []) : s.now = CycleIn.idle := by
  rw [State.now, h]
  rfl

/-- With no stimulus left every cycle runs. -/
theorem runCycles_of_stim_nil {s : State} {P : Params} {t0 bound j : Nat} (hstim : s.stim = [])
    (hs : s.Ending P t0 bound j none) (k : Nat) :
    ∃ t, runCycles k s = .next t ∧ t.stim = [] ∧ t.Ending P t0 bound (j + k) none := by
  induction k with
  | zero => exact ⟨s, rfl, hstim, hs⟩
  | succ k ih =>
    obtain ⟨t, ht, hnil, hend⟩ := ih
    have hnow := State.now_of_stim_nil hnil
    have hstep : step t = .next (t.endCycle t) := step_of_not_fetches fun u => by
      cases u <;> simp [State.fetches, State.accepts, hnow, CycleIn.idle]
    have hheld : heldAfter t = none := by simp [heldAfter, hnow, CycleIn.idle]
    refine ⟨t.endCycle t, runCycles_succ_last.2 ⟨t, ht, hstep⟩, by simp [hnil], ?_⟩
    rw [← hheld]
    exact hend.step (fun h => absurd rfl h) (by rw [hnow]; rfl) (by rw [hnow]; rfl)
      (by rw [hnow]; rfl) (by rw [hnow]; rfl) (by rw [hnow]; rfl) hstep

/-- Settles O31: the longest of the three bounds is enough cycles for each. -/
theorem runsEnd : Obligations.RunsEnd := by
  intro s hs hstim
  obtain ⟨t, ht, hnil, hend⟩ := runCycles_of_stim_nil hstim (hs.ending (le_refl _) none)
    (max (max s.params.addLatency.cycles 4) (s.params.divTiming.cycles .e64))
  refine ⟨_, t, le_refl _, ht, ?_⟩
  rw [State.ended, hnil, hend.settled (by omega) (by rw [fmaLatency]; omega) (by omega)]
  rfl

/-! ## The lines of a stimulus (R108) -/

/-- What is held for later cycles is a request of the DIV-unit. -/
def IsRequest (held : Option Action) : Prop := ∀ a, held = some a → ∃ w n d, a = .div w n d

theorem isRequest_heldAfter (s : State) : IsRequest (heldAfter s) := by
  intro a ha
  unfold heldAfter at ha
  split at ha <;> cases ha
  exact ⟨_, _, _, rfl⟩

/-- A cycle without a line drives the held request and nothing else (R108). -/
theorem linesAt_of_past {lines : List Line} {held : Option Action} {t : Nat}
    (hpast : ∀ l ∈ lines, l.cycle < t) (hheld : IsRequest held) :
    let c := linesAt lines held t
    c.fadd.start = false ∧ c.fma.start = false ∧ c.div.flush = false ∧ c.div.outReady = false ∧
      c.div.inValid = held.isSome := by
  have hnone : (lines.filter fun l => l.cycle == t) = [] := by
    rw [List.filter_eq_nil_iff]
    intro l hl
    have := hpast l hl
    simp only [beq_iff_eq]
    omega
  simp only [linesAt, hnone, List.foldl_nil]
  cases held with
  | none => exact ⟨rfl, rfl, rfl, rfl, rfl⟩
  | some a =>
    obtain ⟨w, n, d, rfl⟩ := hheld a rfl
    exact ⟨rfl, rfl, rfl, rfl, rfl⟩

/-- A run under lines keeps, cycle by cycle, what every one of its steps carries on. -/
theorem runLines_induction {lines : List Line} {p : Nat → Option Action → State → Prop}
    (hstep : ∀ j held s t, p j held s → step (s.withStim [linesAt lines held s.cycle]) = .next t →
      p (j + 1) (heldAfter (s.withStim [linesAt lines held s.cycle])) t)
    {k j : Nat} {held : Option Action} {s t : State} (hs : p j held s)
    (h : runLines lines k held s = .next t) : ∃ held', p (j + k) held' t := by
  induction k generalizing j held s with
  | zero => cases h; exact ⟨held, hs⟩
  | succ k ih =>
    obtain ⟨u, hu, ht⟩ := onNext_eq_next.1 h
    have := ih (hstep j held s u hs hu) ht
    rwa [Nat.add_right_comm, Nat.add_assoc] at this

theorem State.Inv.withStim {s : State} (hs : s.Inv) (l : List CycleIn) : (s.withStim l).Inv :=
  ⟨hs.faddInFlight, hs.fmaInFlight, hs.redSound, hs.divSound⟩

theorem State.Ending.withStim {s : State} {P t0 bound j held} (hs : s.Ending P t0 bound j held)
    (l : List CycleIn) : (s.withStim l).Ending P t0 bound j held :=
  ⟨hs.inv.withStim l, hs.params, hs.cycle, hs.issued, hs.settling⟩

/-- A run of `j` cycles from `s` under the lines of a stimulus, of which the first `n` reach past
every line. -/
structure Underway (s : State) (n bound j : Nat) (held : Option Action) (u : State) : Prop where
  inv : u.Inv
  params : u.params = s.params
  cycle : u.cycle = s.cycle + j
  request : IsRequest held
  ending : n ≤ j → u.Ending s.params (s.cycle + n) bound (j - n) held

theorem Underway.step {lines : List Line} {s u t : State} {n bound j : Nat} {held : Option Action}
    (hpast : ∀ l ∈ lines, l.cycle < s.cycle + n)
    (hbound : s.params.divTiming.cycles .e64 + 1 ≤ bound) (hu : Underway s n bound j held u)
    (h : Machine.step (u.withStim [linesAt lines held u.cycle]) = .next t) :
    Underway s n bound (j + 1) (heldAfter (u.withStim [linesAt lines held u.cycle])) t := by
  obtain ⟨hinv, hP, hc, hreq, hend⟩ := hu
  obtain ⟨hP', hc', -⟩ := step_parts h
  have hparams : t.params = s.params := hP'.trans hP
  have hcycle : t.cycle = s.cycle + (j + 1) := by rw [hc', State.withStim_cycle, hc]; rfl
  have hinv' := stepKeepsInvariant _ _ (hinv.withStim _) h
  refine ⟨hinv', hparams, hcycle, isRequest_heldAfter _, fun hn => ?_⟩
  rcases hn.eq_or_lt with heq | hlt
  · rw [heq, Nat.sub_self, ← hcycle, ← hparams]
    exact hinv'.ending (by rw [hparams]; omega) _
  · obtain ⟨hfadd, hfma, hflush, hready, hvalid⟩ := linesAt_of_past (t := u.cycle) (held := held)
      (fun l hl => by have := hpast l hl; omega) hreq
    rw [Nat.sub_add_comm (Nat.le_of_lt_succ hlt)]
    exact ((hend (Nat.le_of_lt_succ hlt)).withStim _).step (fun _ => hbound) hfadd hfma hflush
      hready
      hvalid h

/-! ## The end of a stimulus (R323) -/

/-- The cycles up to the one after the last line's. -/
def cyclesPastLines (lines : List Line) (s : State) : Nat :=
  match lastLine lines with
  | none => 0
  | some l => l + 1 - s.cycle

theorem cyclesToEnd_eq (lines : List Line) (s : State) :
    cyclesToEnd lines s = cyclesPastLines lines s +
      max (max s.params.addLatency.cycles fmaLatency) (s.params.divTiming.cycles .e64 + 1) := rfl

theorem cyclesPastLines_spec (lines : List Line) (s : State) :
    ∀ l ∈ lines, l.cycle < s.cycle + cyclesPastLines lines s := by
  rw [← pastLast_iff, pastLast, cyclesPastLines]
  cases lastLine lines with
  | none => rfl
  | some l =>
    simp only [decide_eq_true_eq]
    omega

/-- A run of the lines for `cyclesToEnd` cycles ends. -/
theorem endedAfter_of_runLines {lines : List Line} {s t : State} (hs : s.Inv)
    (h : runLines lines (cyclesToEnd lines s) none s = .next t) : t.endedAfter lines = true := by
  have hpast := cyclesPastLines_spec lines s
  have hstart :
      Underway s (cyclesPastLines lines s) (s.params.divTiming.cycles .e64 + 1) 0 none s := by
    refine ⟨hs, rfl, rfl, nofun, fun hn => ?_⟩
    rw [Nat.le_zero.1 hn]
    exact hs.ending (Nat.le_succ _) none
  obtain ⟨held, -, -, hc, -, hend⟩ :=
    runLines_induction (fun _ _ _ _ hu hstep => hu.step hpast (le_refl _) hstep) hstart h
  rw [cyclesToEnd_eq] at hc hend
  have hsettled := (hend (by omega)).settled (by omega) (by omega) (by omega)
  rw [State.endedAfter, hsettled, Bool.and_true, pastLast_iff]
  exact fun l hl => (hpast l hl).trans_le (by omega)

/-- A run to the end stops in a cycle that ends it, or after the given number of cycles. -/
theorem runToEnd_eq_next {lines : List Line} {k : Nat} {held : Option Action} {s t : State}
    (h : runToEnd lines k held s = .next t) :
    t.endedAfter lines = true ∨ runLines lines k held s = .next t := by
  induction k generalizing held s with
  | zero => exact .inr h
  | succ k ih =>
    rw [runToEnd] at h
    split_ifs at h with hend
    · cases h
      exact .inl hend
    · obtain ⟨u, hu, ht⟩ := onNext_eq_next.1 h
      exact (ih ht).imp_right fun hrun => onNext_eq_next.2 ⟨u, hu, hrun⟩

/-- Settles O32: `runStimulus` is a run of the lines that stops at the first cycle that ends it, and
looks far enough ahead to find one. -/
theorem stimulusRunsEnd : Obligations.StimulusRunsEnd := by
  intro lines s hs finished
  have hfinished : ∀ u : State, u.endedAfter lines = true ↔ finished u :=
    fun u => State.endedAfter_iff
  obtain ⟨j, -, hrun, hbefore⟩ := runToEnd_cases lines (cyclesToEnd lines s) none s
  rw [runStimulus, hrun]
  refine ⟨fun hnot => ?_, fun t ht => ⟨?_, j, ht, fun i u hi hu => ?_⟩⟩
  · cases ho : runLines lines j none s with
    | next t => exact ⟨t, rfl⟩
    | fault r => exact nomatch r
    | refused r => exact absurd ho (hnot j r)
  · rw [← hfinished]
    exact (runToEnd_eq_next (hrun.trans ht)).elim id (endedAfter_of_runLines hs)
  · rw [← hfinished, hbefore i u hi hu]
    exact Bool.false_ne_true

end Sys2Proof.Machine
end

section
/-! PROOFS. Rounding is correct (R126, R127): the rounded magnitude against those of the finite
patterns, for the directed modes and for the nearest ones, and the flags NX and OF (R128, R131). -/

namespace Sys2Proof.Machine

open Sys2Proof.Claims

section Round

variable {t : Tininess} {F : Format} {rm : RoundingMode} {x : Exact}

/-! ## The flags of a rounding -/

/-- OF is the overflow's alone (R128). -/
theorem raises_OF_iff : raises (round t F rm x).2 OF = true ↔ ¬InRange F rm x := by
  have hflags : ∀ inexact tiny : Bool,
      raises (flagIf inexact NX ||| flagIf (tiny && inexact) UF) OF = false := by decide
  by_cases h : InRange F rm x
  · rw [round_of_inRange h, hflags]
    simp [h]
  · rw [round_of_not_inRange h]
    exact iff_of_true (by decide : raises (OF ||| NX) OF = true) h

theorem inRange_of_not_OF (h : raises (round t F rm x).2 OF = false) : InRange F rm x := by
  by_contra hn
  exact Bool.false_ne_true (h.symm.trans (raises_OF_iff.2 hn))

/-- A finite pattern whose value is `x` is what `x` rounds to, without a flag. -/
theorem round_of_valueRat {z : BitVec F.width} (hx : x.num ≠ 0) (hz : isFinite F z = true)
    (hv : valueRat F z = x.toRat) : round t F rm x = (z, noFlags) :=
  exactResultsAreUnaffected t F rm x z hx hz hv

/-! ## The result short of overflow -/

theorem isFinite_round (hx : x.num ≠ 0) (h : InRange F rm x) :
    isFinite F (round t F rm x).1 = true := by
  obtain ⟨m, q, hc, -, henc, -⟩ := exists_canonical_of_inRange hx h
  rw [round_of_inRange h, henc]
  exact isFinite_encodeMagnitude hc _

theorem sign_round (hx : x.num ≠ 0) (h : InRange F rm x) :
    sign F (round t F rm x).1 = decide (x.toRat < 0) := by
  obtain ⟨m, q, hc, -, henc, -⟩ := exists_canonical_of_inRange hx h
  rw [round_of_inRange h, henc, sign_encodeMagnitude hc]
  simp only [x.num_neg_iff]

end Round

/-- Settles O36: short of overflow NX says that the magnitude is no multiple of the quantum, and an
overflow result is never the value, since a value that the format holds does not overflow. -/
theorem inexactFlagMeansDifferentValue : Obligations.InexactFlagMeansDifferentValue := by
  intro t F rm x hx y fl
  by_cases h : InRange F rm x
  · have hnx : ∀ inexact tiny : Bool,
        raises (flagIf inexact NX ||| flagIf (tiny && inexact) UF) NX = inexact := by decide
    have hnv : ∀ inexact tiny : Bool,
        raises (flagIf inexact NX ||| flagIf (tiny && inexact) UF) NV = false := by decide
    have hdz : ∀ inexact tiny : Bool,
        raises (flagIf inexact NX ||| flagIf (tiny && inexact) UF) DZ = false := by decide
    have hfl : fl = flagIf (rounded F rm x).2 NX |||
        flagIf (tinyResult t F rm x && (rounded F rm x).2) UF :=
      congrArg Prod.snd (round_of_inRange h)
    rw [hfl, hnx, hnv, hdz]
    refine ⟨⟨fun hinexact hval => ?_, fun hne => ?_⟩, rfl, rfl⟩
    · have hnone : fl = noFlags := congrArg Prod.snd (round_of_valueRat hx hval.1 hval.2)
      have := hnx (rounded F rm x).2 (tinyResult t F rm x)
      rw [← hfl, hnone, hinexact] at this
      exact absurd this (by decide)
    · exact rounded_inexact hx h fun hv => hne ⟨isFinite_round hx h, hv⟩
  · have hfl : fl = OF ||| NX := congrArg Prod.snd (round_of_not_inRange h)
    rw [hfl]
    refine ⟨iff_of_true (by decide) fun hval => ?_, by decide, by decide⟩
    have hnone : fl = noFlags := congrArg Prod.snd (round_of_valueRat hx hval.1 hval.2)
    exact absurd (hfl.symm.trans hnone) (by decide)

section Nearest

variable {F : Format} {rm : RoundingMode} {x : Exact}

/-! ## The finite patterns against the quantum of `Round` -/

theorem zpow_leadExp_le (hx : x.num ≠ 0) : (2 : Rat) ^ x.leadExp ≤ |x.toRat| :=
  (x.leadExp_bounds hx).1

/-- A finite magnitude is a multiple of the quantum, or it is below the leading power of `x`, which
is a multiple. -/
theorem abs_valueRat_cases (F : Format) (x : Exact) {z : BitVec F.width}
    (hz : isFinite F z = true) :
    (∃ k : Nat, |valueRat F z| = k * (2 : Rat) ^ roundQuantum F x) ∨
    (|valueRat F z| < (2 : Rat) ^ x.leadExp ∧
      (2 : Rat) ^ x.leadExp = (2 ^ F.fracBits : Nat) * (2 : Rat) ^ roundQuantum F x) := by
  obtain ⟨hlt, hmin, -, -⟩ := canonical_of_isFinite hz
  have hq : (0 : Rat) < (2 : Rat) ^ quantum F z := by positivity
  rw [abs_valueRat]
  by_cases h : roundQuantum F x ≤ quantum F z
  · refine .inl ⟨significand F z * 2 ^ (quantum F z - roundQuantum F x).toNat, ?_⟩
    rw [Nat.cast_mul, mul_assoc, two_pow_mul_zpow]
    congr 2
    omega
  · unfold roundQuantum at h ⊢
    refine .inr ⟨?_, ?_⟩
    · calc (significand F z : Rat) * (2 : Rat) ^ quantum F z
          < ((2 ^ (F.fracBits + 1) : Nat) : Rat) * (2 : Rat) ^ quantum F z :=
            mul_lt_mul_of_pos_right (Nat.cast_lt.2 hlt) hq
        _ = (2 : Rat) ^ (quantum F z + (F.fracBits + 1 : Nat)) := two_pow_mul_zpow _ _
        _ ≤ (2 : Rat) ^ x.leadExp := zpow_two_le_iff.2 (by push_cast; omega)
    · rw [two_pow_mul_zpow]
      congr 1
      omega

/-! ## Modes that round a magnitude down, up, or to the nearest multiple -/

/-- The magnitude `Round` keeps. -/
def roundedMagnitude (F : Format) (rm : RoundingMode) (x : Exact) : Rat :=
  (rounded F rm x).1 * (2 : Rat) ^ roundQuantum F x

theorem valueRat_round_of_neg {t : Tininess} (hneg : x.num < 0) (h : InRange F rm x) :
    valueRat F (round t F rm x).1 = -roundedMagnitude F rm x := by
  rw [valueRat_round hneg.ne h, ← roundedMagnitude]
  simp [signFactor, hneg]

theorem valueRat_round_of_nonneg {t : Tininess} (hx : x.num ≠ 0) (hpos : ¬x.num < 0)
    (h : InRange F rm x) : valueRat F (round t F rm x).1 = roundedMagnitude F rm x := by
  rw [valueRat_round hx h, ← roundedMagnitude]
  simp [signFactor, hpos]

theorem zpow_roundQuantum_pos : (0 : Rat) < (2 : Rat) ^ roundQuantum F x := by positivity

theorem roundedMagnitude_nonneg : 0 ≤ roundedMagnitude F rm x :=
  mul_nonneg (Nat.cast_nonneg _) zpow_roundQuantum_pos.le

/-- Rounding down keeps the greatest finite magnitude that is not above. -/
theorem roundedMagnitude_of_down (hx : x.num ≠ 0)
    (hreach : ∀ k : Nat, reachesMultiple rm (decide (x.num < 0)) k ((2 : Rat) ^ roundQuantum F x)
      |x.toRat| ↔ k * (2 : Rat) ^ roundQuantum F x ≤ |x.toRat|) :
    roundedMagnitude F rm x ≤ |x.toRat| ∧
    ∀ z, isFinite F z = true → |valueRat F z| ≤ |x.toRat| →
      |valueRat F z| ≤ roundedMagnitude F rm x := by
  have hu := zpow_roundQuantum_pos (F := F) (x := x)
  have hle : ∀ k : Nat, k * (2 : Rat) ^ roundQuantum F x ≤ |x.toRat| →
      k * (2 : Rat) ^ roundQuantum F x ≤ roundedMagnitude F rm x := fun k hk =>
    mul_le_mul_of_nonneg_right (Nat.cast_le.2 (le_rounded_iff.2 ((hreach k).2 hk))) hu.le
  refine ⟨(hreach _).1 (le_rounded_iff.1 (le_refl _)), fun z hz hzx => ?_⟩
  rcases abs_valueRat_cases F x hz with ⟨k, hk⟩ | ⟨hlt, hlead⟩
  · rw [hk] at hzx ⊢
    exact hle k hzx
  · exact hlt.le.trans (hlead ▸ hle _ (hlead ▸ zpow_leadExp_le hx))

/-- Rounding up keeps the least finite magnitude that is not below. -/
theorem roundedMagnitude_of_up (hx : x.num ≠ 0)
    (hreach : ∀ k : Nat, reachesMultiple rm (decide (x.num < 0)) k ((2 : Rat) ^ roundQuantum F x)
      |x.toRat| ↔ k * (2 : Rat) ^ roundQuantum F x - (2 : Rat) ^ roundQuantum F x < |x.toRat|) :
    |x.toRat| ≤ roundedMagnitude F rm x ∧
    ∀ z, isFinite F z = true → |x.toRat| ≤ |valueRat F z| →
      roundedMagnitude F rm x ≤ |valueRat F z| := by
  have hu := zpow_roundQuantum_pos (F := F) (x := x)
  constructor
  · have hnext := mt le_rounded_iff.2 (Nat.not_succ_le_self (rounded F rm x).1)
    rw [hreach, not_lt] at hnext
    push_cast at hnext
    rw [roundedMagnitude]
    linarith
  · intro z hz hzx
    rcases abs_valueRat_cases F x hz with ⟨k, hk⟩ | ⟨hlt, -⟩
    · rw [hk] at hzx ⊢
      have hm := (hreach _).1 (le_rounded_iff.1 (le_refl (rounded F rm x).1))
      have hlt : ((rounded F rm x).1 : Rat) < k + 1 := by
        by_contra hge
        have := mul_le_mul_of_nonneg_right (not_lt.1 hge) hu.le
        linarith
      exact mul_le_mul_of_nonneg_right
          (Nat.cast_le.2 (Nat.le_of_lt_succ (by exact_mod_cast hlt))) hu.le
    · exact absurd (hzx.trans_lt hlt) (not_lt.2 (zpow_leadExp_le hx))

/-! ## The directed modes -/

section Directed

variable {t : Tininess}

/-- RDN rounds a negative magnitude up and any other down. -/
theorem valueRat_round_rdn (hx : x.num ≠ 0) (h : InRange F .rdn x) :
    valueRat F (round t F .rdn x).1 ≤ x.toRat ∧
    ∀ z, isFinite F z = true → valueRat F z ≤ x.toRat →
      valueRat F z ≤ valueRat F (round t F .rdn x).1 := by
  by_cases hneg : x.num < 0
  · have hxneg := x.num_neg_iff.1 hneg
    obtain ⟨hge, hbest⟩ := roundedMagnitude_of_up (F := F) (rm := .rdn) hx
      (by simp [reachesMultiple, hneg])
    rw [valueRat_round_of_neg hneg h]
    rw [abs_of_neg hxneg] at hge hbest
    refine ⟨by linarith, fun z hz hzx => ?_⟩
    have hz' := hbest z hz
    rw [abs_of_neg (hzx.trans_lt hxneg)] at hz'
    have := hz' (by linarith)
    linarith
  · have hxpos := not_lt.1 (mt x.num_neg_iff.2 hneg)
    obtain ⟨hle, hbest⟩ := roundedMagnitude_of_down (F := F) (rm := .rdn) hx
      (by simp [reachesMultiple, hneg])
    rw [valueRat_round_of_nonneg hx hneg h]
    rw [abs_of_nonneg hxpos] at hle hbest
    refine ⟨hle, fun z hz hzx => ?_⟩
    rcases le_total 0 (valueRat F z) with h0 | h0
    · exact (le_abs_self _).trans (hbest z hz (by rwa [abs_of_nonneg h0]))
    · exact h0.trans roundedMagnitude_nonneg

/-- RUP rounds a negative magnitude down and any other up. -/
theorem valueRat_round_rup (hx : x.num ≠ 0) (h : InRange F .rup x) :
    x.toRat ≤ valueRat F (round t F .rup x).1 ∧
    ∀ z, isFinite F z = true → x.toRat ≤ valueRat F z →
      valueRat F (round t F .rup x).1 ≤ valueRat F z := by
  by_cases hneg : x.num < 0
  · have hxneg := x.num_neg_iff.1 hneg
    obtain ⟨hle, hbest⟩ := roundedMagnitude_of_down (F := F) (rm := .rup) hx
      (by simp [reachesMultiple, hneg])
    rw [valueRat_round_of_neg hneg h]
    rw [abs_of_neg hxneg] at hle hbest
    refine ⟨by linarith, fun z hz hzx => ?_⟩
    rcases le_total 0 (valueRat F z) with h0 | h0
    · exact (neg_nonpos.2 roundedMagnitude_nonneg).trans h0
    · have hz' := hbest z hz
      rw [abs_of_nonpos h0] at hz'
      have := hz' (by linarith)
      linarith
  · have hxpos := not_lt.1 (mt x.num_neg_iff.2 hneg)
    obtain ⟨hge, hbest⟩ := roundedMagnitude_of_up (F := F) (rm := .rup) hx
      (by simp [reachesMultiple, hneg])
    rw [valueRat_round_of_nonneg hx hneg h]
    rw [abs_of_nonneg hxpos] at hge hbest
    refine ⟨hge, fun z hz hzx => ?_⟩
    have hz' := hbest z hz
    rw [abs_of_nonneg (hxpos.trans hzx)] at hz'
    exact hz' hzx

end Directed

theorem abs_valueRat_round {t : Tininess} (hx : x.num ≠ 0) (h : InRange F rm x) :
    |valueRat F (round t F rm x).1| = roundedMagnitude F rm x := by
  rw [valueRat_round hx h, ← roundedMagnitude, abs_mul, abs_signFactor, one_mul,
    abs_of_nonneg roundedMagnitude_nonneg]

/-! ## The nearest modes -/

/-- RNE and RMM reach a multiple from half a unit below it on, RMM that point included, RNE where
the multiple is even. -/
theorem rounded_nearest (hrm : rm = .rne ∨ rm = .rmm) (k : Nat) :
    (k ≤ (rounded F rm x).1 →
      k * (2 : Rat) ^ roundQuantum F x - (2 : Rat) ^ roundQuantum F x / 2 ≤ |x.toRat|) ∧
    ((rounded F rm x).1 < k →
      |x.toRat| ≤ k * (2 : Rat) ^ roundQuantum F x - (2 : Rat) ^ roundQuantum F x / 2) ∧
    (k * (2 : Rat) ^ roundQuantum F x - (2 : Rat) ^ roundQuantum F x / 2 = |x.toRat| →
      (k ≤ (rounded F rm x).1 ↔ rm = .rmm ∨ k % 2 = 0)) := by
  rw [← not_le, le_rounded_iff]
  rcases hrm with rfl | rfl <;> simp only [reachesMultiple]
  · refine ⟨fun h => h.elim le_of_lt fun h => h.1.le, fun h => not_lt.1 fun hl => h (.inl hl),
      fun h => ?_⟩
    simp [h]
  · exact ⟨id, fun h => (not_le.1 h).le, fun h => by simp [h]⟩

/-- No multiple of the quantum is nearer to the magnitude of `x` than the rounded one. Where another
one is as near, both are half a unit away, on the two sides: RNE took the even one and RMM the
greater. -/
theorem roundedMagnitude_nearest_multiple (hrm : rm = .rne ∨ rm = .rmm) (k : Nat) :
    let u := (2 : Rat) ^ roundQuantum F x
    abs (roundedMagnitude F rm x - |x.toRat|) ≤ abs (k * u - |x.toRat|) ∧
    (abs (roundedMagnitude F rm x - |x.toRat|) = abs (k * u - |x.toRat|) →
      k ≠ (rounded F rm x).1 →
      (rm = .rne → (rounded F rm x).1 % 2 = 0) ∧ (rm = .rmm → k < (rounded F rm x).1)) := by
  intro u
  have hu : 0 < u := zpow_roundQuantum_pos
  obtain ⟨hlo, -, hloTie⟩ := rounded_nearest (F := F) (x := x) hrm (rounded F rm x).1
  obtain ⟨-, hhi, hhiTie⟩ := rounded_nearest (F := F) (x := x) hrm ((rounded F rm x).1 + 1)
  have hlo' := hlo (le_refl _)
  have hhi' := hhi (Nat.lt_succ_self _)
  push_cast at hhi' hhiTie
  have hM : roundedMagnitude F rm x = (rounded F rm x).1 * u := rfl
  have hhalf : abs (roundedMagnitude F rm x - |x.toRat|) ≤ u / 2 := by
    rw [hM, abs_le]
    constructor <;> linarith
  rcases lt_trichotomy k (rounded F rm x).1 with h | h | h
  · have hk : ((k : Rat) + 1) * u ≤ (rounded F rm x).1 * u :=
      mul_le_mul_of_nonneg_right (by exact_mod_cast h) hu.le
    have habs : abs (k * u - |x.toRat|) = |x.toRat| - k * u := by
      rw [abs_of_nonpos (by linarith), neg_sub]
    rw [habs]
    refine ⟨by linarith, fun heq _ => ⟨fun hrne => ?_, fun _ => h⟩⟩
    have htie := (hloTie (by linarith)).1 (le_refl _)
    exact htie.resolve_left (by rw [hrne]; decide)
  · rw [hM, h]
    exact ⟨le_refl _, fun _ hne => absurd rfl hne⟩
  · have hk : (((rounded F rm x).1 : Rat) + 1) * u ≤ k * u :=
      mul_le_mul_of_nonneg_right (by exact_mod_cast h) hu.le
    have habs : abs (k * u - |x.toRat|) = k * u - |x.toRat| := abs_of_nonneg (by linarith)
    rw [habs]
    refine ⟨by linarith, fun heq _ => ?_⟩
    have htie := mt (hhiTie (by linarith)).2 (Nat.not_succ_le_self _)
    rw [not_or] at htie
    exact ⟨fun _ => by omega, fun hrmm => absurd hrmm htie.1⟩

/-- No finite magnitude is nearer to that of `x` than the rounded one, which RNE took even and RMM
the greater where another one is as near. -/
theorem roundedMagnitude_nearest (hx : x.num ≠ 0) (hrm : rm = .rne ∨ rm = .rmm)
    {z : BitVec F.width} (hz : isFinite F z = true) :
    abs (roundedMagnitude F rm x - |x.toRat|) ≤ abs (|valueRat F z| - |x.toRat|) ∧
    (abs (roundedMagnitude F rm x - |x.toRat|) = abs (|valueRat F z| - |x.toRat|) →
      |valueRat F z| ≠ roundedMagnitude F rm x →
      (rm = .rne → (rounded F rm x).1 % 2 = 0) ∧
      (rm = .rmm → |valueRat F z| < roundedMagnitude F rm x)) := by
  have hu := zpow_roundQuantum_pos (F := F) (x := x)
  rcases abs_valueRat_cases F x hz with ⟨k, hk⟩ | ⟨hlt, hlead⟩
  · obtain ⟨hle, htie⟩ := roundedMagnitude_nearest_multiple (F := F) (x := x) hrm k
    rw [hk]
    refine ⟨hle, fun heq hne => ?_⟩
    obtain ⟨hrne, hrmm⟩ := htie heq fun h => hne (by rw [h]; rfl)
    exact ⟨hrne, fun h => mul_lt_mul_of_pos_right (Nat.cast_lt.2 (hrmm h)) hu⟩
  · have hge := zpow_leadExp_le hx
    obtain ⟨hle, -⟩ := roundedMagnitude_nearest_multiple (F := F) (x := x) hrm (2 ^ F.fracBits)
    simp only [← hlead] at hle
    rw [abs_of_nonpos (sub_nonpos.2 hge)] at hle
    rw [abs_of_nonpos (a := |valueRat F z| - _) (by linarith)]
    exact ⟨by linarith, fun heq => absurd heq (by linarith)⟩

/-- The least bit of a pattern is that of its fraction. -/
theorem getLsbD_zero_assemble (s : Bool) (e f : Nat) :
    (assemble F s e f).getLsbD 0 = decide (f % 2 = 1) := by
  have hw : 0 < F.width := by cases F <;> decide
  have hparity : (s.toNat * 2 ^ (F.width - 1) + e * 2 ^ F.fracBits + f) % 2 = f % 2 := by
    cases F <;> simp only [Format.width, Format.fracBits] <;> omega
  rw [assemble, BitVec.getLsbD_ofNat, decide_eq_true hw, Bool.true_and, Nat.testBit_zero, hparity]

/-- An even magnitude is encoded with an even fraction, a magnitude carried one bit up among
them. -/
theorem getLsbD_zero_encodeMagnitude {s : Bool} {m : Nat} {q : Int} (hle : m ≤ 2 ^ (F.fracBits + 1))
    (heven : m % 2 = 0) : (encodeMagnitude F s m q).getLsbD 0 = false := by
  have hlt : 2 ^ F.fracBits < 2 ^ (F.fracBits + 1) := Nat.pow_lt_pow_succ (by decide)
  have hunit : 2 ^ F.fracBits % 2 = 0 := by cases F <;> rfl
  rcases hle.eq_or_lt with rfl | hfits
  · rw [encodeMagnitude_carry, encodeMagnitude_of_ge (le_refl _) hlt, getLsbD_zero_assemble,
      Nat.sub_self]
    rfl
  · by_cases hge : 2 ^ F.fracBits ≤ m
    · rw [encodeMagnitude_of_ge hge hfits, getLsbD_zero_assemble]
      exact decide_eq_false (by omega)
    · rw [encodeMagnitude_of_lt (Nat.not_le.1 hge), getLsbD_zero_assemble]
      exact decide_eq_false (by omega)

/-- Of two numbers as far apart as their magnitudes are, the one has the sign of the other. -/
theorem eq_signFactor_mul_abs {a b : Rat} (hb : b ≠ 0) (h : abs (|a| - |b|) = |a - b|) :
    a = signFactor (decide (b < 0)) * |a| := by
  rcases hb.lt_or_gt with hneg | hpos
  · have ha : a ≤ 0 := by
      by_contra hn
      rw [abs_of_pos (not_le.1 hn), abs_of_neg hneg, abs_of_pos (a := a - b) (by linarith)] at h
      rcases abs_cases (a - -b) with ⟨e, -⟩ | ⟨e, -⟩ <;> linarith
    simp [signFactor, hneg, abs_of_nonpos ha]
  · have ha : 0 ≤ a := by
      by_contra hn
      rw [abs_of_neg (not_le.1 hn), abs_of_pos hpos, abs_of_neg (a := a - b) (by linarith)] at h
      rcases abs_cases (-a - b) with ⟨e, -⟩ | ⟨e, -⟩ <;> linarith
    simp [signFactor, hpos.le, abs_of_nonneg ha]

end Nearest

/-- Settles O33: on each side of zero a directed mode rounds every magnitude down, or every
magnitude up. -/
theorem directedRoundingIsCorrect : Obligations.DirectedRoundingIsCorrect := by
  intro t F rm x hx hof y
  have hin := inRange_of_not_OF hof
  refine ⟨isFinite_round hx hin, sign_round hx hin, ?_, ?_, ?_⟩
  · rintro rfl
    exact valueRat_round_rdn hx hin
  · rintro rfl
    exact valueRat_round_rup hx hin
  · rintro rfl
    rw [abs_valueRat_round hx hin]
    exact roundedMagnitude_of_down hx fun k => Iff.rfl

/-- Settles O34: distances are those of the magnitudes, since the result has the sign of `x` and a
pattern of the other sign is farther away than its magnitude. -/
theorem nearestRoundingIsCorrect : Obligations.NearestRoundingIsCorrect := by
  intro t F rm x hx hrm hof y
  have hin := inRange_of_not_OF hof
  have hy : valueRat F y = signFactor (decide (x.num < 0)) * roundedMagnitude F rm x :=
    valueRat_round hx hin
  refine ⟨isFinite_round hx hin, sign_round hx hin, fun z hz => ?_⟩
  obtain ⟨hle, htie⟩ := roundedMagnitude_nearest hx hrm hz
  have hdist : |valueRat F y - x.toRat| = abs (roundedMagnitude F rm x - |x.toRat|) := by
    rw [hy, x.toRat_eq_signFactor_mul, ← mul_sub, abs_mul, abs_signFactor, one_mul, abs_mul,
      abs_signFactor, one_mul, abs_abs]
  have hfar : abs (|valueRat F z| - |x.toRat|) ≤ |valueRat F z - x.toRat| :=
    abs_abs_sub_abs_le _ _
  rw [hdist]
  refine ⟨hle.trans hfar, fun heq hne => ?_⟩
  have hsame : valueRat F z = signFactor (decide (x.num < 0)) * |valueRat F z| := by
    simp only [x.num_neg_iff]
    exact eq_signFactor_mul_abs (Exact.toRat_ne_zero hx) (le_antisymm hfar (heq ▸ hle))
  obtain ⟨hrne, hrmm⟩ := htie (le_antisymm hle (heq ▸ hfar)) fun h => hne (by rw [hy, hsame, h])
  refine ⟨fun h => ?_, fun h => ?_⟩
  · show (round t F rm x).1.getLsbD 0 = false
    rw [round_of_inRange hin]
    exact getLsbD_zero_encodeMagnitude (rounded_le hx) (hrne h)
  · rw [abs_valueRat_round hx hin]
    exact hrmm h

end Sys2Proof.Machine
end

section
/-! PROOFS. The thresholds of overflow and of tininess (R127 to R129): what a rounding to the
format's precision with an unbounded exponent range reaches. -/

namespace Sys2Proof.Machine

open Sys2Proof.Claims

section Thresholds

variable {t : Tininess} {F : Format} {rm : RoundingMode} {x : Exact} {k : Int}

/-- The magnitude of `x`, rounded to the precision of `F` with an unbounded exponent range, in units
of `2^(leadExp - M)`. -/
def roundedUnbounded (F : Format) (rm : RoundingMode) (x : Exact) : Nat :=
  (roundAt rm (decide (x.num < 0)) x.num.natAbs x.exp (x.leadExp - F.fracBits)).1

theorem le_roundedUnbounded_iff {n : Nat} :
    n ≤ roundedUnbounded F rm x ↔
      reachesMultiple rm (decide (x.num < 0)) n
        ((2 : Rat) ^ (x.leadExp - F.fracBits)) |x.toRat| := by
  rw [x.abs_toRat]
  exact le_roundAt_iff

theorem two_mul_zpow_pred (k : Int) : 2 * (2 : Rat) ^ (k - 1) = (2 : Rat) ^ k := by
  rw [← zpow_one_add₀ two_ne_zero]
  congr 1
  omega

/-- The threshold of R127 to R129 is reached by every magnitude from the power of two on. -/
theorem reachesPow_of_le (h : (2 : Rat) ^ k ≤ |x.toRat|) : reachesPow F rm k x.toRat := by
  have h2 := two_mul_zpow_pred k
  have hk : (0 : Rat) < (2 : Rat) ^ (k - 1) := by positivity
  have hpos (n : Int) : 0 < (2 : Rat) ^ n * (2 : Rat) ^ (k - 1) := by positivity
  have hmid := hpos (-(F.fracBits + 1 : Int))
  have hbelow := hpos (-(F.fracBits : Int))
  unfold reachesPow
  cases rm <;> simp only [sub_mul]
  case rne => linarith
  case rmm => linarith
  case rtz => exact h
  case rdn => split_ifs <;> linarith
  case rup => split_ifs <;> linarith

/-- It is reached by no magnitude below half the power of two. -/
theorem le_of_reachesPow (h : reachesPow F rm k x.toRat) : (2 : Rat) ^ (k - 1) ≤ |x.toRat| := by
  have h2 := two_mul_zpow_pred k
  have hk : (0 : Rat) < (2 : Rat) ^ (k - 1) := by positivity
  have hle (n : Nat) : (2 : Rat) ^ (-(n : Int)) * (2 : Rat) ^ (k - 1) ≤ (2 : Rat) ^ (k - 1) :=
    mul_le_of_le_one_left hk.le (zpow_le_one_of_nonpos₀ one_le_two (by omega))
  have hmid := hle (F.fracBits + 1)
  have hbelow := hle F.fracBits
  push_cast at hmid
  unfold reachesPow at h
  cases rm <;> simp only [sub_mul] at h
  case rne => linarith
  case rmm => linarith
  case rtz => linarith
  case rdn => split_ifs at h <;> linarith
  case rup => split_ifs at h <;> linarith

/-- Just below the power of two it is the threshold of the last multiple. -/
theorem reachesPow_iff_reachesMultiple (hlead : x.leadExp = k - 1) :
    reachesPow F rm k x.toRat ↔
      reachesMultiple rm (decide (x.num < 0)) (2 ^ (F.fracBits + 1))
        ((2 : Rat) ^ (x.leadExp - F.fracBits)) |x.toRat| := by
  have hu : (2 : Rat) ^ (x.leadExp - F.fracBits) =
      (2 : Rat) ^ (-(F.fracBits : Int)) * (2 : Rat) ^ (k - 1) := by
    rw [← zpow_add₀ two_ne_zero, hlead]
    congr 1
    omega
  have hhalf : (2 : Rat) ^ (-(F.fracBits + 1 : Int)) * (2 : Rat) ^ (k - 1) =
      (2 : Rat) ^ (x.leadExp - F.fracBits) / 2 := by
    rw [hu, neg_add, zpow_add₀ two_ne_zero]
    ring
  have h2 := two_mul_zpow_pred k
  have hK : ((2 ^ (F.fracBits + 1) : Nat) : Rat) * (2 : Rat) ^ (x.leadExp - F.fracBits) =
      (2 : Rat) ^ k := by
    rw [two_pow_mul_zpow, hlead]
    congr 1
    push_cast
    omega
  have heven : 2 ^ (F.fracBits + 1) % 2 = 0 := by rw [pow_succ]; omega
  have hneg := x.num_neg_iff
  cases rm <;> simp only [reachesPow, reachesMultiple, sub_mul, hhalf, ← hu, hK, h2, heven,
    and_true, decide_eq_true_eq, hneg]
  case rne => exact le_iff_lt_or_eq

/-- Rounding to the format's precision keeps between the two powers of two around `x`. -/
theorem roundedUnbounded_bounds (hx : x.num ≠ 0) :
    (2 : Rat) ^ x.leadExp ≤ roundedUnbounded F rm x * (2 : Rat) ^ (x.leadExp - F.fracBits) ∧
    roundedUnbounded F rm x * (2 : Rat) ^ (x.leadExp - F.fracBits) ≤
      (2 : Rat) ^ (x.leadExp + 1) := by
  obtain ⟨hlo, hhi⟩ := x.leadExp_bounds hx
  have hu : (0 : Rat) < (2 : Rat) ^ (x.leadExp - F.fracBits) := by positivity
  have hbot : ((2 ^ F.fracBits : Nat) : Rat) * (2 : Rat) ^ (x.leadExp - F.fracBits) =
      (2 : Rat) ^ x.leadExp := by rw [two_pow_mul_zpow, sub_add_cancel]
  have htop : ((2 ^ (F.fracBits + 1) : Nat) : Rat) * (2 : Rat) ^ (x.leadExp - F.fracBits) =
      (2 : Rat) ^ (x.leadExp + 1) := by
    rw [two_pow_mul_zpow]
    congr 1
    push_cast
    omega
  rw [← hbot, ← htop, mul_le_mul_iff_left₀ hu, mul_le_mul_iff_left₀ hu, Nat.cast_le, Nat.cast_le]
  refine ⟨le_roundedUnbounded_iff.2 (reachesMultiple_of_le hu (hbot ▸ hlo)), ?_⟩
  by_contra hgt
  have hreach := lt_of_reachesMultiple hu
    (le_roundedUnbounded_iff.1 (Nat.succ_le_of_lt (Nat.not_le.1 hgt)))
  rw [Nat.cast_succ, add_mul, one_mul, add_sub_cancel_right, htop] at hreach
  exact lt_irrefl _ (hreach.trans hhi)

/-- R127 to R129: the threshold says that the magnitude so rounded reaches the power of two. -/
theorem reachesPow_iff (hx : x.num ≠ 0) :
    reachesPow F rm k x.toRat ↔
      (2 : Rat) ^ k ≤ roundedUnbounded F rm x * (2 : Rat) ^ (x.leadExp - F.fracBits) := by
  obtain ⟨hlo, hhi⟩ := x.leadExp_bounds hx
  obtain ⟨hrlo, hrhi⟩ := roundedUnbounded_bounds (F := F) (rm := rm) hx
  rcases lt_trichotomy x.leadExp (k - 1) with h | h | h
  · have htop : (2 : Rat) ^ (x.leadExp + 1) ≤ (2 : Rat) ^ (k - 1) := zpow_two_le_iff.2 (by omega)
    have hk : (2 : Rat) ^ (k - 1) < (2 : Rat) ^ k := zpow_two_lt_iff.2 (by omega)
    exact iff_of_false (fun hreach => (hhi.trans_le htop).not_ge (le_of_reachesPow hreach))
      (not_le.2 ((hrhi.trans htop).trans_lt hk))
  · have hu : (0 : Rat) < (2 : Rat) ^ (x.leadExp - F.fracBits) := by positivity
    have hK : ((2 ^ (F.fracBits + 1) : Nat) : Rat) * (2 : Rat) ^ (x.leadExp - F.fracBits) =
        (2 : Rat) ^ k := by
      rw [two_pow_mul_zpow, h]
      congr 1
      push_cast
      omega
    rw [reachesPow_iff_reachesMultiple h, ← le_roundedUnbounded_iff, ← hK, mul_le_mul_iff_left₀ hu,
      Nat.cast_le]
  · have hk : (2 : Rat) ^ k ≤ (2 : Rat) ^ x.leadExp := zpow_two_le_iff.2 (by omega)
    exact iff_of_true (reachesPow_of_le (hk.trans hlo)) (hk.trans hrlo)

/-! ## Overflow (R128) -/

/-- Overflow is reaching the power of two above the greatest exponent. -/
theorem inRange_iff (hx : x.num ≠ 0) :
    InRange F rm x ↔ ¬reachesPow F rm (F.emax + 1) x.toRat := by
  have hemin : F.emin ≤ F.emax := by cases F <;> decide
  by_cases hlead : F.emin ≤ x.leadExp
  · have hq : roundQuantum F x = x.leadExp - F.fracBits := by
      rw [roundQuantum, max_eq_left hlead]
    rw [reachesPow_iff hx, not_le, InRange, rounded, hq]
    rfl
  · have hlt : |x.toRat| < (2 : Rat) ^ F.emax :=
      (x.leadExp_bounds hx).2.trans_le (zpow_two_le_iff.2 (by omega))
    refine iff_of_true ?_ fun hreach => ?_
    · by_contra hn
      have hreach := lt_of_reachesMultiple (zpow_roundQuantum_pos (F := F) (x := x))
        (le_rounded_iff.1 (le_refl (rounded F rm x).1))
      have hunit : (2 : Rat) ^ roundQuantum F x ≤ (2 : Rat) ^ F.emax :=
        zpow_two_le_iff.2 (by rw [roundQuantum]; omega)
      have h2 := two_mul_zpow_pred (F.emax + 1)
      rw [add_sub_cancel_right] at h2
      rw [InRange, not_lt] at hn
      linarith
    · have hle := le_of_reachesPow hreach
      rw [add_sub_cancel_right] at hle
      exact hlt.not_ge hle

/-- Settles O37: what is not in range overflows, to the result of the table. -/
theorem overflowResults : Obligations.OverflowResults := by
  intro t F rm x hx
  have hof : raises (round t F rm x).2 OF = true ↔ reachesPow F rm (F.emax + 1) x.toRat := by
    rw [raises_OF_iff, inRange_iff hx, not_not]
  refine ⟨hof, fun hreach => ?_, fun hle => hof.2 (reachesPow_of_le hle)⟩
  rw [round_of_not_inRange (mt (inRange_iff hx).1 (not_not.2 hreach))]
  simp only [x.num_neg_iff]
  cases rm <;> cases decide (x.toRat < 0) <;> rfl

/-! ## Tininess (R129) -/

/-- The pattern does not depend on the policy. -/
theorem round_fst_congr (t t' : Tininess) : (round t F rm x).1 = (round t' F rm x).1 := by
  by_cases hin : InRange F rm x
  · rw [round_of_inRange hin, round_of_inRange hin]
  · rw [round_of_not_inRange hin, round_of_not_inRange hin]

/-- Before rounding, tiny is being below `2^emin`. -/
theorem tinyResult_beforeRounding :
    tinyResult .beforeRounding F rm x = true ↔ |x.toRat| < (2 : Rat) ^ F.emin := by
  rw [tinyResult, tiny, Bool.not_eq_true', Bool.eq_false_iff, Ne, atLeastPow_iff, ← x.abs_toRat,
    not_le]

/-- After rounding, tiny is not reaching `2^emin`. -/
theorem tinyResult_afterRounding (hx : x.num ≠ 0) :
    tinyResult .afterRounding F rm x = true ↔ ¬reachesPow F rm F.emin x.toRat := by
  rw [tinyResult, tiny, Bool.not_eq_true', Bool.eq_false_iff, Ne, atLeastPow_iff, reachesPow_iff hx]
  rfl

/-- What is tiny under either policy is below `2^emin`. -/
theorem abs_toRat_lt_of_tinyResult (hx : x.num ≠ 0) (h : tinyResult t F rm x = true) :
    |x.toRat| < (2 : Rat) ^ F.emin := by
  cases t
  case beforeRounding => exact tinyResult_beforeRounding.1 h
  case afterRounding => exact not_le.1 (mt reachesPow_of_le ((tinyResult_afterRounding hx).1 h))

/-- In the boundary case the magnitude is rounded up to `2^emin`, in range and inexactly. -/
theorem roundedMagnitude_of_boundary (hx : x.num ≠ 0) (hlt : |x.toRat| < (2 : Rat) ^ F.emin)
    (hreach : reachesPow F rm F.emin x.toRat) :
    InRange F rm x ∧ (rounded F rm x).2 = true ∧
      roundedMagnitude F rm x = (2 : Rat) ^ F.emin := by
  have hlead : x.leadExp < F.emin :=
    zpow_two_lt_iff.1 ((x.leadExp_bounds hx).1.trans_lt hlt)
  have hemin : F.emin ≤ F.emax := by cases F <;> decide
  have hcoarse : ((2 ^ F.fracBits : Nat) : Rat) * (2 : Rat) ^ roundQuantum F x =
      (2 : Rat) ^ F.emin := by
    rw [two_pow_mul_zpow, roundQuantum]
    congr 1
    omega
  have hfine : ((2 ^ (F.emin - (x.leadExp - F.fracBits)).toNat : Nat) : Rat) *
      (2 : Rat) ^ (x.leadExp - F.fracBits) = (2 : Rat) ^ F.emin := by
    rw [two_pow_mul_zpow]
    congr 1
    omega
  have hge : 2 ^ F.fracBits ≤ (rounded F rm x).1 := by
    have hunit : (2 : Rat) ^ (x.leadExp - F.fracBits) < (2 : Rat) ^ roundQuantum F x := by
      rw [zpow_two_lt_iff, roundQuantum]
      omega
    rw [reachesPow_iff hx, ← hfine, mul_le_mul_iff_left₀ (by positivity), Nat.cast_le,
      le_roundedUnbounded_iff] at hreach
    exact le_rounded_iff.2 (reachesMultiple_of_finer hunit (hfine.trans hcoarse.symm) hreach)
  have hle : (rounded F rm x).1 ≤ 2 ^ F.fracBits := by
    by_contra hgt
    have hup := lt_of_reachesMultiple (zpow_roundQuantum_pos (F := F) (x := x))
      (le_rounded_iff.1 (Nat.succ_le_of_lt (Nat.not_le.1 hgt)))
    rw [Nat.cast_succ, add_mul, one_mul, add_sub_cancel_right, hcoarse] at hup
    exact lt_irrefl _ (hup.trans hlt)
  have hM : roundedMagnitude F rm x = (2 : Rat) ^ F.emin := by
    rw [roundedMagnitude, le_antisymm hle hge, hcoarse]
  refine ⟨?_, ?_, hM⟩
  · rw [InRange, ← roundedMagnitude, hM]
    exact zpow_two_lt_iff.2 (by omega)
  · by_contra hexact
    have heq := abs_toRat_of_exact (Bool.eq_false_of_not_eq_true hexact)
    rw [← roundedMagnitude, hM] at heq
    exact hlt.ne heq

end Thresholds

/-- Settles O39: the policies read the same rounding, and differ in the boundary case alone, where
the one calls `x` tiny and the other does not. -/
theorem tininessPoliciesDifferOnlyAtTheBoundary :
    Obligations.TininessPoliciesDifferOnlyAtTheBoundary := by
  intro F rm x hx b a
  have hboundary : |x.toRat| < (2 : Rat) ^ F.emin → reachesPow F rm F.emin x.toRat →
      b.2 = UF ||| NX ∧ a.2 = NX ∧ |valueRat F b.1| = (2 : Rat) ^ F.emin := by
    intro hlt hreach
    obtain ⟨hin, hinexact, hM⟩ := roundedMagnitude_of_boundary hx hlt hreach
    have hbefore := tinyResult_beforeRounding (rm := rm).2 hlt
    have hafter := Bool.eq_false_of_not_eq_true
      (mt (tinyResult_afterRounding hx).1 (not_not.2 hreach))
    refine ⟨?_, ?_, (abs_valueRat_round hx hin).trans hM⟩
    · show (round .beforeRounding F rm x).2 = _
      rw [round_of_inRange hin, hinexact, hbefore]
      rfl
    · show (round .afterRounding F rm x).2 = _
      rw [round_of_inRange hin, hinexact, hafter]
      rfl
  have hsame : ¬(|x.toRat| < (2 : Rat) ^ F.emin ∧ reachesPow F rm F.emin x.toRat) → b = a := by
    intro hn
    have htiny : tinyResult .beforeRounding F rm x = tinyResult .afterRounding F rm x := by
      rw [Bool.eq_iff_iff, tinyResult_beforeRounding, tinyResult_afterRounding hx]
      exact ⟨fun hlt hreach => hn ⟨hlt, hreach⟩, fun h => not_le.1 (mt reachesPow_of_le h)⟩
    by_cases hin : InRange F rm x
    · exact (round_of_inRange hin).trans (by rw [htiny, ← round_of_inRange hin])
    · exact (round_of_not_inRange hin).trans (round_of_not_inRange hin).symm
  refine ⟨?_, ⟨fun hne => ?_, fun ⟨hlt, hreach⟩ => ?_⟩, hboundary⟩
  · exact round_fst_congr _ _
  · by_contra hn
    exact hne (congrArg Prod.snd (hsame hn))
  · obtain ⟨hb, ha, -⟩ := hboundary hlt hreach
    rw [hb, ha]
    decide

end Sys2Proof.Machine
end

section
/-! PROOFS. The adder core (R134, R135): one rounding of the exact sum, which depends on the sum's
value alone; commutativity; and sums that never underflow. -/

namespace Sys2Proof.Machine

open Sys2Proof.Claims

/-! ## Rounding depends on the value alone (R12) -/

theorem roundAt_congr {rm : RoundingMode} {s : Bool} {a a' : Nat} {p p' q : Int}
    (h : (a : Rat) * (2 : Rat) ^ p = a' * (2 : Rat) ^ p') :
    roundAt rm s a p q = roundAt rm s a' p' q := by
  refine Prod.ext (eq_of_forall_le_iff fun k => ?_) ?_
  · rw [le_roundAt_iff, le_roundAt_iff, h]
  · rw [← Bool.not_inj_iff, Bool.eq_iff_iff, Bool.not_eq_true', Bool.not_eq_true',
      roundAt_snd_eq_false_iff, roundAt_snd_eq_false_iff, h]

theorem Exact.leadExp_congr {x y : Exact} (hx : x.num ≠ 0) (hy : y.num ≠ 0)
    (h : x.toRat = y.toRat) : x.leadExp = y.leadExp := by
  obtain ⟨hxlo, hxhi⟩ := x.leadExp_bounds hx
  obtain ⟨hylo, hyhi⟩ := y.leadExp_bounds hy
  rw [h] at hxlo hxhi
  have hle := zpow_two_lt_iff.1 (hxlo.trans_lt hyhi)
  have hge := zpow_two_lt_iff.1 (hylo.trans_lt hxhi)
  omega

/-- Two exact values that stand for the same rational round alike. -/
theorem round_congr {t : Tininess} {F : Format} {rm : RoundingMode} {x y : Exact} (hx : x.num ≠ 0)
    (h : x.toRat = y.toRat) : round t F rm x = round t F rm y := by
  have hy : y.num ≠ 0 := fun h0 => Exact.toRat_ne_zero hx (by rw [h, Exact.toRat, h0]; simp)
  have hlead : x.exp + (x.num.natAbs.log2 : Int) = y.exp + (y.num.natAbs.log2 : Int) :=
    Exact.leadExp_congr hx hy h
  have hsign : decide (x.num < 0) = decide (y.num < 0) := by
    rw [decide_eq_decide, x.num_neg_iff, y.num_neg_iff, h]
  have hmag : (x.num.natAbs : Rat) * (2 : Rat) ^ x.exp = y.num.natAbs * (2 : Rat) ^ y.exp := by
    rw [← x.abs_toRat, ← y.abs_toRat, h]
  have hround : ∀ s q, roundAt rm s x.num.natAbs x.exp q = roundAt rm s y.num.natAbs y.exp q :=
    fun _ _ => roundAt_congr hmag
  have hpow : ∀ k, atLeastPow x.num.natAbs x.exp k = atLeastPow y.num.natAbs y.exp k := fun k => by
    rw [Bool.eq_iff_iff, atLeastPow_iff, atLeastPow_iff, hmag]
  have htiny : ∀ s e, tiny t F rm s x.num.natAbs x.exp e = tiny t F rm s y.num.natAbs y.exp e :=
      fun s e => by
    cases t <;> simp only [tiny, hpow, hround]
  simp only [round, hlead, hround, htiny, hsign]

section Adder

variable {P : Params} {F : Format} {rm : RoundingMode} {u v : BitVec F.width}

/-- On finite operands the adder core rounds any exact value of a nonzero sum (R135). -/
theorem fAddCore_eq_round (hu : isFinite F u = true) (hv : isFinite F v = true) {x : Exact}
    (hx : x.num ≠ 0) (h : x.toRat = valueRat F u + valueRat F v) :
    fAddCore P F rm u v = round P.tininess F rm x := by
  have hsum : ((value F u).add (value F v)).toRat = x.toRat := by
    rw [Exact.toRat_add, h, valueRat, valueRat]
  have hne : ¬((value F u).add (value F v)).isZero = true := by
    rw [Exact.isZero_iff, hsum]
    exact Exact.toRat_ne_zero hx
  rw [fAddCore_of_finite hu hv, if_neg hne, round_congr hx hsum.symm]

theorem fAddCore_of_nan (h : isNaN F u = true ∨ isNaN F v = true) :
    fAddCore P F rm u v =
      (nanResult P.nanResult F u v, flagIf (isSNaN F u || isSNaN F v) NV) := by
  rcases h with h | h <;> simp [fAddCore, h]

/-- Opposite infinities (R135). -/
theorem fAddCore_of_opposite_inf (hu : isInf F u = true) (hv : isInf F v = true)
    (hs : sign F u ≠ sign F v) : fAddCore P F rm u v = (F.canonicalNaN, NV) := by
  simp [fAddCore, hu, hv, hs, isNaN_eq_false_of_isInf hu, isNaN_eq_false_of_isInf hv]

/-- An infinity and anything but a NaN and the opposite infinity (R135). -/
theorem fAddCore_of_inf (hu : isInf F u = true) (hv : isNaN F v = false)
    (hs : ¬(isInf F v = true ∧ sign F u ≠ sign F v)) : fAddCore P F rm u v = (u, noFlags) := by
  have hsame : ¬(isInf F u && isInf F v && sign F u != sign F v) = true := by
    simp only [hu, Bool.true_and, Bool.and_eq_true, bne_iff_ne]
    exact hs
  rw [fAddCore, isNaN_eq_false_of_isInf hu, hv, if_neg (by decide), if_neg hsame, if_pos hu]

/-- The NaN result, bit by bit, under the propagating policy (R134). -/
theorem getLsbD_nanResult_propagate (i : Nat) :
    (nanResult .propagate F u v).getLsbD i =
      (decide (i = F.fracBits - 1) || (if isNaN F u then u else v).getLsbD i) := by
  have hquiet : F.fracBits - 1 < F.width := by
    have := F.width_eq
    omega
  rw [nanResult, BitVec.getLsbD_or, BitVec.getLsbD_twoPow, Bool.or_comm, decide_eq_true hquiet,
    Bool.true_and, decide_eq_decide.2 eq_comm]

end Adder

/-- Settles O40: clause by clause, the branches of the adder core. -/
theorem adderRoundsOnce : Obligations.AdderRoundsOnce := by
  intro P F rm u v
  refine ⟨fun hu hv x hx h => fAddCore_eq_round hu hv hx h, fun hn => ?_,
    fAddCore_of_opposite_inf, fAddCore_of_inf,
    fun hu hv => fAddCore_of_inf_right hu hv (isNaN_eq_false_of_isInf hv)⟩
  rw [fAddCore_of_nan hn]
  refine ⟨rfl, fun hP => by rw [hP]; rfl, fun hP i _ => ?_⟩
  rw [hP]
  exact getLsbD_nanResult_propagate i

/-! ## Commutativity (R135) -/

section Commutes

variable {P : Params} {F : Format} {rm : RoundingMode} {u v : BitVec F.width}

/-- An infinity is the infinity of its sign. -/
theorem eq_inf_of_isInf (h : isInf F u = true) : u = inf F (sign F u) := by
  simp only [isInf, Bool.and_eq_true, beq_iff_eq] at h
  obtain ⟨he, hf⟩ := h
  rw [inf, ← he, ← hf, assemble_fields]

theorem zeroSumSign_comm (bothZero su sv : Bool) :
    zeroSumSign rm bothZero su sv = zeroSumSign rm bothZero sv su := by
  cases bothZero <;> cases su <;> cases sv <;> rfl

theorem fAddCore_comm_of_finite (hu : isFinite F u = true) (hv : isFinite F v = true) :
    fAddCore P F rm u v = fAddCore P F rm v u := by
  rw [fAddCore_of_finite hu hv, fAddCore_of_finite hv hu, Exact.add_comm, Bool.and_comm,
    zeroSumSign_comm]

/-- An infinity and a pattern that is no NaN. -/
theorem fAddCore_comm_of_inf (hu : isInf F u = true) (hv : isNaN F v = false) :
    fAddCore P F rm u v = fAddCore P F rm v u := by
  have hun := isNaN_eq_false_of_isInf hu
  by_cases hvi : isInf F v = true
  · by_cases hs : sign F u = sign F v
    · rw [eq_inf_of_isInf hu, eq_inf_of_isInf hvi, hs]
    · rw [fAddCore_of_opposite_inf hu hvi hs, fAddCore_of_opposite_inf hvi hu (Ne.symm hs)]
  · have hvfin := isFinite_of_not_inf_not_nan (Bool.eq_false_of_not_eq_true hvi) hv
    rw [fAddCore_of_inf_left hu hun hvfin, fAddCore_of_inf_right hvfin hu hun]

end Commutes

/-- Settles O42: by the class of the operands, a NaN, an infinity, or both finite. -/
theorem faddCoreCommutes : Obligations.FaddCoreCommutes := by
  intro P F rm u v hP
  by_cases hn : isNaN F u = true ∨ isNaN F v = true
  · rw [fAddCore_of_nan hn, fAddCore_of_nan hn.symm, hP, Bool.or_comm]
    rfl
  · rw [not_or, Bool.not_eq_true, Bool.not_eq_true] at hn
    obtain ⟨hu, hv⟩ := hn
    by_cases hui : isInf F u = true
    · exact fAddCore_comm_of_inf hui hv
    by_cases hvi : isInf F v = true
    · exact (fAddCore_comm_of_inf hvi hu).symm
    · exact fAddCore_comm_of_finite
        (isFinite_of_not_inf_not_nan (Bool.eq_false_of_not_eq_true hui) hu)
        (isFinite_of_not_inf_not_nan (Bool.eq_false_of_not_eq_true hvi) hv)

/-! ## Sums never underflow (R135) -/

section Underflow

variable {t : Tininess} {P : Params} {F : Format} {rm : RoundingMode} {u v : BitVec F.width}
  {x : Exact}

/-- A finite value is an integer multiple of the least quantum. -/
theorem exists_valueRat_eq_int_mul (hu : isFinite F u = true) :
    ∃ n : Int, valueRat F u = n * (2 : Rat) ^ (F.emin - F.fracBits) := by
  have hmin := (canonical_of_isFinite hu).least_le
  have hscale : (significand F u : Rat) * (2 : Rat) ^ quantum F u =
      ((significand F u * 2 ^ (quantum F u - (F.emin - F.fracBits)).toNat : Nat) : Rat) *
        (2 : Rat) ^ (F.emin - F.fracBits) := by
    rw [Nat.cast_mul, mul_assoc, two_pow_mul_zpow]
    congr 2
    omega
  rw [valueRat_eq, hscale]
  cases sign F u
  · exact ⟨(significand F u * 2 ^ (quantum F u - (F.emin - F.fracBits)).toNat : Nat), by
      simp [signFactor]⟩
  · exact ⟨-(significand F u * 2 ^ (quantum F u - (F.emin - F.fracBits)).toNat : Nat), by
      simp [signFactor]⟩

/-- A multiple of the least quantum that is tiny rounds exactly. -/
theorem rounded_exact_of_tiny (hx : x.num ≠ 0)
    (hmul : ∃ n : Int, x.toRat = n * (2 : Rat) ^ (F.emin - F.fracBits))
    (htiny : tinyResult t F rm x = true) : (rounded F rm x).2 = false := by
  obtain ⟨n, hn⟩ := hmul
  have hlead : x.leadExp < F.emin := zpow_two_lt_iff.1
    ((x.leadExp_bounds hx).1.trans_lt (abs_toRat_lt_of_tinyResult hx htiny))
  have hq : roundQuantum F x = F.emin - F.fracBits := by rw [roundQuantum, max_eq_right hlead.le]
  have h2 : |(2 : Rat) ^ (F.emin - F.fracBits)| = (2 : Rat) ^ (F.emin - F.fracBits) :=
    abs_of_pos (by positivity)
  refine roundAt_snd_eq_false_iff.2 ⟨n.natAbs, ?_⟩
  rw [← x.abs_toRat, hn, hq, abs_mul, h2, ← Int.cast_abs, Int.abs_eq_natAbs, Int.cast_natCast]

/-- A multiple of the least quantum never underflows. -/
theorem raises_UF_round_of_multiple (hx : x.num ≠ 0)
    (hmul : ∃ n : Int, x.toRat = n * (2 : Rat) ^ (F.emin - F.fracBits)) :
    raises (round t F rm x).2 UF = false := by
  by_cases hin : InRange F rm x
  · rw [round_of_inRange hin]
    cases htiny : tinyResult t F rm x
    · exact (by decide : ∀ inexact : Bool,
        raises (flagIf inexact NX ||| flagIf (false && inexact) UF) UF = false) _
    · rw [rounded_exact_of_tiny hx hmul htiny]
      exact (by decide : raises (flagIf false NX ||| flagIf (true && false) UF) UF = false)
  · rw [round_of_not_inRange hin]
    exact (by decide : raises (OF ||| NX) UF = false)

end Underflow

/-- What the adder core does: it rounds a nonzero sum of finite operands, or its flags are NV or
none. -/
theorem fAddCore_flags (P : Params) (F : Format) (rm : RoundingMode) (u v : BitVec F.width) :
    (fAddCore P F rm u v).2 = NV ∨ (fAddCore P F rm u v).2 = noFlags ∨
    ∃ x : Exact, x.num ≠ 0 ∧ (∃ n : Int, x.toRat = n * (2 : Rat) ^ (F.emin - F.fracBits)) ∧
      (fAddCore P F rm u v).2 = (round P.tininess F rm x).2 := by
  by_cases hn : isNaN F u = true ∨ isNaN F v = true
  · rw [fAddCore_of_nan hn]
    cases isSNaN F u || isSNaN F v
    exacts [.inr (.inl rfl), .inl rfl]
  rw [not_or, Bool.not_eq_true, Bool.not_eq_true] at hn
  obtain ⟨hu, hv⟩ := hn
  by_cases hui : isInf F u = true
  · by_cases hs : isInf F v = true ∧ sign F u ≠ sign F v
    · exact .inl (by rw [fAddCore_of_opposite_inf hui hs.1 hs.2])
    · exact .inr (.inl (by rw [fAddCore_of_inf hui hv hs]))
  have hufin := isFinite_of_not_inf_not_nan (Bool.eq_false_of_not_eq_true hui) hu
  by_cases hvi : isInf F v = true
  · exact .inr (.inl (by rw [fAddCore_of_inf_right hufin hvi hv]))
  have hvfin := isFinite_of_not_inf_not_nan (Bool.eq_false_of_not_eq_true hvi) hv
  by_cases hzero : valueRat F u + valueRat F v = 0
  · exact .inr (.inl (by rw [fAddCore_of_sum_zero hufin hvfin hzero]))
  · have hsum : ((value F u).add (value F v)).toRat = valueRat F u + valueRat F v :=
      Exact.toRat_add _ _
    have hnum : ((value F u).add (value F v)).num ≠ 0 := fun h0 => hzero (by
      rw [← hsum, Exact.toRat, h0]
      simp)
    obtain ⟨n, hn⟩ := exists_valueRat_eq_int_mul hufin
    obtain ⟨k, hk⟩ := exists_valueRat_eq_int_mul hvfin
    refine .inr (.inr ⟨_, hnum, ⟨n + k, ?_⟩, by rw [fAddCore_eq_round hufin hvfin hnum hsum]⟩)
    rw [hsum, hn, hk]
    push_cast
    ring

/-- Settles O43: a sum of finite operands is a multiple of the least quantum, which rounds exactly
where it is tiny. -/
theorem sumsNeverUnderflow : Obligations.SumsNeverUnderflow := by
  intro P F rm u v
  rcases fAddCore_flags P F rm u v with h | h | ⟨x, hx, hmul, h⟩ <;> rw [h]
  · decide
  · decide
  · exact raises_UF_round_of_multiple hx hmul

end Sys2Proof.Machine
end

section
/-! PROOFS. The order of `fmin` and `fmax` (R138) as the order of a key, and the choice they make
(R164, R165). -/

namespace Sys2Proof.Machine

open Sys2Proof.Claims

section Order

variable {F : Format} {u v w : BitVec F.width}

/-- Two finite patterns with the same value other than 0 are the same: both are what it rounds
to. -/
theorem eq_of_valueRat_eq (hu : isFinite F u = true) (hv : isFinite F v = true)
    (h : valueRat F u = valueRat F v) (h0 : valueRat F u ≠ 0) : u = v := by
  have hnum : (value F u).num ≠ 0 := fun hn => h0 (by rw [valueRat, Exact.toRat, hn]; simp)
  have hround : round .beforeRounding F .rne (value F u) = (u, noFlags) :=
    round_of_valueRat hnum hu rfl
  exact congrArg Prod.fst (hround.symm.trans (round_of_valueRat hnum hv h.symm))

/-- Where a pattern stands in the order of R138: an infinity by its sign, a finite pattern by its
value, and -0 below +0. -/
def orderKey (F : Format) (u : BitVec F.width) : Int ×ₗ Rat ×ₗ Bool :=
  toLex (infRank F u,
    toLex (if isInf F u then 0 else valueRat F u, isZero F u && !sign F u))

theorem infRank_of_finite (h : isInf F u = false) : infRank F u = 0 := by simp [infRank, h]

theorem infRank_eq_zero_iff : infRank F u = 0 ↔ isInf F u = false := by
  unfold infRank
  cases isInf F u <;> cases sign F u <;> simp

/-- The key of an infinity is its rank. -/
theorem orderKey_of_inf (h : isInf F u = true) :
    orderKey F u = toLex (infRank F u, toLex (0, false)) := by
  have hz : isZero F u = false := by
    cases hz : isZero F u
    · rfl
    · rw [isInf_eq_false_of_isFinite (isFinite_of_isZero hz)] at h
      cases h
  simp [orderKey, h, hz]

theorem orderKey_of_finite (h : isInf F u = false) :
    orderKey F u = toLex (0, toLex (valueRat F u, isZero F u && !sign F u)) := by
  simp [orderKey, h, infRank_of_finite h]

/-- Two finite patterns by their values, -0 below +0. -/
theorem orderKey_lt_iff_of_finite (hu : isInf F u = false) (hv : isInf F v = false) :
    orderKey F u < orderKey F v ↔
      valueRat F u < valueRat F v ∨
      (isZero F u = true ∧ isZero F v = true ∧ sign F u = true ∧ sign F v = false) := by
  rw [orderKey_of_finite hu, orderKey_of_finite hv]
  simp only [Prod.Lex.toLex_lt_toLex, lt_self_iff_false, false_or, true_and]
  refine or_congr_right ?_
  have hzero : valueRat F u = valueRat F v → (isZero F u = isZero F v) := fun h => by
    rw [Bool.eq_iff_iff, ← valueRat_eq_zero_iff, ← valueRat_eq_zero_iff, h]
  constructor
  · rintro ⟨heq, hlt⟩
    have := hzero heq
    revert this hlt
    cases isZero F u <;> cases isZero F v <;> cases sign F u <;> cases sign F v <;> decide
  · rintro ⟨hzu, hzv, hsu, hsv⟩
    refine ⟨(valueRat_eq_zero_iff.2 hzu).trans (valueRat_eq_zero_iff.2 hzv).symm, ?_⟩
    rw [hzu, hzv, hsu, hsv]
    decide

/-- The order of R138 is that of the key. -/
theorem fpLt_iff : fpLt F u v = true ↔ orderKey F u < orderKey F v := by
  by_cases h : infRank F u = 0 ∧ infRank F v = 0
  · rw [orderKey_lt_iff_of_finite (infRank_eq_zero_iff.1 h.1) (infRank_eq_zero_iff.1 h.2), fpLt,
      if_pos h,
      Bool.or_eq_true, Exact.lt_iff]
    simp only [valueRat, Bool.and_eq_true, Bool.not_eq_true', and_assoc]
  · rw [fpLt, if_neg h, decide_eq_true_eq]
    refine ⟨fun hlt => Prod.Lex.toLex_lt_toLex.2 (.inl hlt), fun hlt => ?_⟩
    rcases Prod.Lex.toLex_lt_toLex.1 hlt with hrank | ⟨heq, hrest⟩
    · exact hrank
    · replace heq : infRank F u = infRank F v := heq
      have hu : isInf F u = true := by
        rw [← Bool.not_eq_false, ← infRank_eq_zero_iff]
        exact fun h0 => h ⟨h0, heq ▸ h0⟩
      have hv : isInf F v = true := by
        rw [← Bool.not_eq_false, ← infRank_eq_zero_iff]
        exact fun h0 => h ⟨heq ▸ h0, h0⟩
      rw [orderKey_of_inf hu, orderKey_of_inf hv, heq] at hlt
      exact absurd hlt (lt_irrefl _)

/-- No two patterns other than NaNs have the same key. -/
theorem orderKey_injective (hu : isNaN F u = false) (hv : isNaN F v = false)
    (h : orderKey F u = orderKey F v) : u = v := by
  have hrank : infRank F u = infRank F v := congrArg (fun k => (ofLex k).1) h
  by_cases hui : isInf F u = true
  · have hvi : isInf F v = true := by
      rwa [← Bool.not_eq_false, ← infRank_eq_zero_iff, ← hrank, infRank_eq_zero_iff,
        Bool.not_eq_false]
    have hs : sign F u = sign F v := by
      revert hrank
      simp only [infRank, hui, hvi, if_true]
      cases sign F u <;> cases sign F v <;> decide
    rw [eq_inf_of_isInf hui, eq_inf_of_isInf hvi, hs]
  · rw [Bool.not_eq_true] at hui
    have hvi : isInf F v = false := infRank_eq_zero_iff.1 (hrank ▸ infRank_of_finite hui)
    rw [orderKey_of_finite hui, orderKey_of_finite hvi] at h
    have hval : valueRat F u = valueRat F v := congrArg (fun k => (ofLex (ofLex k).2).1) h
    have hzero : (isZero F u && !sign F u) = (isZero F v && !sign F v) :=
      congrArg (fun k => (ofLex (ofLex k).2).2) h
    have hufin := isFinite_of_not_inf_not_nan hui hu
    have hvfin := isFinite_of_not_inf_not_nan hvi hv
    by_cases h0 : valueRat F u = 0
    · have hzu := valueRat_eq_zero_iff.1 h0
      have hzv := valueRat_eq_zero_iff.1 (hval ▸ h0)
      rw [hzu, hzv, Bool.true_and, Bool.true_and, Bool.not_inj_iff] at hzero
      rw [← zero_sign_of_isZero hzu, ← zero_sign_of_isZero hzv, hzero]
    · exact eq_of_valueRat_eq hufin hvfin hval h0

/-! ## The order and the choice -/

theorem fpLe_iff : fpLe F u v = true ↔ orderKey F u ≤ orderKey F v := by
  rw [fpLe, Bool.not_eq_true', Bool.eq_false_iff, Ne, fpLt_iff, not_lt]

theorem isInf_inf (s : Bool) : isInf F (inf F s) = true := by
  have hf : 0 < 2 ^ F.fracBits := Nat.two_pow_pos _
  simp [isInf, inf, expField_assemble F.expMask_lt hf, fracField_assemble F.expMask_lt hf]

theorem sign_inf (s : Bool) : sign F (inf F s) = s :=
  sign_assemble F.expMask_lt (Nat.two_pow_pos _)

/-- An infinity at the lower or the upper end of the order (log 15). -/
theorem infRank_inf (s : Bool) : infRank F (inf F s) = if s then -1 else 1 := by
  rw [infRank, if_pos (isInf_inf s), sign_inf]

theorem eq_inf_of_infRank {s : Bool} (h : infRank F u = if s then -1 else 1) : u = inf F s := by
  have hi : isInf F u = true := by
    rw [← Bool.not_eq_false, ← infRank_eq_zero_iff, h]
    cases s <;> decide
  have hs : sign F u = s := by
    revert h
    simp only [infRank, hi, if_true]
    cases sign F u <;> cases s <;> decide
  rw [eq_inf_of_isInf hi, hs]

theorem infRank_cases : infRank F u = -1 ∨ infRank F u = 0 ∨ infRank F u = 1 := by
  unfold infRank
  cases isInf F u <;> cases sign F u <;> simp

/-- The key of a pattern of lower rank is lower. -/
theorem orderKey_lt_of_infRank_lt (h : infRank F u < infRank F v) : orderKey F u < orderKey F v :=
  Prod.Lex.toLex_lt_toLex.2 (.inl h)

end Order

/-- Settles O47: the order is that of the key, which tells all patterns other than NaNs apart. -/
theorem minMaxOrderIsTotal : Obligations.MinMaxOrderIsTotal := by
  intro F u v w hu hv hw
  simp only [fpLt_iff]
  refine ⟨fun h => ?_, fun h => ?_, lt_trans, fun hfu hfv => ?_, fun h => ?_, fun h => ?_⟩
  · rw [h, Bool.eq_false_iff, Ne, fpLt_iff]
    exact lt_irrefl _
  · have hne : orderKey F u ≠ orderKey F v := fun hk => h (orderKey_injective hu hv hk)
    rw [Bool.eq_iff_iff, Bool.not_eq_true', Bool.eq_false_iff, Ne, fpLt_iff, fpLt_iff, not_lt]
    exact ⟨le_of_lt, fun hle => lt_of_le_of_ne hle hne⟩
  · exact orderKey_lt_iff_of_finite (isInf_eq_false_of_isFinite hfu)
      (isInf_eq_false_of_isFinite hfv)
  · refine orderKey_lt_of_infRank_lt ?_
    rw [infRank_inf]
    rcases infRank_cases (F := F) (u := u) with hr | hr | hr
    · exact absurd (eq_inf_of_infRank (s := true) hr) h
    all_goals rw [hr]; decide
  · refine orderKey_lt_of_infRank_lt ?_
    rw [infRank_inf]
    rcases infRank_cases (F := F) (u := u) with hr | hr | hr
    · rw [hr]; decide
    · rw [hr]; decide
    · exact absurd (eq_inf_of_infRank (s := false) hr) h

/-- The NaN rules of `fmin` and `fmax`, whatever the choice (R164, R165). -/
theorem minMaxCore_nan {F : Format} (pick : Bool) (a b : BitVec F.width) :
    (minMaxCore F pick a b).2 = (if isSNaN F a || isSNaN F b then NV else noFlags) ∧
    (isNaN F a = true → isNaN F b = true → (minMaxCore F pick a b).1 = F.canonicalNaN) ∧
    (isNaN F a = true → isNaN F b = false → (minMaxCore F pick a b).1 = b) ∧
    (isNaN F a = false → isNaN F b = true → (minMaxCore F pick a b).1 = a) ∧
    (isNaN F a = false → isNaN F b = false →
      (minMaxCore F pick a b).1 = if pick then a else b) := by
  refine ⟨rfl, ?_, ?_, ?_, ?_⟩ <;> intro ha hb <;> simp [minMaxCore, ha, hb]

/-- Settles O48: the NaN rules, and a choice that follows the order of the keys. -/
theorem minMaxChoose : Obligations.MinMaxChoose := by
  intro F a b
  obtain ⟨hminfl, hmin2, hminb, hmina, hmin⟩ := minMaxCore_nan (fpLe F a b) a b
  obtain ⟨hmaxfl, hmax2, hmaxb, hmaxa, hmax⟩ := minMaxCore_nan (fpLe F b a) a b
  refine ⟨hminfl, hmaxfl, fun ha hb => ⟨hmin2 ha hb, hmax2 ha hb⟩,
    fun ha hb => ⟨hminb ha hb, hmaxb ha hb⟩, fun ha hb => ⟨hmina ha hb, hmaxa ha hb⟩,
    fun ha hb => ?_⟩
  rw [fMinCore, fMaxCore, hmin ha hb, hmax ha hb]
  simp only [fpLe_iff]
  have htotal := le_total (orderKey F a) (orderKey F b)
  split_ifs with hab hba hba
  · exact ⟨.inl rfl, le_refl _, hab, .inl rfl, le_refl _, hba⟩
  · exact ⟨.inl rfl, le_refl _, hab, .inr rfl, hab, le_refl _⟩
  · exact ⟨.inr rfl, hba, le_refl _, .inl rfl, le_refl _, hba⟩
  · exact absurd htotal (not_or.2 ⟨hab, hba⟩)

end Sys2Proof.Machine
end

section
/-! PROOFS. The fused core (R221 to R227): its NaNs, its infinities, and one rounding of the exact
result. -/

namespace Sys2Proof.Machine

open Sys2Proof.Claims

section Fused

variable {P : Params} {F : Format} {rm : RoundingMode} {a b c : BitVec F.width}
  {negP negC useC : Bool}

theorem zeroTimesInf_iff :
    ((isInf F a && isZero F b) || (isZero F a && isInf F b)) = true ↔ ZeroTimesInf F a b := by
  simp only [Bool.or_eq_true, Bool.and_eq_true, ZeroTimesInf]
  exact or_comm

/-- Finite factors are no zero times an infinity. -/
theorem not_zeroTimesInf_of_isFinite (ha : isFinite F a = true) (hb : isFinite F b = true) :
    ¬ZeroTimesInf F a b := by
  simp [ZeroTimesInf, isInf_eq_false_of_isFinite ha, isInf_eq_false_of_isFinite hb]

/-! ## The branches of the fused core (R221) -/

theorem fmaCore_of_zeroTimesInf (h : ZeroTimesInf F a b) :
    fmaCore P F rm a b c negP negC useC = (F.canonicalNaN, NV) :=
  if_pos (zeroTimesInf_iff.2 h)

theorem fmaCore_of_nan (h : ¬ZeroTimesInf F a b)
    (hn : isNaN F a = true ∨ isNaN F b = true ∨ (useC = true ∧ isNaN F c = true)) :
    fmaCore P F rm a b c negP negC useC =
      (F.canonicalNaN, flagIf (isSNaN F a || isSNaN F b || (useC && isSNaN F c)) NV) := by
  have hnan : (isNaN F a || isNaN F b || (useC && isNaN F c)) = true := by
    simpa [or_assoc] using hn
  exact (if_neg (mt zeroTimesInf_iff.1 h)).trans (if_pos hnan)

/-- The exact product with its sign (R221). -/
def signedProduct (F : Format) (a b : BitVec F.width) (negP : Bool) : Exact :=
  ((value F a).mul (value F b)).withSign (productSign F a b negP)

/-- The addend with its sign (R221). -/
def signedAddend (F : Format) (c : BitVec F.width) (negC : Bool) : Exact :=
  (value F c).withSign (sign F c ^^ negC)

/-- Without the addend and without a NaN. -/
theorem fmaCore_mul (h : ¬ZeroTimesInf F a b) (ha : isNaN F a = false) (hb : isNaN F b = false) :
    fmaCore P F rm a b c negP negC false =
      if isInf F a || isInf F b then (inf F (productSign F a b negP), noFlags)
      else if isZero F a || isZero F b then (zero F (productSign F a b negP), noFlags)
      else round P.tininess F rm (signedProduct F a b negP) := by
  refine (if_neg (mt zeroTimesInf_iff.1 h)).trans ?_
  rw [ha, hb]
  rfl

/-- With the addend and without a NaN. -/
theorem fmaCore_add (h : ¬ZeroTimesInf F a b) (ha : isNaN F a = false) (hb : isNaN F b = false)
    (hc : isNaN F c = false) :
    fmaCore P F rm a b c negP negC true =
      if (isInf F a || isInf F b) && isInf F c && productSign F a b negP != (sign F c ^^ negC) then
        (F.canonicalNaN, NV)
      else if isInf F a || isInf F b then (inf F (productSign F a b negP), noFlags)
      else if isInf F c then (inf F (sign F c ^^ negC), noFlags)
      else if ((signedProduct F a b negP).add (signedAddend F c negC)).isZero then
        (zero F (zeroSumSign rm ((isZero F a || isZero F b) && isZero F c) (productSign F a b negP)
          (sign F c ^^ negC)), noFlags)
      else round P.tininess F rm ((signedProduct F a b negP).add (signedAddend F c negC)) := by
  refine (if_neg (mt zeroTimesInf_iff.1 h)).trans ?_
  rw [ha, hb, hc]
  rfl

/-! ## The exact values -/

theorem signFactor_xor (s s' : Bool) : signFactor (s ^^ s') = signFactor s * signFactor s' := by
  cases s <;> cases s' <;> simp [signFactor]

theorem valueRat_eq_signFactor_mul_abs (x : BitVec F.width) :
    valueRat F x = signFactor (sign F x) * |valueRat F x| := by
  rw [abs_valueRat, ← valueRat_eq]

theorem toRat_withSign (s : Bool) (x : Exact) :
    (x.withSign s).toRat = signFactor s * |x.toRat| := by
  rw [Exact.toRat_withSign]
  cases s <;> simp [signFactor]

theorem toRat_signedProduct :
    (signedProduct F a b negP).toRat = signFactor negP * (valueRat F a * valueRat F b) := by
  have ha := valueRat_eq_signFactor_mul_abs a
  have hb := valueRat_eq_signFactor_mul_abs b
  rw [signedProduct, toRat_withSign, Exact.toRat_mul, abs_mul, productSign, signFactor_xor,
    signFactor_xor]
  change signFactor (sign F a) * signFactor (sign F b) * signFactor negP *
    (|valueRat F a| * |valueRat F b|) = _
  calc _ = signFactor negP * (signFactor (sign F a) * |valueRat F a| *
        (signFactor (sign F b) * |valueRat F b|)) := by ring
    _ = _ := by rw [← ha, ← hb]

theorem toRat_signedAddend :
    (signedAddend F c negC).toRat = signFactor negC * valueRat F c := by
  have hc := valueRat_eq_signFactor_mul_abs c
  rw [signedAddend, toRat_withSign, signFactor_xor]
  change signFactor (sign F c) * signFactor negC * |valueRat F c| = _
  calc _ = signFactor negC * (signFactor (sign F c) * |valueRat F c|) := by ring
    _ = _ := by rw [← hc]

theorem toRat_signedSum :
    ((signedProduct F a b negP).add (signedAddend F c negC)).toRat =
      signFactor negP * (valueRat F a * valueRat F b) + signFactor negC * valueRat F c := by
  rw [Exact.toRat_add, toRat_signedProduct, toRat_signedAddend]

/-! ## Finite operands -/

section Finite

variable (ha : isFinite F a = true) (hb : isFinite F b = true)
include ha hb

theorem fmaCore_mul_of_finite :
    fmaCore P F rm a b c negP negC false =
      if isZero F a || isZero F b then (zero F (productSign F a b negP), noFlags)
      else round P.tininess F rm (signedProduct F a b negP) := by
  rw [fmaCore_mul (not_zeroTimesInf_of_isFinite ha hb) (isNaN_eq_false_of_isFinite ha)
    (isNaN_eq_false_of_isFinite hb), isInf_eq_false_of_isFinite ha, isInf_eq_false_of_isFinite hb]
  rfl

theorem fmaCore_add_of_finite (hc : isFinite F c = true) :
    fmaCore P F rm a b c negP negC true =
      if ((signedProduct F a b negP).add (signedAddend F c negC)).isZero then
        (zero F (zeroSumSign rm ((isZero F a || isZero F b) && isZero F c) (productSign F a b negP)
          (sign F c ^^ negC)), noFlags)
      else round P.tininess F rm ((signedProduct F a b negP).add (signedAddend F c negC)) := by
  rw [fmaCore_add (not_zeroTimesInf_of_isFinite ha hb) (isNaN_eq_false_of_isFinite ha)
    (isNaN_eq_false_of_isFinite hb) (isNaN_eq_false_of_isFinite hc), isInf_eq_false_of_isFinite ha,
    isInf_eq_false_of_isFinite hb, isInf_eq_false_of_isFinite hc]
  rfl

/-- One rounding of the exact sum (R221). -/
theorem fmaCore_add_eq_round (hc : isFinite F c = true) {x : Exact} (hx : x.num ≠ 0)
    (h : x.toRat =
      signFactor negP * (valueRat F a * valueRat F b) + signFactor negC * valueRat F c) :
    fmaCore P F rm a b c negP negC true = round P.tininess F rm x := by
  have hsum := toRat_signedSum (a := a) (b := b) (c := c) (negP := negP) (negC := negC)
  have hne : ¬((signedProduct F a b negP).add (signedAddend F c negC)).isZero = true := by
    rw [Exact.isZero_iff, hsum, ← h]
    exact Exact.toRat_ne_zero hx
  rw [fmaCore_add_of_finite ha hb hc, if_neg hne, round_congr hx (h.trans hsum.symm)]

/-- One rounding of the exact product (R221). -/
theorem fmaCore_mul_eq_round {x : Exact} (hx : x.num ≠ 0)
    (h : x.toRat = signFactor negP * (valueRat F a * valueRat F b)) :
    fmaCore P F rm a b c negP negC false = round P.tininess F rm x := by
  have hne : ¬(isZero F a || isZero F b) = true := by
    rw [Bool.or_eq_true, ← valueRat_eq_zero_iff, ← valueRat_eq_zero_iff, ← mul_eq_zero]
    intro h0
    exact Exact.toRat_ne_zero hx (by rw [h, h0, mul_zero])
  rw [fmaCore_mul_of_finite ha hb, if_neg hne, round_congr hx (h.trans toRat_signedProduct.symm)]

end Finite

/-! ## Infinite products and addends -/

theorem fmaCore_mul_of_infiniteProduct (h : InfiniteProduct F a b) :
    fmaCore P F rm a b c negP negC false = (inf F (productSign F a b negP), noFlags) := by
  obtain ⟨hinf, ha, hb, hz⟩ := h
  rw [← Bool.or_eq_true] at hinf
  rw [fmaCore_mul hz ha hb, if_pos hinf]

/-- An infinite product and the opposite infinity, or anything else but a NaN. -/
theorem fmaCore_add_of_infiniteProduct (h : InfiniteProduct F a b) (hc : isNaN F c = false) :
    fmaCore P F rm a b c negP negC true =
      if isInf F c = true ∧ productSign F a b negP ≠ (sign F c ^^ negC) then (F.canonicalNaN, NV)
      else (inf F (productSign F a b negP), noFlags) := by
  obtain ⟨hinf, ha, hb, hz⟩ := h
  rw [← Bool.or_eq_true] at hinf
  rw [fmaCore_add hz ha hb hc, hinf]
  simp

theorem fmaCore_add_of_inf_addend (ha : isFinite F a = true) (hb : isFinite F b = true)
    (hc : isInf F c = true) :
    fmaCore P F rm a b c negP negC true = (inf F (sign F c ^^ negC), noFlags) := by
  rw [fmaCore_add (not_zeroTimesInf_of_isFinite ha hb) (isNaN_eq_false_of_isFinite ha)
    (isNaN_eq_false_of_isFinite hb) (isNaN_eq_false_of_isInf hc), isInf_eq_false_of_isFinite ha,
    isInf_eq_false_of_isFinite hb, hc]
  rfl

/-! ## No other NaN -/

theorem isNaN_inf (s : Bool) : isNaN F (inf F s) = false := isNaN_eq_false_of_isInf (isInf_inf s)

theorem isNaN_zero (s : Bool) : isNaN F (zero F s) = false :=
  isNaN_eq_false_of_isFinite (isFinite_zero s)

theorem isNaN_maxFinite (s : Bool) : isNaN F (maxFinite F s) = false := by
  have hmask := F.expMask_eq
  have hlt := F.expMask_lt
  refine isNaN_eq_false_of_isFinite (isFinite_iff.2 ?_)
  rw [maxFinite, expField_assemble (by omega) (Nat.sub_lt (Nat.two_pow_pos _) Nat.one_pos)]
  omega

/-- `Round` gives no NaN. -/
theorem isNaN_round {t : Tininess} {x : Exact} (hx : x.num ≠ 0) :
    isNaN F (round t F rm x).1 = false := by
  by_cases hin : InRange F rm x
  · exact isNaN_eq_false_of_isFinite (isFinite_round hx hin)
  · rw [round_of_not_inRange hin]
    cases rm <;> simp only [overflowResult]
    case rne => exact isNaN_inf _
    case rmm => exact isNaN_inf _
    case rtz => exact isNaN_maxFinite _
    case rdn => split_ifs; exacts [isNaN_inf _, isNaN_maxFinite _]
    case rup => split_ifs; exacts [isNaN_maxFinite _, isNaN_inf _]

theorem num_ne_zero_of_not_isZero {x : Exact} (h : ¬x.isZero = true) : x.num ≠ 0 := by
  simpa [Exact.isZero] using h

/-- A product of finite nonzero factors is not zero. -/
theorem signedProduct_num_ne_zero (ha : isZero F a = false) (hb : isZero F b = false) :
    (signedProduct F a b negP).num ≠ 0 := by
  refine num_ne_zero_of_not_isZero ?_
  rw [Exact.isZero_iff, toRat_signedProduct, mul_eq_zero, mul_eq_zero, valueRat_eq_zero_iff,
    valueRat_eq_zero_iff, ha, hb]
  cases negP <;> simp [signFactor]

/-- Everything the fused core can do: the canonical NaN with NV or no flag, an infinity or a zero
with no flag, or one rounding of a nonzero value (R221). -/
theorem fmaCore_cases (P : Params) (F : Format) (rm : RoundingMode) (a b c : BitVec F.width)
    (negP negC useC : Bool) :
    (∃ nv, fmaCore P F rm a b c negP negC useC = (F.canonicalNaN, flagIf nv NV)) ∨
    (∃ s, fmaCore P F rm a b c negP negC useC = (inf F s, noFlags)) ∨
    (∃ s, fmaCore P F rm a b c negP negC useC = (zero F s, noFlags)) ∨
    (∃ x : Exact, x.num ≠ 0 ∧
      fmaCore P F rm a b c negP negC useC = round P.tininess F rm x) := by
  by_cases hz : ZeroTimesInf F a b
  · exact .inl ⟨true, fmaCore_of_zeroTimesInf hz⟩
  by_cases hn : isNaN F a = true ∨ isNaN F b = true ∨ (useC = true ∧ isNaN F c = true)
  · exact .inl ⟨_, fmaCore_of_nan hz hn⟩
  simp only [not_or, not_and, Bool.not_eq_true] at hn
  obtain ⟨ha, hb, hc⟩ := hn
  cases useC with
  | false =>
    rw [fmaCore_mul hz ha hb]
    split_ifs with hinf hzero
    · exact .inr (.inl ⟨_, rfl⟩)
    · exact .inr (.inr (.inl ⟨_, rfl⟩))
    · rw [Bool.or_eq_true, not_or, Bool.not_eq_true, Bool.not_eq_true] at hzero
      exact .inr (.inr (.inr ⟨_, signedProduct_num_ne_zero hzero.1 hzero.2, rfl⟩))
  | true =>
    rw [fmaCore_add hz ha hb (hc rfl)]
    split_ifs with hopp hinf hcinf hzero
    · exact .inl ⟨true, rfl⟩
    · exact .inr (.inl ⟨_, rfl⟩)
    · exact .inr (.inl ⟨_, rfl⟩)
    · exact .inr (.inr (.inl ⟨_, rfl⟩))
    · exact .inr (.inr (.inr ⟨_, num_ne_zero_of_not_isZero hzero, rfl⟩))

/-- A NaN that the fused core gives is the canonical one (R227). -/
theorem fmaCore_nan_canonical :
    (fmaCore P F rm a b c negP negC useC).1 = F.canonicalNaN ∨
    isNaN F (fmaCore P F rm a b c negP negC useC).1 = false := by
  rcases fmaCore_cases P F rm a b c negP negC useC with
    ⟨_, e⟩ | ⟨s, e⟩ | ⟨s, e⟩ | ⟨x, hx, e⟩ <;> rw [e]
  · exact .inl rfl
  · exact .inr (isNaN_inf s)
  · exact .inr (isNaN_zero s)
  · exact .inr (isNaN_round hx)

end Fused

/-- Settles O49: clause by clause, the branches of the fused core. -/
theorem fusedNaNsAreCanonical : Obligations.FusedNaNsAreCanonical := by
  intro P F rm a b c negP negC useC
  refine ⟨fun hn => ?_, fmaCore_of_zeroTimesInf, fmaCore_of_nan, fun hp hc hs => ?_⟩
  · exact fmaCore_nan_canonical.resolve_right (by rw [hn]; decide)
  · rw [fmaCore_add_of_infiniteProduct hp (isNaN_eq_false_of_isInf hc), if_pos ⟨hc, hs⟩]

/-- Settles O50: clause by clause, the branches of the fused core on exact values. -/
theorem fusedRoundsOnce : Obligations.FusedRoundsOnce := by
  intro P F rm a b c negP negC
  refine ⟨fun ha hb => ⟨fun x hc hx h => fmaCore_add_eq_round ha hb hc hx h, fun hc h => ?_,
    fun x hx h => fmaCore_mul_eq_round ha hb hx h, fun hz => ?_,
    fun hc => fmaCore_add_of_inf_addend ha hb hc⟩,
    fun hp => ⟨fmaCore_mul_of_infiniteProduct hp, fun hc hs => ?_⟩⟩
  · have hzero : ((signedProduct F a b negP).add (signedAddend F c negC)).isZero = true := by
      rw [Exact.isZero_iff, toRat_signedSum]
      exact h
    rw [fmaCore_add_of_finite ha hb hc, if_pos hzero, zeroSumSign]
    cases rm <;> rfl
  · rw [← Bool.or_eq_true] at hz
    rw [fmaCore_mul_of_finite ha hb, if_pos hz]
  · rw [fmaCore_add_of_infiniteProduct hp hc, if_neg hs]

/-! ## Rounding a negated value (R225) -/

/-- The exact value with the other sign. -/
def Exact.negated (x : Exact) : Exact := { num := -x.num, exp := x.exp }

theorem Exact.toRat_negated (x : Exact) : x.negated.toRat = -x.toRat := by
  simp [Exact.toRat, Exact.negated]

theorem Exact.num_negated_ne_zero {x : Exact} (h : x.num ≠ 0) : x.negated.num ≠ 0 :=
  neg_ne_zero.2 h

theorem Exact.decide_num_negated {x : Exact} (h : x.num ≠ 0) :
    decide (x.negated.num < 0) = !decide (x.num < 0) := by
  rw [← decide_not, decide_eq_decide]
  show -x.num < 0 ↔ _
  omega

section Negated

variable {F : Format} {rm : RoundingMode}

/-- `Neg` flips bit `W-1` and no other (R124). -/
theorem getLsbD_neg (x : BitVec F.width) (i : Nat) :
    (neg F x).getLsbD i = (x.getLsbD i ^^ decide (F.width - 1 = i)) := by
  have hw : F.width - 1 < F.width := by
    have := F.width_eq
    omega
  rw [neg, BitVec.getLsbD_xor, BitVec.getLsbD_twoPow, decide_eq_true hw, Bool.true_and]

theorem sign_neg (x : BitVec F.width) : sign F (neg F x) = !sign F x := by
  rw [sign, getLsbD_neg, decide_eq_true rfl, Bool.xor_true, sign]

/-- `Neg` changes no field below the sign. -/
theorem extractLsb'_neg (x : BitVec F.width) {start len : Nat} (h : start + len ≤ F.width - 1) :
    (neg F x).extractLsb' start len = x.extractLsb' start len := by
  apply BitVec.eq_of_getLsbD_eq
  intro i hi
  rw [BitVec.getLsbD_extractLsb', BitVec.getLsbD_extractLsb', getLsbD_neg,
    decide_eq_false (show F.width - 1 ≠ start + i by omega), Bool.xor_false]

/-- `Neg` flips the sign of a pattern put together from its fields (R124). -/
theorem neg_assemble {s : Bool} {e f : Nat} (he : e < 2 ^ F.expBits) (hf : f < 2 ^ F.fracBits) :
    neg F (assemble F s e f) = assemble F (!s) e f := by
  have hw := F.width_eq
  have hexp : expField F (neg F (assemble F s e f)) = e := by
    rw [expField, extractLsb'_neg _ (by omega)]
    exact expField_assemble he hf
  have hfrac : fracField F (neg F (assemble F s e f)) = f := by
    rw [fracField, extractLsb'_neg _ (by omega)]
    exact fracField_assemble he hf
  rw [← assemble_fields (neg F (assemble F s e f)), hexp, hfrac, sign_neg, sign_assemble he hf]

theorem neg_encodeMagnitude {s : Bool} {m : Nat} {q : Int} (h : Canonical F m q) :
    neg F (encodeMagnitude F s m q) = encodeMagnitude F (!s) m q := by
  obtain ⟨hm, hlo, hhi, hn⟩ := h
  have hmask := F.expMask_eq
  have hlt := F.expMask_lt
  simp only [Format.emin, Format.emax] at hlo hhi hn
  by_cases hge : 2 ^ F.fracBits ≤ m
  · rw [encodeMagnitude_of_ge hge hm, encodeMagnitude_of_ge hge hm]
    exact neg_assemble (by omega) (by rw [pow_succ] at hm; omega)
  · rw [encodeMagnitude_of_lt (Nat.not_le.1 hge), encodeMagnitude_of_lt (Nat.not_le.1 hge)]
    exact neg_assemble (Nat.two_pow_pos _) (Nat.not_le.1 hge)

/-- The modes that treat both signs alike. -/
def Symmetric (rm : RoundingMode) : Prop := rm = .rne ∨ rm = .rtz ∨ rm = .rmm

theorem neg_overflowResult (hrm : Symmetric rm) (s : Bool) :
    neg F (overflowResult F rm s) = overflowResult F rm (!s) := by
  have hlt := F.expMask_lt
  have hf : 2 ^ F.fracBits - 1 < 2 ^ F.fracBits := Nat.sub_lt (Nat.two_pow_pos _) Nat.one_pos
  rcases hrm with rfl | rfl | rfl
  · exact neg_assemble hlt (Nat.two_pow_pos _)
  · exact neg_assemble (by omega) hf
  · exact neg_assemble hlt (Nat.two_pow_pos _)

theorem roundAt_symmetric (hrm : Symmetric rm) (s s' : Bool) (a : Nat) (p q : Int) :
    roundAt rm s a p q = roundAt rm s' a p q := by
  rcases hrm with rfl | rfl | rfl <;> rfl

variable {t : Tininess} {x : Exact}

theorem rounded_negated (hrm : Symmetric rm) : rounded F rm x.negated = rounded F rm x := by
  rw [rounded, rounded, roundAt_symmetric hrm _ (decide (x.num < 0))]
  simp only [roundQuantum, Exact.leadExp, Exact.negated, Int.natAbs_neg]

theorem tinyResult_negated (hrm : Symmetric rm) :
    tinyResult t F rm x.negated = tinyResult t F rm x := by
  cases t <;> simp only [tinyResult, tiny, Exact.leadExp, Exact.negated, Int.natAbs_neg,
    roundAt_symmetric hrm _ (decide (x.num < 0))]

/-- Under a mode that treats both signs alike, negating the value negates the result and keeps the
flags. -/
theorem round_negated (hrm : Symmetric rm) (hx : x.num ≠ 0) :
    round t F rm x.negated = (neg F (round t F rm x).1, (round t F rm x).2) := by
  have hq : roundQuantum F x.negated = roundQuantum F x := by
    simp only [roundQuantum, Exact.leadExp, Exact.negated, Int.natAbs_neg]
  have hr := rounded_negated (F := F) (x := x) hrm
  have hrange : InRange F rm x.negated ↔ InRange F rm x := by rw [InRange, InRange, hr, hq]
  by_cases hin : InRange F rm x
  · obtain ⟨m, q, hc, -, henc, -⟩ := exists_canonical_of_inRange hx hin
    rw [round_of_inRange hin, round_of_inRange (hrange.2 hin), hr, hq, henc, henc,
      Exact.decide_num_negated hx, neg_encodeMagnitude hc, tinyResult_negated hrm]
  · rw [round_of_not_inRange hin, round_of_not_inRange (mt hrange.1 hin),
      Exact.decide_num_negated hx, neg_overflowResult hrm]

end Negated

/-- Settles O51: `fmadd` rounds the exact sum and `fnmadd` its negation. -/
theorem fnmaddNegatesFmadd : Obligations.FnmaddNegatesFmadd := by
  intro P F rm a b c hrm ha hb hc hne
  have hsum := toRat_signedSum (F := F) (a := a) (b := b) (c := c) (negP := false) (negC := false)
  have hx : ((signedProduct F a b false).add (signedAddend F c false)).num ≠ 0 := by
    refine num_ne_zero_of_not_isZero ?_
    rw [Exact.isZero_iff, hsum]
    simpa [signFactor] using hne
  rw [fmaCore_add_eq_round ha hb hc hx hsum, ← round_negated hrm hx]
  refine fmaCore_add_eq_round ha hb hc (Exact.num_negated_ne_zero hx) ?_
  rw [Exact.toRat_negated, hsum]
  simp only [signFactor]
  norm_num
  ring

end Sys2Proof.Machine
end

section
/-! PROOFS. Every step keeps the flag sets legal (R135, R292, R294): what the lane functions can
set, and the flags a record and a completion take from them. -/

namespace Sys2Proof.Machine

open Sys2Proof.Claims

/-! ## Legal flag sets -/

/-- Whether a flag is set is a bit of the flag set (R15). -/
theorem raises_eq_getLsbD : ∀ x : LaneFlags,
    raises x DZ = x.getLsbD 3 ∧ raises x UF = x.getLsbD 1 ∧ raises x OF = x.getLsbD 2 ∧
      raises x NX = x.getLsbD 0 := by
  decide

theorem faddLegal_iff {x : LaneFlags} :
    FaddLegal x ↔ x.getLsbD 3 = false ∧ x.getLsbD 1 = false ∧
      (x.getLsbD 2 = true → x.getLsbD 0 = true) := by
  obtain ⟨hdz, huf, hof, hnx⟩ := raises_eq_getLsbD x
  rw [FaddLegal, hdz, huf, hof, hnx]

theorem faddLegal_noFlags : FaddLegal noFlags := by unfold FaddLegal; decide

theorem faddLegal_NV : FaddLegal NV := by unfold FaddLegal; decide

theorem faddLegal_flagIf_NV (c : Bool) : FaddLegal (flagIf c NV) := by
  cases c
  exacts [faddLegal_noFlags, faddLegal_NV]

theorem FaddLegal.or {x y : LaneFlags} (hx : FaddLegal x) (hy : FaddLegal y) :
    FaddLegal (x ||| y) := by
  rw [faddLegal_iff] at *
  simp only [BitVec.getLsbD_or, Bool.or_eq_false_iff, Bool.or_eq_true]
  exact ⟨⟨hx.1, hy.1⟩, ⟨hx.2.1, hy.2.1⟩, Or.imp hx.2.2 hy.2.2⟩

theorem fmaLegal_noFlags : FmaLegal noFlags := by unfold FmaLegal; decide

theorem fmaLegal_flagIf_NV (c : Bool) : FmaLegal (flagIf c NV) := by
  unfold FmaLegal
  cases c <;> decide

/-- An FMA-unit flag set without UF is one of the FADD-unit. -/
theorem FmaLegal.faddLegal {x : LaneFlags} (h : FmaLegal x) (huf : raises x UF = false) :
    FaddLegal x :=
  ⟨h.1, huf, h.2.1⟩

/-- The flags of a rounding: OF and NX, or NX alone, or UF and NX, or none (R128, R130, R131). -/
theorem fmaLegal_round (t : Tininess) (F : Format) (rm : RoundingMode) (x : Exact) :
    FmaLegal (round t F rm x).2 := by
  by_cases hin : InRange F rm x
  · rw [round_of_inRange hin]
    have hall : ∀ inexact tiny : Bool,
        FmaLegal (flagIf inexact NX ||| flagIf (tiny && inexact) UF) := by
      unfold FmaLegal
      decide
    exact hall _ _
  · rw [round_of_not_inRange hin]
    have hover : FmaLegal (OF ||| NX) := by unfold FmaLegal; decide
    exact hover

/-! ## The flags of the lane functions -/

theorem faddLegal_fAddCore (P : Params) (F : Format) (rm : RoundingMode) (u v : BitVec F.width) :
    FaddLegal (fAddCore P F rm u v).2 := by
  rcases fAddCore_flags P F rm u v with h | h | ⟨x, hx, hmul, h⟩ <;> rw [h]
  · exact faddLegal_NV
  · exact faddLegal_noFlags
  · exact (fmaLegal_round _ _ _ _).faddLegal (raises_UF_round_of_multiple hx hmul)

theorem fmaLegal_fmaCore (P : Params) (F : Format) (rm : RoundingMode) (a b c : BitVec F.width)
    (negP negC useC : Bool) : FmaLegal (fmaCore P F rm a b c negP negC useC).2 := by
  rcases fmaCore_cases P F rm a b c negP negC useC with
    ⟨nv, e⟩ | ⟨_, e⟩ | ⟨_, e⟩ | ⟨x, -, e⟩ <;> rw [e]
  · exact fmaLegal_flagIf_NV nv
  · exact fmaLegal_noFlags
  · exact fmaLegal_noFlags
  · exact fmaLegal_round _ _ _ x

theorem faddLegal_orFlags {n : Nat} {g : Nat → LaneFlags} (h : ∀ i, FaddLegal (g i)) :
    FaddLegal (orFlags n g) := by
  induction n with
  | zero => exact faddLegal_noFlags
  | succ n ih => rw [orFlags_succ]; exact ih.or (h n)

theorem faddLegal_tree (P : Params) (T : Format) (rm : RoundingMode) (k : Nat)
    (v : Nat → BitVec T.width) : FaddLegal (tree P T rm k v).2 := by
  induction k generalizing v with
  | zero => exact faddLegal_noFlags
  | succ k ih => exact (faddLegal_orFlags fun j => faddLegal_fAddCore P T rm _ _).or (ih _)

theorem faddLegal_terminalSum (P : Params) (T : Format) (rm : RoundingMode) (none : Bool)
    (acc : Pack64) (k : Nat) (v : Nat → BitVec T.width) {g : LaneFlags} (hg : FaddLegal g) :
    FaddLegal (terminalSum P T rm none acc k v g).2 := by
  cases none
  · exact (hg.or (faddLegal_tree P T rm k v)).or (faddLegal_fAddCore P T rm _ _)
  · exact faddLegal_noFlags

theorem faddLegal_widen (S T : Format) (x : BitVec S.width) : FaddLegal (widen S T x).2 := by
  unfold widen
  split_ifs
  · exact faddLegal_NV
  all_goals exact faddLegal_noFlags

theorem faddLegal_wideLane (s : State) (c : RedCtl) (T : Format) (i : Nat) :
    FaddLegal (s.wideLane c T i).2 := by
  unfold State.wideLane
  split_ifs
  · exact faddLegal_widen _ _ _
  · exact faddLegal_noFlags

theorem faddLegal_foldLane (s : State) (c : RedCtl) (i : Nat) : FaddLegal (s.foldLane c i).2 := by
  unfold State.foldLane
  split_ifs
  · exact faddLegal_fAddCore _ _ _ _ _
  · exact faddLegal_noFlags

/-! ## The flags a record takes -/

/-- Packed flags hold the lanes' flags, and none above the lane count. -/
theorem lane_packFlags_legal {p : LaneFlags → Prop} (hp : p noFlags) {F : Format}
    {g : Nat → BitVec F.width × LaneFlags} (hg : ∀ i, p (g i).2) (i : Nat) :
    p (lane (packFlags F g) 5 i) := by
  by_cases hi : i < F.lanes
  · rw [lane_packFlags F g i hi]
    exact hg i
  · rw [lane_packFlags_of_le F g (Nat.not_lt.1 hi)]
    exact hp

/-- A terminal step's flags are in lane 0's field (R198). -/
theorem lane_setWidth_legal {p : LaneFlags → Prop} (hp : p noFlags) {x : LaneFlags} (hx : p x)
    (i : Nat) : p (lane (x.setWidth 20) 5 i) := by
  have hbit : ∀ b, b < 5 →
      (lane (x.setWidth 20) 5 i).getLsbD b = (decide (i = 0) && x.getLsbD b) := by
    intro b hb
    rw [getLsbD_lane, decide_eq_true hb, Bool.true_and, BitVec.getLsbD_setWidth]
    rcases Nat.eq_zero_or_pos i with rfl | hpos
    · simp [show b < 20 by omega]
    · rw [BitVec.getLsbD_of_ge x (5 * i + b) (by omega), decide_eq_false hpos.ne']
      simp
  rcases Nat.eq_zero_or_pos i with rfl | hpos
  · rwa [BitVec.eq_of_getLsbD_eq (x := lane (x.setWidth 20) 5 0) (y := x) fun b hb => by
      simpa using hbit b hb]
  · rwa [BitVec.eq_of_getLsbD_eq (x := lane (x.setWidth 20) 5 i) (y := noFlags) fun b hb => by
      simpa [hpos.ne', noFlags] using hbit b hb]

/-- The record an FADD-unit operation appends has legal flags. -/
theorem exec_fadd_flags {i : Instr} {s t : State} (hu : i.unit = .fadd) (h : exec i s = .next t) :
    ∃ rec : FaddRec, t.fadd.pipe = s.fadd.pipe ++ [rec] ∧ t.fadd.fflags = s.fadd.fflags ∧
      ∀ k, FaddLegal (lane rec.fl 5 k) := by
  have hpack := fun F g => lane_packFlags_legal (F := F) (g := g) faddLegal_noFlags
  have hterm := fun x => lane_setWidth_legal (x := x) faddLegal_noFlags
  cases i with
  | fadd c => cases h; exact ⟨_, rfl, rfl, hpack _ _ fun k => faddLegal_fAddCore _ _ _ _ _⟩
  | fsub c => cases h; exact ⟨_, rfl, rfl, hpack _ _ fun k => faddLegal_fAddCore _ _ _ _ _⟩
  | fmin c => cases h; exact ⟨_, rfl, rfl, hpack _ _ fun k => faddLegal_flagIf_NV _⟩
  | fmax c => cases h; exact ⟨_, rfl, rfl, hpack _ _ fun k => faddLegal_flagIf_NV _⟩
  | fclass c => cases h; exact ⟨_, rfl, rfl, hpack _ _ fun k => faddLegal_noFlags⟩
  | fredsumFold c =>
    simp only [exec, execFredsumFold] at h
    split at h <;> cases h
    exact ⟨_, rfl, rfl, hpack _ _ (faddLegal_foldLane s c)⟩
  | fredsum c =>
    simp only [exec, execFredsum] at h
    split at h <;> cases h
    exact ⟨_, rfl, rfl, hterm _ (faddLegal_terminalSum _ _ _ _ _ _ _ faddLegal_noFlags)⟩
  | fwredsum c =>
    simp only [exec, execFwredsum] at h
    split at h
    · cases h
    · split at h <;> cases h
      exact ⟨_, rfl, rfl, hterm _ (faddLegal_terminalSum _ _ _ _ _ _ _
        (faddLegal_orFlags (faddLegal_wideLane s c _)))⟩
  | fmul c | fmadd c | fmsub c | fnmadd c | fnmsub c => cases hu
  | vdivu ew | vdiv ew => cases hu

/-- The record an FMA-unit operation appends has legal flags. -/
theorem exec_fma_flags {i : Instr} {s t : State} (hu : i.unit = .fma) (h : exec i s = .next t) :
    ∃ rec : FmaRec, t.fma.pipe = s.fma.pipe ++ [rec] ∧ t.fma.fflags = s.fma.fflags ∧
      ∀ k, FmaLegal (lane rec.fl 5 k) := by
  have hlane : ∀ (c : FmaCtl) (negP negC useC : Bool) (k : Nat),
      FmaLegal (lane (packFlags c.fmt (s.fmaLane c negP negC useC)) 5 k) :=
    fun c negP negC useC =>
      lane_packFlags_legal fmaLegal_noFlags fun k => fmaLegal_fmaCore _ _ _ _ _ _ _ _ _
  cases i with
  | fmul c | fmadd c | fmsub c | fnmadd c | fnmsub c => cases h; exact ⟨_, rfl, rfl, hlane c _ _ _⟩
  | fadd c | fsub c | fmin c | fmax c | fclass c => cases hu
  | fredsumFold c | fredsum c | fwredsum c => cases hu
  | vdivu ew | vdiv ew => cases hu

/-- An issue keeps the FADD-unit's flags legal. -/
theorem Issued.fadd_flagsLegal {s : State} {f : FaddUnit} (h : Issued .fadd State.fadd s f)
    (hs : s.fadd.FlagsLegal) : f.FlagsLegal := by
  rcases h with ⟨-, rfl⟩ | ⟨-, i, t, -, hu, he, rfl⟩
  · exact hs
  · obtain ⟨rec, hpipe, hfl, hrec⟩ := exec_fadd_flags hu he
    rw [FaddUnit.FlagsLegal, hpipe, hfl]
    refine ⟨hs.1, fun r hr i hi => ?_⟩
    rcases List.mem_append.1 hr with hold | hnew
    · exact hs.2 r hold i hi
    · rw [List.mem_singleton.1 hnew]
      exact hrec i

/-- An issue keeps the FMA-unit's flags legal. -/
theorem Issued.fma_flagsLegal {s : State} {m : FmaUnit} (h : Issued .fma State.fma s m)
    (hs : s.fma.FlagsLegal) : m.FlagsLegal := by
  rcases h with ⟨-, rfl⟩ | ⟨-, i, t, -, hu, he, rfl⟩
  · exact hs
  · obtain ⟨rec, hpipe, hfl, hrec⟩ := exec_fma_flags hu he
    rw [FmaUnit.FlagsLegal, hpipe, hfl]
    refine ⟨hs.1, fun r hr i hi => ?_⟩
    rcases List.mem_append.1 hr with hold | hnew
    · exact hs.2 r hold i hi
    · rw [List.mem_singleton.1 hnew]
      exact hrec i

/-! ## Completion -/

/-- The flag register a completion writes holds the record's fields, and no flag in the others. -/
theorem lane_writeLanes_legal {p : LaneFlags → Prop} (hp : p noFlags) {F : Format} {we : Nat → Bool}
    {fl : FlagReg} (hfl : ∀ i, i < 4 → p (lane fl 5 i)) (i : Nat) (hi : i < 4) :
    p (lane (writeLanes 5 F.lanes we fl 0#20) 5 i) := by
  rw [lane_writeLanes _ _ _ _ (flagLanes_fit F)]
  split_ifs
  · exact hfl i hi
  · rw [lane_zero]
    exact hp

theorem FaddUnit.FlagsLegal.complete {u : FaddUnit} (hu : u.FlagsLegal) (L t : Nat) :
    (u.complete L t).FlagsLegal := by
  refine ⟨?_, fun rec hrec => hu.2 rec (u.complete_pipe_subset L t hrec)⟩
  rcases u.complete_cases L t with ⟨rec, rest, hp, -, e⟩ | ⟨-, e⟩ <;> rw [e]
  · exact lane_writeLanes_legal faddLegal_noFlags (hu.2 rec (by rw [hp]; exact List.mem_cons_self))
  · exact hu.1

theorem FmaUnit.FlagsLegal.complete {u : FmaUnit} (hu : u.FlagsLegal) (L t : Nat) :
    (u.complete L t).FlagsLegal := by
  refine ⟨?_, fun rec hrec => hu.2 rec (u.complete_pipe_subset L t hrec)⟩
  rcases u.complete_cases L t with ⟨rec, rest, hp, -, e⟩ | ⟨-, e⟩ <;> rw [e]
  · exact lane_writeLanes_legal fmaLegal_noFlags (hu.2 rec (by rw [hp]; exact List.mem_cons_self))
  · exact hu.1

/-- Settles O12: an issue appends a record of legal flags, and a completion copies a record's. -/
theorem stepKeepsFlagsLegal : Obligations.StepKeepsFlagsLegal := by
  intro s t hfadd hfma h
  obtain ⟨-, -, -, -, ⟨f, hf, hft⟩, ⟨m, hm, hmt⟩, -⟩ := step_parts h
  rw [hft, hmt]
  exact ⟨(hf.fadd_flagsLegal hfadd).complete _ _, (hm.fma_flagsLegal hfma).complete _ _⟩

end Sys2Proof.Machine
end
